-- ==== Sys2Proof/Word.lean ====
section
/-! DEFINITION. The word types: a register is `REGW = 64` bits wide (rule R11, decision D2) and memory is made of
8-bit bytes (rule R40). A bit string shorter than a register is carried in the low-order bits of a `Word`, the
bits above it zero, which is the zero extension of rule R14. -/

namespace Sys2Proof

/-- The contents of a register: `REGW = 64` bits (rule R11). -/
abbrev Word := BitVec 64

/-- One byte of memory (rule R40). -/
abbrev Byte := BitVec 8

end Sys2Proof
end

