-- ==== Sys2Proof/Config.lean ====
section
/-! DEFINITION. What an implementation fixes and what the spec leaves open.

The spec's OPEN parameters (rule R5) are the fields of `Impl`, plain data that `State` carries and no step
changes: a statement about every state is then a statement about every value of every parameter, which is what
`92_eei_decisions.md` asks of an OPEN parameter. Where a parameter is a function that the spec does not bound
(alignment, address translation, which NaNs signal, what `P` records), one constructor of its type stands for "the platform's
own", and answers by an opaque constant of this file, of which nothing can be proved. The values an operation
leaves unspecified are opaque constants too, applied to a counter of `State` (a NaN's payload, what `ip` reads as) or
to the operands they depend on (the flags a base instruction leaves). -/

namespace Sys2Proof

/-- A machine exception of the extension (rule R176). -/
inductive Trap where
  | und
  | prot
  | pf
  | fpe
  deriving DecidableEq, Repr

/-- The base-ISA mnemonics of rule R71, which the source names without an opcode. -/
inductive BaseMnemonic where
  | mov
  | test
  | cmp
  | cmpxchg
  | xchg
  deriving DecidableEq, Repr

/-- The condition flags a base instruction may write (rules R25, R71). -/
structure CondFlags where
  c : Bool
  z : Bool
  v : Bool
  n : Bool
  p : Bool
  deriving DecidableEq, Repr, Inhabited

/-- `BYTE_ORDER` (rule R41). -/
inductive ByteOrder where
  | little
  | big
  deriving DecidableEq, Repr

/-- `ALIGNMENT_RULE` (rule R42): an access off a multiple of its size has no step, works like any other, or traps;
`platform` is any other rule, a weaker one for instance. Decision D7 gives the default and no list of values: that
these are the values, that a rule sees the effective address, the size and the kind of an access and nothing else, and
that an alignment exception is one of the four of rule R176, is a DESIGN CHOICE (log entry 23). -/
inductive AlignmentRule where
  | naturalOnly
  | anyAddress
  | traps (x : Trap)
  | platform
  deriving DecidableEq, Repr

/-- What `ALIGNMENT_RULE` says of one access: it goes on, has no step, or traps (rule R42). -/
inductive AlignmentAnswer where
  | ok
  | refuse
  | trap (x : Trap)
  deriving DecidableEq, Repr, Inhabited

/-- What an access does at its address (rule R43). -/
inductive AccessKind where
  | read
  | write
  deriving DecidableEq, Repr

/-- The answer of `Translate` (rule R43). -/
inductive TransAnswer where
  | ok (physical : Nat)
  | pf
  | prot
  deriving DecidableEq, Repr, Inhabited

/-- A stretch of available virtual addresses, where it lies in physical memory, and who may do what there. It is
the model's own way of writing a `Translate` parameter down; the source gives no page format (rule R43). -/
structure AddrRange where
  base : Nat
  len : Nat
  phys : Nat
  superRead : Bool
  superWrite : Bool
  userRead : Bool
  userWrite : Bool
  deriving DecidableEq, Repr

/-- The parameter `Translate` (rule R43): `flat` is paging disabled; `ranges` is paging enabled, with the end of
the PTL mode's address range and the available stretches; `platform` is any other translation. -/
inductive Translation where
  | flat
  | ranges (ptlEnd : Nat) (available : List AddrRange)
  | platform
  deriving DecidableEq, Repr

/-- `IsSignalling` (rule R94): the default convention, or any other that keeps the two canonical NaNs quiet. -/
inductive SignalRule where
  | quietBitClear
  | platform
  deriving DecidableEq, Repr

/-- `PARITY_RULE` (rule R96). -/
inductive ParityRule where
  | oddOnes
  | platform
  deriving DecidableEq, Repr

/-- `RANGE_CHECK` (rules R90, R91): overflow and underflow judged on the unrounded or on the rounded magnitude. -/
inductive RangeCheck where
  | exactValue
  | roundedValue
  deriving DecidableEq, Repr

/-- `FREM_KIND` (rule R140). -/
inductive FremKind where
  | truncating
  | nearestEven
  deriving DecidableEq, Repr

/-- `DIVZERO_EXC` (rule R126). -/
inductive DivZeroExc where
  | divByZero
  | invalid
  deriving DecidableEq, Repr

/-- The four flags a comparison writes (rule R155). -/
structure CmpFlags where
  n : Bool
  z : Bool
  c : Bool
  p : Bool
  deriving DecidableEq, Repr

/-- `FCMP_FLAG_MAP` (rule R155): the flags of each of the four outcomes. -/
structure FcmpFlagMap where
  less : CmpFlags
  equal : CmpFlags
  greater : CmpFlags
  unordered : CmpFlags
  deriving DecidableEq, Repr

/-- Where the named bits stand in the word that register 17 (`flags`) reads as. Only `FPEN` has a position in the
source, bit 17 (rules R23, R25). -/
structure FlagPositions where
  c : Nat
  z : Nat
  v : Nat
  n : Nat
  p : Nat
  xm : Nat
  deriving DecidableEq, Repr

/-- A binary floating-point format by the widths of its exponent and fraction (rule R86). -/
structure Format where
  expBits : Nat
  fracBits : Nat
  deriving DecidableEq, Repr

/-- One value of `INTERMEDIATE_FORMAT(maxOperandSize, XOPSS)` (rule R122): the format computed in when the largest
operand has format `operand` and `XOPSS` names `bound`. -/
structure IntermediateChoice where
  operand : Format
  bound : Format
  chosen : Format
  deriving DecidableEq, Repr

/-- The implementation parameters of rule R5, and the base ISA's register map as far as the extension needs it. -/
structure Impl where
  byteOrder : ByteOrder
  alignment : AlignmentRule
  /-- The physical address space has `2 ^ addrWidth` bytes (rule R40). -/
  addrWidth : Nat
  translation : Translation
  /-- The physical addresses that hold program text, which a store may not touch (rule R48). -/
  textBase : Nat
  textLen : Nat
  signalling : SignalRule
  parity : ParityRule
  rangeCheck : RangeCheck
  intermediate : List IntermediateChoice
  divZero : DivZeroExc
  arithSnanSignal : Bool
  fremKind : FremKind
  fcmpMap : FcmpFlagMap
  trapWritesResult : Bool
  /-- `IP_REG` (rule R62). -/
  ipReg : Nat
  /-- `IsSupervisorReg` as the list of numbers it holds of (rule R62). -/
  supervisorRegs : List Nat
  /-- `IsReservedReg` as the list of numbers it holds of, beside 19 and 24 to 31 (rule R62). -/
  reservedRegs : List Nat
  flagPos : FlagPositions
  /-- `cpuex2.DFP`, named once and with no observable effect (rules R5, R24, R81). -/
  dfp : Bool
  deriving DecidableEq, Repr

/-- The default of `FCMP_FLAG_MAP`, the spec's own choice (rule R155, decision D31). -/
def Impl.defaultFcmpMap : FcmpFlagMap where
  less := ⟨true, false, true, false⟩
  equal := ⟨false, true, false, false⟩
  greater := ⟨false, false, false, false⟩
  unordered := ⟨false, true, true, true⟩

/-- The defaults of rule R5 and `92_eei_decisions.md`. DESIGN CHOICE: where no default is given the values are the
model's: `IP_REG` (log entry 6), the flag positions (log entry 7), the address width (log entry 9), `Translate`, which
is paging disabled, since the source gives no paging state at startup (log entry 9), and the range of the program text,
which is empty (log entry 24). -/
def Impl.default : Impl where
  byteOrder := .little
  alignment := .naturalOnly
  addrWidth := 64
  translation := .flat
  textBase := 0
  textLen := 0
  signalling := .quietBitClear
  parity := .oddOnes
  rangeCheck := .exactValue
  intermediate := []
  divZero := .divByZero
  arithSnanSignal := true
  fremKind := .truncating
  fcmpMap := Impl.defaultFcmpMap
  trapWritesResult := false
  ipReg := 16
  supervisorRegs := []
  reservedRegs := []
  flagPos := ⟨0, 1, 2, 3, 4, 16⟩
  dfp := false

/-! Free values: constants with no body, so that nothing about them can be proved. -/

/-- The platform's own `ALIGNMENT_RULE`, of an effective address, a size and a kind (rule R42). -/
opaque Config.alignment : Nat → Nat → AccessKind → AlignmentAnswer

/-- The platform's `Translate(addr, n, kind, mode)` (rule R43). DESIGN CHOICE: `mode`, which the rule does not explain,
is the privilege mode `flags.XM` alone, and the paging state and the PTL mode are part of the parameter (log entry 9). -/
opaque Config.translate : Nat → Nat → AccessKind → Bool → TransAnswer

/-- The platform's `IsSignalling`, before the constraints of rule R94 are laid on it. -/
opaque Config.isSignalling : Format → Word → Bool

/-- The platform's `Parity` of a pattern of the given width in bits (rule R96). -/
opaque Config.parity : Nat → Word → Bool

/-- The fraction field of the NaN that a free draw delivers (rule R93, `NanChoice`). -/
opaque Config.nanFraction : Nat → Nat

/-- The sign of a NaN whose sign is unspecified (rules R93, R108, R125). -/
opaque Config.nanSign : Nat → Bool

/-- What register `IP_REG` reads as while the instruction of the given index executes (rule R26: not in source). -/
opaque Config.ipValue : Nat → Word

/-- The condition flags a base instruction leaves, by its mnemonic, the sizes of its operands in bytes, the bits it
read and the flags before it: "whatever the base instruction writes for an integer operand of the same bits"
(rule R71: not in source). -/
opaque Config.baseFlags : BaseMnemonic → List Nat → List Word → CondFlags → CondFlags

/-- The bits above a value that a base instruction carries from an operand of the first size in bytes to a wider one
of the second (rule R71: not in source). -/
opaque Config.baseExtension : Nat → Nat → Word → Word

/-- `UND_CODE` (rule R176). -/
opaque Config.undCode : Nat

/-- `PROT_CODE` (rule R176). -/
opaque Config.protCode : Nat

/-- `PF_CODE` (rule R176). -/
opaque Config.pfCode : Nat

end Sys2Proof
end

