-- ==== Sys2Proof/Syntax.lean ====
section
/-! DEFINITION. The instructions of the extension as syntax: one constructor of `Instr` for each row of
`spec/opcode_table.json` (rule R52), the operands of rule R58, and the entries of a program.

The operand encoding of the base ISA is in no source (rules R51, R58, R64): an instruction in the program is its
first 16-bit word, whose layout rule R51 gives, beside its operands as abstract data with their effective addresses
already computed. -/

namespace Sys2Proof

/-- The size of an operand, `2 ^ ss` bytes (rule R59). -/
inductive OpSize where
  | b1
  | b2
  | b4
  | b8
  deriving DecidableEq, Repr

/-- An operand (rule R58). -/
inductive Operand where
  /-- A direct register operand: register number `n` accessed at `size` bytes. -/
  | reg (n : Nat) (size : OpSize)
  /-- A memory reference: `size` bytes at the effective address `ea`, which is virtual while paging is enabled. That an
  effective address has 64 bits is a DESIGN CHOICE (log entry 9): rule R40 leaves the width open, and `Impl.addrWidth`
  speaks of physical addresses. -/
  | mem (ea : Word) (size : OpSize)
  /-- An immediate; the source names only the long immediate. -/
  | imm (value : Word) (size : OpSize) (long : Bool)
  deriving DecidableEq, Repr

/-- The 21 instructions of the extension (rule R52). `f` is the bit of `h` that keeps `flags` as they are
(rule R53); `ss` and `i` select a fixed-point format (rule R54). Operands stand in the source's order, the
destination first. -/
inductive Instr where
  | movsif (f : Bool) (d src : Operand)
  | movxf (ss : Fin 4) (i f : Bool) (d src : Operand)
  | movfsi (f : Bool) (d src : Operand)
  | movfx (ss : Fin 4) (i f : Bool) (d src : Operand)
  | cvtf (f : Bool) (d src : Operand)
  | round (f : Bool) (d : Operand)
  | ceil (f : Bool) (d : Operand)
  | floor (f : Bool) (d : Operand)
  | fabs (f : Bool) (d : Operand)
  | fneg (f : Bool) (d : Operand)
  | finv (f : Bool) (d : Operand)
  | fadd (f : Bool) (d src : Operand)
  | fsub (f : Bool) (d src : Operand)
  | fmul (f : Bool) (d src : Operand)
  | fdiv (f : Bool) (d src : Operand)
  | frem (f : Bool) (d src : Operand)
  | fma (f : Bool) (d src1 src2 : Operand)
  | fcmpz (a : Operand)
  | fcmp (a b : Operand)
  | fraiseexcept
  | ftriggerexcept
  deriving DecidableEq, Repr

/-- An operand as a program holds it, before the decoder has checked its size (rules R58, R59). -/
inductive RawOperand where
  | reg (n : Nat) (size : Nat)
  | mem (ea : Word) (size : Nat)
  | imm (value : Word) (size : Nat) (long : Bool)
  deriving DecidableEq, Repr

/-- An instruction as a program holds it: the first word, opcode in bits 15-4 and `h` in bits 3-0 (rule R51), and
the operands (rule R64). -/
structure Encoded where
  first : BitVec 16
  operands : List RawOperand
  deriving DecidableEq, Repr

/-- One instruction of the program text: a first word with operands, or one of the five base instructions of
rule R71, which have no opcode number in the source and so stand under their mnemonics. -/
inductive Entry where
  | word (e : Encoded)
  | base (m : BaseMnemonic) (operands : List Operand)
  deriving DecidableEq, Repr

/-- The operands of an instruction, first operand first (rule R50). -/
def Instr.operands : Instr → List Operand
  | .movsif _ d s => [d, s]
  | .movxf _ _ _ d s => [d, s]
  | .movfsi _ d s => [d, s]
  | .movfx _ _ _ d s => [d, s]
  | .cvtf _ d s => [d, s]
  | .round _ d => [d]
  | .ceil _ d => [d]
  | .floor _ d => [d]
  | .fabs _ d => [d]
  | .fneg _ d => [d]
  | .finv _ d => [d]
  | .fadd _ d s => [d, s]
  | .fsub _ d s => [d, s]
  | .fmul _ d s => [d, s]
  | .fdiv _ d s => [d, s]
  | .frem _ d s => [d, s]
  | .fma _ d s t => [d, s, t]
  | .fcmpz a => [a]
  | .fcmp a b => [a, b]
  | .fraiseexcept => []
  | .ftriggerexcept => []

end Sys2Proof
end

