-- ==== Sys2Proof/WellFormed.lean ====
section
/-! DEFINITION. Which instructions are well formed: every immediate operand is a long immediate of size 2, 4 or 8
(rule R58, decision D43). The other sizes and fields are ruled out by the types of `Syntax.lean`; an operand that
breaks an instruction's own constraint is well formed, because executing it has a meaning, the exception UND. -/

namespace Sys2Proof

/-- An immediate that the spec admits (rule R58). -/
def Operand.wellFormed : Operand → Bool
  | .reg _ _ => true
  | .mem _ _ => true
  | .imm _ size long => long && size != .b1

/-- An instruction all of whose operands are admitted. -/
def Instr.wellFormed (i : Instr) : Bool :=
  i.operands.all Operand.wellFormed

end Sys2Proof
end

