-- ==== Sys2Proof/Decode.lean ====
section
/-! DEFINITION. The decoder and the encoder, written from the opcode map (rule R52), the word layout (rule R51) and
the three layouts of `h` (rules R53, R54, R55 and R56). Decoding is total: what is no instruction of the extension,
or a form the spec refuses, is rejected by name. -/

namespace Sys2Proof

/-- The opcodes of rule R52, without their operands. -/
inductive Opcode where
  | movsif
  | movxf
  | movfsi
  | movfx
  | cvtf
  | round
  | ceil
  | floor
  | fabs
  | fneg
  | finv
  | fadd
  | fsub
  | fmul
  | fdiv
  | frem
  | fma
  | fcmpz
  | fcmp
  | fraiseexcept
  | ftriggerexcept
  deriving DecidableEq, Repr

/-- The layouts of the four control bits: `[00 0f]` (rule R53), `[ss i f]` (rule R54), all zero (rules R55, R56). -/
inductive HLayout where
  | h00f
  | hssif
  | h0
  deriving DecidableEq, Repr

/-- One row of the opcode map (rule R52). -/
structure OpcodeRow where
  number : Nat
  opcode : Opcode
  layout : HLayout
  arity : Nat
  deriving DecidableEq, Repr

/-- Why an entry of the program is no instruction the decoder can deliver. -/
inductive DecodeError where
  /-- An opcode outside rule R52 and outside the seven of rule R70 (rule R57 b). -/
  | outsideExtension (number : Nat)
  /-- One of 0x10c to 0x10f (rule R57 a). -/
  | undefinedOpcode (number : Nat)
  /-- A base opcode 0x001 to 0x007 (rule R70). -/
  | baseOpcode (number : Nat)
  /-- A reserved bit of `h` is set (rules R53, R55, R56). -/
  | reservedH
  /-- An operand size other than 1, 2, 4 or 8 (rule R59). -/
  | operandSize
  /-- An immediate that is not a long immediate of size 2, 4 or 8 (rule R58). -/
  | immediateForm
  /-- Not the operand count of rule R52. -/
  | operandCount
  deriving DecidableEq, Repr

/-- The opcode map (rule R52). -/
def opcodeTable : List OpcodeRow :=
  [⟨0x022, .movsif, .h00f, 2⟩,
   ⟨0x023, .movxf, .hssif, 2⟩,
   ⟨0x024, .movfsi, .h00f, 2⟩,
   ⟨0x025, .movfx, .hssif, 2⟩,
   ⟨0x026, .cvtf, .h00f, 2⟩,
   ⟨0x100, .round, .h00f, 1⟩,
   ⟨0x101, .ceil, .h00f, 1⟩,
   ⟨0x102, .floor, .h00f, 1⟩,
   ⟨0x103, .fabs, .h00f, 1⟩,
   ⟨0x104, .fneg, .h00f, 1⟩,
   ⟨0x105, .finv, .h00f, 1⟩,
   ⟨0x106, .fadd, .h00f, 2⟩,
   ⟨0x107, .fsub, .h00f, 2⟩,
   ⟨0x108, .fmul, .h00f, 2⟩,
   ⟨0x109, .fdiv, .h00f, 2⟩,
   ⟨0x10a, .frem, .h00f, 2⟩,
   ⟨0x10b, .fma, .h00f, 3⟩,
   ⟨0x118, .fcmpz, .h0, 1⟩,
   ⟨0x119, .fcmp, .h0, 2⟩,
   ⟨0x130, .fraiseexcept, .h0, 0⟩,
   ⟨0x131, .ftriggerexcept, .h0, 0⟩]

/-- The opcode field of a first word: bits 15-4 (rule R51). -/
def opcodeField (first : BitVec 16) : Nat := first.toNat / 16

/-- The control bits `h` of a first word: bits 3-0 (rule R51). -/
def hField (first : BitVec 16) : Nat := first.toNat % 16

/-- The row of an opcode number. -/
def opcodeRow (number : Nat) : Option OpcodeRow :=
  opcodeTable.find? (fun r => r.number == number)

/-- The values of `h` a layout admits: the reserved bits are zero (rules R53 to R56). -/
def HLayout.admits : HLayout → Nat → Bool
  | .h00f, h => decide (h / 2 = 0)
  | .hssif, _ => true
  | .h0, h => decide (h = 0)

/-- Bit 0 of `h` (rules R53, R54). -/
def hF (h : Nat) : Bool := decide (h % 2 = 1)

/-- Bit 1 of `h` (rule R54). -/
def hI (h : Nat) : Bool := decide (h / 2 % 2 = 1)

/-- Bits 3-2 of `h` (rule R54). -/
def hSs (h : Nat) : Fin 4 := ⟨h / 4 % 4, Nat.mod_lt _ (by decide)⟩

/-- A size in bytes as one of the four operand sizes (rule R59). -/
def OpSize.ofBytes : Nat → Option OpSize
  | 1 => some .b1
  | 2 => some .b2
  | 4 => some .b4
  | 8 => some .b8
  | _ => none

/-- The size in bytes (rule R59). -/
def OpSize.bytes : OpSize → Nat
  | .b1 => 1
  | .b2 => 2
  | .b4 => 4
  | .b8 => 8

/-- An operand with its size checked (rule R59). -/
def RawOperand.decode : RawOperand → Except DecodeError Operand
  | .reg n size =>
    match OpSize.ofBytes size with
    | some z => .ok (.reg n z)
    | none => .error .operandSize
  | .mem ea size =>
    match OpSize.ofBytes size with
    | some z => .ok (.mem ea z)
    | none => .error .operandSize
  | .imm value size long =>
    match OpSize.ofBytes size with
    | some z => .ok (.imm value z long)
    | none => .error .operandSize

/-- The operand list with every size checked, the first operand's error first. -/
def decodeOperands : List RawOperand → Except DecodeError (List Operand)
  | [] => .ok []
  | r :: rs =>
    match r.decode with
    | .error e => .error e
    | .ok o =>
      match decodeOperands rs with
      | .error e => .error e
      | .ok os => .ok (o :: os)

/-- The instruction of an opcode, its control bits and its operands; none when the operand count is not the
opcode's (rule R52). -/
def assemble (op : Opcode) (h : Nat) (operands : List Operand) : Option Instr :=
  match op, operands with
  | .movsif, [d, s] => some (.movsif (hF h) d s)
  | .movxf, [d, s] => some (.movxf (hSs h) (hI h) (hF h) d s)
  | .movfsi, [d, s] => some (.movfsi (hF h) d s)
  | .movfx, [d, s] => some (.movfx (hSs h) (hI h) (hF h) d s)
  | .cvtf, [d, s] => some (.cvtf (hF h) d s)
  | .round, [d] => some (.round (hF h) d)
  | .ceil, [d] => some (.ceil (hF h) d)
  | .floor, [d] => some (.floor (hF h) d)
  | .fabs, [d] => some (.fabs (hF h) d)
  | .fneg, [d] => some (.fneg (hF h) d)
  | .finv, [d] => some (.finv (hF h) d)
  | .fadd, [d, s] => some (.fadd (hF h) d s)
  | .fsub, [d, s] => some (.fsub (hF h) d s)
  | .fmul, [d, s] => some (.fmul (hF h) d s)
  | .fdiv, [d, s] => some (.fdiv (hF h) d s)
  | .frem, [d, s] => some (.frem (hF h) d s)
  | .fma, [d, s, t] => some (.fma (hF h) d s t)
  | .fcmpz, [a] => some (.fcmpz a)
  | .fcmp, [a, b] => some (.fcmp a b)
  | .fraiseexcept, [] => some .fraiseexcept
  | .ftriggerexcept, [] => some .ftriggerexcept
  | _, _ => none

/-- A raw operand that names a floating-point register, numbers 24 to 31 (rules R10, R62). -/
def RawOperand.isFpReg : RawOperand → Bool
  | .reg n _ => decide (24 ≤ n ∧ n ≤ 31)
  | .mem _ _ => false
  | .imm _ _ _ => false

/-- What an opcode number outside rule R52 is (rules R57, R70). -/
def otherOpcode (number : Nat) : DecodeError :=
  if 1 ≤ number ∧ number ≤ 7 then .baseOpcode number
  else if 0x10c ≤ number ∧ number ≤ 0x10f then .undefinedOpcode number
  else .outsideExtension number

/-- The decoder. -/
def decode (e : Encoded) : Except DecodeError Instr :=
  match opcodeRow (opcodeField e.first) with
  | none => .error (otherOpcode (opcodeField e.first))
  | some row =>
    if row.layout.admits (hField e.first) then
      match decodeOperands e.operands with
      | .error x => .error x
      | .ok operands =>
        match assemble row.opcode (hField e.first) operands with
        | none => .error .operandCount
        | some i => if i.wellFormed then .ok i else .error .immediateForm
    else .error .reservedH

/-! The encoder. -/

/-- The opcode number of an instruction (rule R52). -/
def Instr.number : Instr → Nat
  | .movsif _ _ _ => 0x022
  | .movxf _ _ _ _ _ => 0x023
  | .movfsi _ _ _ => 0x024
  | .movfx _ _ _ _ _ => 0x025
  | .cvtf _ _ _ => 0x026
  | .round _ _ => 0x100
  | .ceil _ _ => 0x101
  | .floor _ _ => 0x102
  | .fabs _ _ => 0x103
  | .fneg _ _ => 0x104
  | .finv _ _ => 0x105
  | .fadd _ _ _ => 0x106
  | .fsub _ _ _ => 0x107
  | .fmul _ _ _ => 0x108
  | .fdiv _ _ _ => 0x109
  | .frem _ _ _ => 0x10a
  | .fma _ _ _ _ => 0x10b
  | .fcmpz _ => 0x118
  | .fcmp _ _ => 0x119
  | .fraiseexcept => 0x130
  | .ftriggerexcept => 0x131

/-- `h = [00 0f]` (rule R53). -/
def packF (f : Bool) : Nat := f.toNat

/-- `h = [ss i f]` (rule R54). -/
def packSsIF (ss : Fin 4) (i f : Bool) : Nat := ss.val * 4 + i.toNat * 2 + f.toNat

/-- The control bits of an instruction (rules R53 to R56). -/
def Instr.h : Instr → Nat
  | .movsif f _ _ => packF f
  | .movxf ss i f _ _ => packSsIF ss i f
  | .movfsi f _ _ => packF f
  | .movfx ss i f _ _ => packSsIF ss i f
  | .cvtf f _ _ => packF f
  | .round f _ => packF f
  | .ceil f _ => packF f
  | .floor f _ => packF f
  | .fabs f _ => packF f
  | .fneg f _ => packF f
  | .finv f _ => packF f
  | .fadd f _ _ => packF f
  | .fsub f _ _ => packF f
  | .fmul f _ _ => packF f
  | .fdiv f _ _ => packF f
  | .frem f _ _ => packF f
  | .fma f _ _ _ => packF f
  | .fcmpz _ => 0
  | .fcmp _ _ => 0
  | .fraiseexcept => 0
  | .ftriggerexcept => 0

/-- An operand as the program holds it (rule R58). -/
def Operand.encode : Operand → RawOperand
  | .reg n size => .reg n size.bytes
  | .mem ea size => .mem ea size.bytes
  | .imm value size long => .imm value size.bytes long

/-- The encoder: the first word is `opcode * 16 + h` (rule R51). -/
def encode (i : Instr) : Encoded where
  first := BitVec.ofNat 16 (i.number * 16 + i.h)
  operands := i.operands.map Operand.encode

/-! The opcode table's numbering. -/

/-- What an operand of zeros is: register number 0, `ss = 0`, which is size 1 (rules R58, R59). -/
def zeroOperand : RawOperand := .reg 0 1

/-- The instruction whose table bits are `w` and all of whose operands are zeros: as many of them as the opcode has
(rule R52). -/
def tableEntry (nbits w : Nat) : Encoded :=
  let first := BitVec.ofNat 16 (w % 2 ^ nbits)
  match opcodeRow (opcodeField first) with
  | some row => ⟨first, List.replicate row.arity zeroOperand⟩
  | none => ⟨first, []⟩

/-- The instruction the decoder reads from a row's bits, numbered as `spec/opcode_table.json` numbers them: one
16-bit word (rule R51). -/
def decodeTableWord (nbits w : Nat) : Option Instr :=
  match decode (tableEntry nbits w) with
  | .ok i => some i
  | .error _ => none

end Sys2Proof
end

