-- ==== Sys2Proof/Machine/Numerics.lean ====
section
/-! DEFINITION. The number formats, exact values, the one rounding function and the NaN rules
(`41_fp_common_numerics.md`). Exact magnitudes are rationals; a pattern of `w` bits is the low `w` bits of a
`Word`. A sign is `true` when negative. -/

namespace Sys2Proof

/-! Formats (rule R86). -/

/-- binary16. -/
def binary16 : Format := ⟨5, 10⟩

/-- binary32. -/
def binary32 : Format := ⟨8, 23⟩

/-- binary64. -/
def binary64 : Format := ⟨11, 52⟩

/-- `fmt(size)`. A floating-point operand of size 1 is refused before its format is asked for (rule R59); the
first line only makes the function total. -/
def formatOf : OpSize → Format
  | .b1 => binary16
  | .b2 => binary16
  | .b4 => binary32
  | .b8 => binary64

/-- The width `w` of a pattern. -/
def Format.width (F : Format) : Nat := 1 + F.expBits + F.fracBits

/-- `bias`, which is `emax`. -/
def Format.bias (F : Format) : Nat := 2 ^ (F.expBits - 1) - 1

/-- `emin`. -/
def Format.emin (F : Format) : Int := 1 - (F.bias : Int)

/-- `2 ^ k` as a rational, for any integer `k`. -/
def pow2 (k : Int) : Rat :=
  if 0 ≤ k then ((2 ^ k.toNat : Nat) : Rat) else 1 / ((2 ^ (-k).toNat : Nat) : Rat)

/-- `MAX(F)`, the largest finite magnitude. -/
def maxFinite (F : Format) : Rat := (2 - pow2 (-(F.fracBits : Int))) * pow2 F.bias

/-- `MINNORM(F)`, the least normal magnitude. -/
def minNorm (F : Format) : Rat := pow2 F.emin

/-- `MINSUB(F)`, the least denormal magnitude. -/
def minSub (F : Format) : Rat := pow2 (F.emin - F.fracBits)

/-! Decoding and encoding (rules R87, R88). -/

/-- A floating-point value: the classes of rule R87. -/
inductive FpVal where
  | inf (s : Bool)
  | nan (s : Bool) (t : Nat)
  | fin (s : Bool) (m : Rat)
  deriving DecidableEq, Repr

/-- The sign bit of a pattern. -/
def signField (F : Format) (b : Word) : Bool := b.getLsbD (F.width - 1)

/-- The exponent field of a pattern. -/
def expField (F : Format) (b : Word) : Nat := b.toNat / 2 ^ F.fracBits % 2 ^ F.expBits

/-- The fraction field of a pattern. -/
def fracField (F : Format) (b : Word) : Nat := b.toNat % 2 ^ F.fracBits

/-- `Decode(F, bits)` (rule R87). -/
def decodeFp (F : Format) (b : Word) : FpVal :=
  let s := signField F b
  let e := expField F b
  let t := fracField F b
  if e = 2 ^ F.expBits - 1 then
    if t = 0 then .inf s else .nan s t
  else if e = 0 then .fin s ((t : Rat) * pow2 (F.emin - F.fracBits))
  else .fin s ((1 + (t : Rat) * pow2 (-(F.fracBits : Int))) * pow2 ((e : Int) - F.bias))

/-- A pattern from its three fields. -/
def packFp (F : Format) (s : Bool) (e t : Nat) : Word :=
  BitVec.ofNat 64 (s.toNat * 2 ^ (F.width - 1) + e * 2 ^ F.fracBits + t)

/-- `Zero(F, s)` (rule R88). -/
def encZero (F : Format) (s : Bool) : Word := packFp F s 0 0

/-- `Inf(F, s)` (rule R88). -/
def encInf (F : Format) (s : Bool) : Word := packFp F s (2 ^ F.expBits - 1) 0

/-- A NaN of the given fraction. -/
def encNaN (F : Format) (s : Bool) (t : Nat) : Word := packFp F s (2 ^ F.expBits - 1) t

/-- The canonical quiet NaN `QNaN(F, s)`: only the most significant fraction bit set (rule R93). -/
def qNaN (F : Format) (s : Bool) : Word := encNaN F s (2 ^ (F.fracBits - 1))

/-- `floor(log2(m))` of a positive rational. -/
def floorLog2 (m : Rat) : Int :=
  let k : Int := (Nat.log2 m.num.toNat : Int) - (Nat.log2 m.den : Int)
  if pow2 k ≤ m then k else k - 1

/-- `Enc(F, s, m)` of a representable `m > 0` (rule R88). -/
def encFin (F : Format) (s : Bool) (m : Rat) : Word :=
  if m < minNorm F then packFp F s 0 (m / minSub F).floor.toNat
  else
    let e := floorLog2 m
    packFp F s (e + F.bias).toNat ((m / pow2 (e - F.fracBits)).floor.toNat - 2 ^ F.fracBits)

/-! Rounding (rules R16, R89, R90, R91). -/

/-- The five defined rounding modes (rule R16). -/
inductive RoundMode where
  | up
  | down
  | towardZero
  | halfUp
  | halfEven
  deriving DecidableEq, Repr

/-- The mode that a value of `fpcrw.RND` names; none for 5, 6 and 7 (rules R16, R21). -/
def RoundMode.ofRnd : Nat → Option RoundMode
  | 0 => some .up
  | 1 => some .down
  | 2 => some .towardZero
  | 3 => some .halfUp
  | 4 => some .halfEven
  | _ => none

/-- `RoundInt(q, s, mode)` (rule R89). -/
def roundInt (q : Rat) (s : Bool) (mode : RoundMode) : Nat :=
  let fl := q.floor.toNat
  let frac := q - (fl : Rat)
  if frac = 0 then fl
  else
    match mode with
    | .up => if s then fl else fl + 1
    | .down => if s then fl + 1 else fl
    | .towardZero => fl
    | .halfUp =>
      if 1 / 2 < frac then fl + 1
      else if frac < 1 / 2 then fl
      else if s then fl else fl + 1
    | .halfEven =>
      if 1 / 2 < frac then fl + 1
      else if frac < 1 / 2 then fl
      else if fl % 2 = 0 then fl else fl + 1

/-- The six floating-point exceptions (rule R18). -/
inductive FpExc where
  | invalid
  | divByZero
  | overflow
  | underflow
  | inexact
  | signal
  deriving DecidableEq, Repr

/-- The number of a floating-point exception (rule R18). -/
def FpExc.number : FpExc → Nat
  | .invalid => 0
  | .divByZero => 1
  | .overflow => 2
  | .underflow => 3
  | .inexact => 4
  | .signal => 5

/-- A magnitude rounded to a multiple of `ulp`. -/
def roundTo (ulp m : Rat) (s : Bool) (mode : RoundMode) : Rat := (roundInt (m / ulp) s mode : Rat) * ulp

/-- The spacing of the format's values at magnitude `m` (rule R90). -/
def ulpAt (F : Format) (m : Rat) : Rat :=
  if minNorm F ≤ m then pow2 (floorLog2 m - F.fracBits) else minSub F

/-- INEXACT exactly when the delivered magnitude is not the exact one (rule R90). -/
def inexactIf (r m : Rat) : List FpExc := if r = m then [] else [.inexact]

/-- The least magnitude that is not flushed to zero (`lo` of rule R90). -/
def leastKept (F : Format) (denorm : Bool) : Rat := if denorm then minSub F else minNorm F

/-- `RoundFP` with the range judged on the exact magnitude (rule R90). -/
def roundFpExact (s : Bool) (m : Rat) (F : Format) (mode : RoundMode) (denorm : Bool) : Word × List FpExc :=
  if m = 0 then (encZero F s, [])
  else if maxFinite F < m then (encInf F s, [.overflow, .inexact])
  else if m < leastKept F denorm then (encZero F s, [.underflow, .inexact])
  else
    let r := roundTo (ulpAt F m) m s mode
    (encFin F s r, inexactIf r m)

/-- `RoundFP` with the range judged on the rounded magnitude, the other reading of rule R91: the exact magnitude is
rounded to the format's precision first, and overflows or is flushed when the rounded one is out of range. -/
def roundFpRounded (s : Bool) (m : Rat) (F : Format) (mode : RoundMode) (denorm : Bool) : Word × List FpExc :=
  if m = 0 then (encZero F s, [])
  else
    let r := roundTo (pow2 (floorLog2 m - F.fracBits)) m s mode
    if maxFinite F < r then (encInf F s, [.overflow, .inexact])
    else if denorm then
      let d := roundTo (ulpAt F m) m s mode
      if d = 0 then (encZero F s, [.underflow, .inexact]) else (encFin F s d, inexactIf d m)
    else if r < minNorm F then (encZero F s, [.underflow, .inexact])
    else (encFin F s r, inexactIf r m)

/-- `RoundFP(s, m, F, rnd, denorm)` (rule R90), by `RANGE_CHECK`. -/
def roundFp (rc : RangeCheck) (s : Bool) (m : Rat) (F : Format) (mode : RoundMode) (denorm : Bool) :
    Word × List FpExc :=
  match rc with
  | .exactValue => roundFpExact s m F mode denorm
  | .roundedValue => roundFpRounded s m F mode denorm

/-- `Deliver(s, m, Fd, I)` (rule R122): one rounding when the intermediate format is the destination's, else one
into the intermediate format and one into the destination's. -/
def deliver (rc : RangeCheck) (s : Bool) (m : Rat) (Fd I : Format) (mode : RoundMode) (denorm : Bool) :
    Word × List FpExc :=
  if I = Fd then roundFp rc s m Fd mode denorm
  else
    let first := roundFp rc s m I mode true
    match decodeFp I first.1 with
    | .fin _ m1 =>
      if m1 = 0 then (encZero Fd s, [.underflow, .inexact])
      else
        let second := roundFp rc s m1 Fd mode denorm
        (second.1, second.2 ++ (first.2.filter (fun x => x == .inexact && !second.2.contains .inexact)))
    | .inf _ => (encInf Fd s, [.overflow, .inexact])
    | .nan _ _ => (encInf Fd s, [.overflow, .inexact])

/-! NaNs (rules R93, R94). -/

/-- A pattern is a NaN. -/
def FpVal.isNaN : FpVal → Bool
  | .nan _ _ => true
  | .inf _ => false
  | .fin _ _ => false

/-- A value is a NaN with its sign bit set. -/
def FpVal.isNegNaN : FpVal → Bool
  | .nan s _ => s
  | .inf _ => false
  | .fin _ _ => false

/-- `IsSignalling(F, bits)` (rule R94): false of what is no NaN and of the two canonical NaNs, whatever the rule. -/
def isSignalling (rule : SignalRule) (F : Format) (b : Word) : Bool :=
  match decodeFp F b with
  | .nan _ t =>
    if t = 2 ^ (F.fracBits - 1) then false
    else
      match rule with
      | .quietBitClear => decide (t < 2 ^ (F.fracBits - 1))
      | .platform => Config.isSignalling F b
  | .inf _ => false
  | .fin _ _ => false

/-- A NaN of free payload: every nonzero fraction is possible (rule R108, `cvtf`). -/
def drawNaN (F : Format) (s : Bool) (draw : Nat) : Word :=
  let t := Config.nanFraction draw % 2 ^ F.fracBits
  if t = 0 then qNaN F s else encNaN F s t

/-- A quiet NaN of free payload: every fraction that is not signalling is possible (rule R93). -/
def drawQuietNaN (rule : SignalRule) (F : Format) (s : Bool) (draw : Nat) : Word :=
  let b := drawNaN F s draw
  if isSignalling rule F b then qNaN F s else b

/-- `NaNResult(operands, F)` (rule R93): quiet, negative when any NaN operand is negative. -/
def nanResult (rule : SignalRule) (F : Format) (vals : List FpVal) (draw : Nat) : Word :=
  drawQuietNaN rule F (vals.any FpVal.isNegNaN) draw

/-! Integers and fixed point (rules R102, R109). -/

/-- `W`, the width of an operand in bits. -/
def OpSize.bits (z : OpSize) : Nat := 8 * z.bytes

/-- The low `W` bits, zero-extended (rules R14, R60, R61). -/
def OpSize.truncate (z : OpSize) (w : Word) : Word := BitVec.ofNat 64 (w.toNat % 2 ^ z.bits)

/-- `sint_W` (rules R7, R109). -/
def OpSize.sint (z : OpSize) (w : Word) : Int :=
  let u := w.toNat % 2 ^ z.bits
  if u < 2 ^ (z.bits - 1) then (u : Int) else (u : Int) - 2 ^ z.bits

/-- `IMIN` of a width (rule R106). -/
def OpSize.minInt (z : OpSize) : Int := -(2 ^ (z.bits - 1) : Int)

/-- `IMAX` of a width (rule R106). -/
def OpSize.maxInt (z : OpSize) : Int := 2 ^ (z.bits - 1) - 1

/-- `r mod 2^W`: the stored pattern of an integer (rules R106, R107). -/
def OpSize.ofInt (z : OpSize) (r : Int) : Word := BitVec.ofNat 64 (r % (2 ^ z.bits : Int)).toNat

/-- `FixFormat(W, ss, i)`: the number of fraction bits (rule R102). -/
def fracBitsOf (z : OpSize) (ss : Fin 4) (i : Bool) : Nat :=
  let n := z.bits / 2 ^ (3 - ss.val)
  if i then z.bits - n else n

/-- `FixValue(bits, W, FracBits)` (rule R102). -/
def fixValue (z : OpSize) (fb : Nat) (w : Word) : Rat := (z.sint w : Rat) * pow2 (-(fb : Int))

/-- The rational `v` as a sign and a magnitude. -/
def signOf (v : Rat) : Bool := decide (v < 0)

/-- The magnitude of `v`. -/
def magOf (v : Rat) : Rat := if v < 0 then -v else v

/-- The value `(-1)^s * m` (rule R87). -/
def signed (s : Bool) (m : Rat) : Rat := if s then -m else m

end Sys2Proof
end

