-- ==== Sys2Proof/Machine/State.lean ====
section
/-! DEFINITION. The machine's state as plain data, the reasons a step can stop, and the state after startup.

The fields are the registers of rules R10 to R30, the program text and position of rules R26, R48 and R64, the
outcome of rule R180, and two fields of the model's own: `impl`, the implementation parameters of rule R5, and
`draws`, the counter that the free values are drawn by. -/

namespace Sys2Proof.Machine

/-- A sparse array: an unlisted index holds zero. Its canonical form (strictly rising indices, no listed zero) is
`cellsWf` of `Ops.lean`. -/
abbrev Cells (w : Nat) := List (Nat × BitVec w)

/-- Memory: `Host.Cell`s in canonical form. DESIGN CHOICE: a byte that nothing has written reads as zero
(log entry 10). -/
abbrev Memory := List Host.Cell

/-- `flags`, register 17: its six named bits (rule R25), and the other bits of the word as they were last written, a
DESIGN CHOICE (log entry 50). `flags.FPEN` (bit 17) is no state of its own (rule R23). -/
structure Flags where
  c : Bool
  z : Bool
  v : Bool
  n : Bool
  p : Bool
  xm : Bool
  rest : Word
  deriving DecidableEq, Repr

/-- The state of the machine. -/
structure State where
  /-- The general registers by number (rule R27). -/
  gpr : Cells 64
  /-- `f0` to `f7`, registers 24 to 31 (rules R10, R11). -/
  f : Vector Word 8
  /-- The floating-point control word, register 19 (rule R15). -/
  fpcrw : Word
  /-- Register 17 (rules R23, R25). -/
  flags : Flags
  /-- `cr0`: bit 6 `FPEN`, bit 7 `FPEXCPT` (rule R22). -/
  cr0 : Word
  /-- `cpuex2`: bit 9 `FP` (rule R24). -/
  cpuex2 : Word
  /-- The instruction pointer, as the index of an entry of the program (rule R26). -/
  ip : Nat
  /-- Data memory, by physical address (rule R40). -/
  mem : Memory
  /-- The program text, apart from data memory (rules R48, R64). -/
  program : List Entry
  /-- The machine exception that ended the run, if one did (rule R180). -/
  trapped : Option Trap
  /-- The model's own: how many instructions have completed, which numbers the free values. -/
  draws : Nat
  /-- The model's own: the implementation's parameters (rule R5). -/
  impl : Impl
  deriving DecidableEq, Repr

/-- Why a step has no next state because the run is over. Both are safe: the spec ends the run there. -/
inductive Fault where
  /-- Raised by `step` when the program list is exhausted (rule R205, `Done`). Safe. -/
  | done
  /-- Raised by `step` in a state whose run an exception has ended (rules R180, R205, `Trapped`). Safe. -/
  | runEnded (x : Trap)
  deriving DecidableEq, Repr

/-- Why an instruction has no meaning. All are safe: nothing can be proved of what the hardware does there. -/
inductive Refusal where
  /-- Raised by an arm of `exec` that has no meaning yet. Safe. -/
  | notModelled (mnemonic : String)
  /-- Raised by the fetch on an opcode outside the extension (rule R57 b). Safe. -/
  | outsideExtension (number : Nat)
  /-- Raised by the fetch on a base opcode 0x001 to 0x007 without a floating-point or reserved register, and by a base
  instruction whose destination is an immediate or `ip`: what they do is in no source (rules R70 to R73). Safe. -/
  | baseSemantics
  /-- Raised by the fetch on a nonzero reserved bit of `h` (rules R53, R55, R56, U4). Safe. -/
  | reservedH
  /-- Raised by the fetch on an operand size other than 1, 2, 4, 8 (rule R59, U16). Safe. -/
  | operandSize
  /-- Raised by the fetch and the common checks on an immediate that rule R58 does not admit (U16). Safe. -/
  | immediateForm
  /-- Raised by the fetch on an operand count that is not the opcode's (rule R52). Safe. -/
  | operandCount
  /-- Raised by an instruction that rounds while `fpcrw.RND` is 5, 6 or 7 (rules R21, R89, U3). Safe. -/
  | reservedRounding
  /-- Raised by an access at an address that is no multiple of its size, under the default `ALIGNMENT_RULE`
  (rule R42, U14), or by one to which the platform's own rule gives no step. Safe. -/
  | misaligned
  /-- Raised by a store into the program text (rule R48, U22). Safe. -/
  | storeIntoText
  /-- Raised by a converting move in a form that only the loose reading of its constraint admits (rule R101,
  decision D18, U13). Safe. -/
  | looseForm
  deriving DecidableEq, Repr

/-- `fpcrw` after startup (rule R28). -/
def startupFpcrw : Word := 0x0000000001FF0014

/-- The machine after startup (rules R28 to R30, R200). DESIGN CHOICE: `f0` to `f7`, the general registers, `flags`
and `ip` have no startup value in the source and hold zero here (log entries 11, 12, 13, 8); `cr0` is zero by
decision D42; of `cpuex2` only bit 9 is set (log entry 15). -/
def State.reset : State where
  gpr := []
  f := Vector.replicate 8 0
  fpcrw := startupFpcrw
  flags := ⟨false, false, false, false, false, false, 0⟩
  cr0 := 0
  cpuex2 := 0x200
  ip := 0
  mem := []
  program := []
  trapped := none
  draws := 0
  impl := Impl.default

end Sys2Proof.Machine
end

