-- ==== Sys2Proof/Machine/Ops.lean ====
section
/-! DEFINITION. The named operations over memory, registers, the control word and the exceptions: sparse arrays,
multi-byte access, translation, register access, the machine exception, recording floating-point exceptions, and
the harness's setters. -/

namespace Sys2Proof.Machine

/-- How a check or an access ends short of a value: a machine exception is raised, or the form has no meaning. -/
inductive Stop where
  | raise (x : Trap)
  | refuse (r : Refusal)
  deriving DecidableEq, Repr

/-! Sparse arrays. -/

/-- The value at an index; zero when it is not listed. -/
def cellGet {w : Nat} : Cells w → Nat → BitVec w
  | [], _ => 0
  | (k, v) :: rest, a => if k = a then v else cellGet rest a

/-- The cells without an index. -/
def cellErase {w : Nat} : Cells w → Nat → Cells w
  | [], _ => []
  | (k, v) :: rest, a => if k = a then cellErase rest a else (k, v) :: cellErase rest a

/-- The cells with an entry put in before the first higher index. -/
def cellInsert {w : Nat} : Cells w → Nat → BitVec w → Cells w
  | [], a, b => [(a, b)]
  | (k, v) :: rest, a, b => if a < k then (a, b) :: (k, v) :: rest else (k, v) :: cellInsert rest a b

/-- The cells after a write; writing zero removes the entry. -/
def cellSet {w : Nat} (m : Cells w) (a : Nat) (b : BitVec w) : Cells w :=
  if b = 0 then cellErase m a else cellInsert (cellErase m a) a b

/-- The canonical form: indices strictly rising, and no entry that an unlisted index reads as. -/
def cellsWf {w : Nat} (m : Cells w) : Bool :=
  decide (m.Pairwise (fun x y => x.1 < y.1)) && m.all (fun x => x.2 != 0)

/-- The canonical form of memory. -/
def Memory.wf (m : Memory) : Bool := cellsWf (w := 8) m

/-! Bytes (rule R41). -/

/-- The byte at a physical address. -/
def readByte (m : Memory) (a : Nat) : Byte := cellGet (w := 8) m a

/-- Memory with one byte written. -/
def writeByte (m : Memory) (a : Nat) (b : Byte) : Memory := cellSet (w := 8) m a b

/-- The `n` bytes from an address upward. -/
def readBytes (m : Memory) (a : Nat) : Nat → List Byte
  | 0 => []
  | n + 1 => readByte m a :: readBytes m (a + 1) n

/-- Memory with a list of bytes written from an address upward. -/
def writeBytes (m : Memory) (a : Nat) : List Byte → Memory
  | [] => m
  | b :: bs => writeBytes (writeByte m a b) (a + 1) bs

/-- The number that bytes spell, the first the least significant. -/
def bytesToNat : List Byte → Nat
  | [] => 0
  | b :: bs => b.toNat + 256 * bytesToNat bs

/-- The `n` low bytes of a number, the least significant first. -/
def natToBytes (v : Nat) : Nat → List Byte
  | 0 => []
  | n + 1 => BitVec.ofNat 8 v :: natToBytes (v / 256) n

/-- Bytes in memory order, given least significant first (`BYTE_ORDER`, rule R41). -/
def orderBytes : ByteOrder → List Byte → List Byte
  | .little, bs => bs
  | .big, bs => bs.reverse

/-- The `8n`-bit string held by the `n` bytes at a physical address (rule R41). -/
def loadBytes (o : ByteOrder) (m : Memory) (a n : Nat) : Word :=
  BitVec.ofNat 64 (bytesToNat (orderBytes o (readBytes m a n)))

/-- Memory with the low `8n` bits of a word stored at a physical address (rule R41). -/
def storeBytes (o : ByteOrder) (m : Memory) (a n : Nat) (v : Word) : Memory :=
  writeBytes m a (orderBytes o (natToBytes v.toNat n))

/-! Fields of the control words (rules R15 to R24). -/

/-- A word with one bit set or cleared. -/
def setBit (w : Word) (i : Nat) (b : Bool) : Word :=
  if b then w ||| (1#64 <<< i) else w &&& ~~~(1#64 <<< i)

/-- `fpcrw.RND` (rule R16). -/
def State.rnd (s : State) : Nat := s.fpcrw.toNat % 8

/-- `fpcrw.DENORM` (rule R17). -/
def State.denorm (s : State) : Bool := s.fpcrw.getLsbD 4

/-- `fpcrw.EMASKALL` (rule R19). -/
def State.emaskAll (s : State) : Bool := s.fpcrw.getLsbD 24

/-- `fpcrw.XOPSS` (rule R20). -/
def State.xopss (s : State) : Nat := s.fpcrw.toNat / 2 ^ 25 % 4

/-- The format that `XOPSS` names, of size `2 ^ (XOPSS + 1)` (rules R20, R122). The reserved value 3 raises UND
before this is asked. -/
def State.xopssFormat (s : State) : Format :=
  match s.xopss with
  | 0 => binary16
  | 1 => binary32
  | _ => binary64

/-- `cr0.FPEN`, bit 6 (rule R22). -/
def State.fpen (s : State) : Bool := s.cr0.getLsbD 6

/-- `cr0.FPEXCPT`, bit 7 (rule R22). -/
def State.fpexcpt (s : State) : Bool := s.cr0.getLsbD 7

/-- `cpuex2.FP`, bit 9 (rule R24). -/
def State.conforms (s : State) : Bool := s.cpuex2.getLsbD 9

/-! Registers (rules R10 to R14, R23, R26, R27). -/

/-- What a register number names. -/
inductive RegClass where
  | fpcrw
  | f (k : Fin 8)
  | flags
  | ip
  | general
  deriving DecidableEq, Repr

/-- The register map: 19 is `fpcrw`, 24 to 31 are `f0` to `f7` (rule R10), 17 is `flags` (rule R23), `IP_REG` is
`ip` (rule R62), and every other number is a general register (rule R27). -/
def regClass (impl : Impl) (n : Nat) : RegClass :=
  if n = 19 then .fpcrw
  else if h : 24 ≤ n ∧ n ≤ 31 then .f ⟨n - 24, by omega⟩
  else if n = 17 then .flags
  else if n = impl.ipReg then .ip
  else .general

/-- What register 17 reads as: the named bits at their positions, bit 17 equal to `cr0.FPEN` (rule R23). -/
def State.flagsWord (s : State) : Word :=
  let p := s.impl.flagPos
  let w := s.flags.rest
  let w := setBit w p.c s.flags.c
  let w := setBit w p.z s.flags.z
  let w := setBit w p.v s.flags.v
  let w := setBit w p.n s.flags.n
  let w := setBit w p.p s.flags.p
  let w := setBit w p.xm s.flags.xm
  setBit w 17 s.fpen

/-- `flags` after register 17 is written: bit 17 of the word has no effect on `flags.FPEN`, which is `cr0.FPEN`
(rule R23). `XM` takes its bit of the word in either mode: DESIGN CHOICE (log entry 49), since how `XM` changes is in no
source (rule R185). The bits that no name of rule R25 has keep what was written and read as that: DESIGN CHOICE (log
entry 50), since the full list of flags is in no source (note N4). -/
def flagsOfWord (p : FlagPositions) (w : Word) : Flags where
  c := w.getLsbD p.c
  z := w.getLsbD p.z
  v := w.getLsbD p.v
  n := w.getLsbD p.n
  p := w.getLsbD p.p
  xm := w.getLsbD p.xm
  rest := w

/-- `x[n]`: a register at full width. What `ip` reads as is free (rule R26). -/
def State.readReg (s : State) (n : Nat) : Word :=
  match regClass s.impl n with
  | .fpcrw => s.fpcrw
  | .f k => s.f[k.val]
  | .flags => s.flagsWord
  | .ip => Config.ipValue s.ip
  | .general => cellGet s.gpr n

/-- `x[n] <- v`. Every bit of `fpcrw` is stored as written (rule R21). `ip` is no operand any instruction of this
model writes (rules R73, R101). -/
def State.writeReg (s : State) (n : Nat) (v : Word) : State :=
  match regClass s.impl n with
  | .fpcrw => { s with fpcrw := v }
  | .f k => { s with f := s.f.set k.val v }
  | .flags => { s with flags := flagsOfWord s.impl.flagPos v }
  | .ip => s
  | .general => { s with gpr := cellSet s.gpr n v }

/-! Memory access (rules R40 to R45, R48). -/

/-- Whether a stretch permits an access in the mode `flags.XM` gives; that the mode of rule R43 is `flags.XM` is a
DESIGN CHOICE (log entry 9). -/
def permits (r : AddrRange) (kind : AccessKind) (xm : Bool) : Bool :=
  match kind, xm with
  | .read, false => r.superRead
  | .write, false => r.superWrite
  | .read, true => r.userRead
  | .write, true => r.userWrite

/-- The translation of an access before the physical address is checked (rule R43). With paging disabled the
address is physical. With paging enabled an access beyond the PTL mode's range is PROT, one outside every available
stretch or against its permissions is PF. -/
def translateRaw (impl : Impl) (ea n : Nat) (kind : AccessKind) (xm : Bool) : TransAnswer :=
  match impl.translation with
  | .flat => .ok ea
  | .ranges ptlEnd available =>
    if ptlEnd < ea + n then .prot
    else
      match available.find? (fun r => decide (r.base ≤ ea) && decide (ea + n ≤ r.base + r.len)) with
      | none => .pf
      | some r => if permits r kind xm then .ok (r.phys + (ea - r.base)) else .pf
  | .platform => Config.translate ea n kind xm

/-- `Translate(addr, n, kind, mode)` (rule R43): a physical address that is out of range is PF. -/
def translate (impl : Impl) (ea n : Nat) (kind : AccessKind) (xm : Bool) : TransAnswer :=
  match translateRaw impl ea n kind xm with
  | .ok pa => if pa + n ≤ 2 ^ impl.addrWidth then .ok pa else .pf
  | .pf => .pf
  | .prot => .prot

/-- What an alignment rule says of an access of `n` bytes (rule R42, decision D7; log entry 23). -/
def alignmentOf (rule : AlignmentRule) (ea n : Nat) (kind : AccessKind) : AlignmentAnswer :=
  match rule with
  | .naturalOnly => if ea % n = 0 then .ok else .refuse
  | .anyAddress => .ok
  | .traps x => if ea % n = 0 then .ok else .trap x
  | .platform => Config.alignment ea n kind

/-- The checks of an access of `z` bytes at an effective address, and its physical address (rules R42, R43).
DESIGN CHOICE: the alignment is tested before the translation, so a misaligned access under an `ALIGNMENT_RULE` that
traps raises that trap and not PF or PROT; the spec gives the two no order (log entry 43). -/
def State.access (s : State) (ea : Word) (z : OpSize) (kind : AccessKind) : Except Stop Nat :=
  match alignmentOf s.impl.alignment ea.toNat z.bytes kind with
  | .refuse => .error (.refuse .misaligned)
  | .trap x => .error (.raise x)
  | .ok =>
    match translate s.impl ea.toNat z.bytes kind s.flags.xm with
    | .ok pa => .ok pa
    | .pf => .error (.raise .pf)
    | .prot => .error (.raise .prot)

/-- `MemRead(addr, n)` (rule R41). -/
def State.memRead (s : State) (ea : Word) (z : OpSize) : Except Stop Word :=
  match s.access ea z .read with
  | .error e => .error e
  | .ok pa => .ok (loadBytes s.impl.byteOrder s.mem pa z.bytes)

/-- A store of `n` bytes falls on a byte of the program text, of which there is none when its length is 0
(rule R48). -/
def inText (impl : Impl) (pa n : Nat) : Bool :=
  decide (0 < impl.textLen ∧ pa < impl.textBase + impl.textLen ∧ impl.textBase < pa + n)

/-- `MemWrite(addr, n, v)` (rules R41, R48). -/
def State.memWrite (s : State) (ea : Word) (z : OpSize) (v : Word) : Except Stop State :=
  match s.access ea z .write with
  | .error e => .error e
  | .ok pa =>
    if inText s.impl pa z.bytes then .error (.refuse .storeIntoText)
    else .ok { s with mem := storeBytes s.impl.byteOrder s.mem pa z.bytes v }

/-! Exceptions (rules R170 to R174, R176, R180). -/

/-- The number of a machine exception: FPE is 6, the others are the base ISA's (rule R176). -/
def Trap.number : Trap → Nat
  | .und => Config.undCode
  | .prot => Config.protCode
  | .pf => Config.pfCode
  | .fpe => 6

/-- TAKING A MACHINE EXCEPTION: the run ends with `Trapped(X)` and the state at that point (rule R180). The source
gives no trap entry and no return, so nothing else changes and nothing leads out of this state. -/
def State.raise (s : State) (x : Trap) : State := { s with trapped := some x }

/-- `Masked(n)` (rule R170). -/
def State.masked (s : State) (x : FpExc) : Bool := s.emaskAll || s.fpcrw.getLsbD (16 + x.number)

/-- `MaskedNoAll(n)` (rule R170). -/
def State.maskedNoAll (s : State) (x : FpExc) : Bool := s.fpcrw.getLsbD (16 + x.number)

/-- A floating-point exception is asserted: its bit of `fpcrw.EXCEPT` is set (rule R18). -/
def State.asserted (s : State) (x : FpExc) : Bool := s.fpcrw.getLsbD (8 + x.number)

/-- The control word with the `EXCEPT` bit of each exception set (rules R171, R172). -/
def assertExcs (w : Word) : List FpExc → Word
  | [] => w
  | x :: xs => assertExcs (setBit w (8 + x.number) true) xs

/-- Recording the floating-point exceptions an operation caused (rule R171). -/
def State.record (s : State) (e : List FpExc) : State := { s with fpcrw := assertExcs s.fpcrw e }

/-- Some exception of the set is unmasked (rule R172). -/
def State.anyUnmasked (s : State) (e : List FpExc) : Bool := e.any (fun x => !s.masked x)

/-- FPE or PROT, by `cr0.FPEXCPT` (rule R173). -/
def State.fpTrap (s : State) : Trap := if s.fpexcpt then .fpe else .prot

/-- Going on with the next instruction in program order (rule R26). The count of completed instructions numbers
the free values. -/
def State.advance (s : State) : State := { s with ip := s.ip + 1, draws := s.draws + 1 }

/-- The end of an operation that caused the set `e` (rules R172 to R174): the `EXCEPT` bits are set; if none of the
set is unmasked, the result is committed and the next instruction follows; otherwise FPE or PROT is raised, before
the result is committed or after, by `FP_TRAP_WRITES_RESULT`. -/
def State.finish (s : State) (e : List FpExc) (commit : State → Except Stop State) : Except Stop State :=
  let s1 := s.record e
  if s.anyUnmasked e then
    if s.impl.trapWritesResult then
      match commit s1 with
      | .error stop => .error stop
      | .ok t => .ok (t.raise s.fpTrap)
    else .ok (s1.raise s.fpTrap)
  else
    match commit s1 with
    | .error stop => .error stop
    | .ok t => .ok t.advance

/-- The outcome of an instruction: a check that raised leaves the state before the instruction, with the exception
taken (rule R180). -/
def State.settle (s : State) : Except Stop State → Host.Outcome State Fault Refusal
  | .ok t => .next t
  | .error (.raise x) => .next (s.raise x)
  | .error (.refuse r) => .refused r

/-! The harness's setters, in place of the base instructions that are in no source (rules R186, R202, D46). -/

/-- Set or clear `cr0.FPEN`. -/
def State.setFpen (s : State) (b : Bool) : State := { s with cr0 := setBit s.cr0 6 b }

/-- Set or clear `cr0.FPEXCPT`. -/
def State.setFpexcpt (s : State) (b : Bool) : State := { s with cr0 := setBit s.cr0 7 b }

/-- Write `fpcrw`. -/
def State.setFpcrw (s : State) (w : Word) : State := { s with fpcrw := w }

/-- Give a register its initial value (rule R202). -/
def State.setReg (s : State) (n : Nat) (v : Word) : State := s.writeReg n v

/-- Load a program, to run from its first instruction (rules R64, R205). -/
def State.loadProgram (s : State) (p : List Entry) : State := { s with program := p, ip := 0 }

end Sys2Proof.Machine
end

