-- ==== Sys2Proof/Machine/Operands.lean ====
section
/-! DEFINITION. The operands: their predicates (rule R62), reading and writing them (rules R60, R61), the operand
constraints of the three families (rules R101, R121, R151) and the checks before computing (rule R80). -/

namespace Sys2Proof.Machine

/-- The size of an operand. -/
def opSize : Operand → OpSize
  | .reg _ z => z
  | .mem _ z => z
  | .imm _ z _ => z

/-- `IsFpReg` (rule R62). -/
def isFpReg : Operand → Bool
  | .reg n _ => decide (24 ≤ n ∧ n ≤ 31)
  | .mem _ _ => false
  | .imm _ _ _ => false

/-- `IsOtherReg` (rule R62). -/
def isOtherReg : Operand → Bool
  | .reg n _ => !decide (24 ≤ n ∧ n ≤ 31)
  | .mem _ _ => false
  | .imm _ _ _ => false

/-- `IsMem` (rule R62). -/
def isMem : Operand → Bool
  | .reg _ _ => false
  | .mem _ _ => true
  | .imm _ _ _ => false

/-- An operand is an immediate. -/
def isImm : Operand → Bool
  | .reg _ _ => false
  | .mem _ _ => false
  | .imm _ _ _ => true

/-- `IsLongImm` (rule R62). -/
def isLongImm : Operand → Bool
  | .reg _ _ => false
  | .mem _ _ => false
  | .imm _ _ long => long

/-- `IsFlagsOrIp` (rule R62). -/
def isFlagsOrIp (impl : Impl) : Operand → Bool
  | .reg n _ => regClass impl n == .flags || regClass impl n == .ip
  | .mem _ _ => false
  | .imm _ _ _ => false

/-- A register number the extension defines: 19 and 24 to 31 (rule R10). -/
def isExtensionReg (n : Nat) : Bool := decide (n = 19 ∨ (24 ≤ n ∧ n ≤ 31))

/-- `IsSuper` (rule R62); `fpcrw` and `f0` to `f7` are not supervisor registers (rule R185). -/
def isSuper (impl : Impl) : Operand → Bool
  | .reg n _ => impl.supervisorRegs.contains n && !isExtensionReg n
  | .mem _ _ => false
  | .imm _ _ _ => false

/-- `IsReservedReg` (rule R62): 19 and 24 to 31 are reserved exactly when `cr0.FPEN = 0` (rule R12). -/
def isReservedNumber (s : State) (n : Nat) : Bool :=
  if isExtensionReg n then !s.fpen else s.impl.reservedRegs.contains n

/-- `IsReserved` (rule R62). -/
def isReserved (s : State) : Operand → Bool
  | .reg n _ => isReservedNumber s n
  | .mem _ _ => false
  | .imm _ _ _ => false

/-- A size that a floating-point operand may have (rule R59). -/
def fpSize (op : Operand) : Bool := opSize op != .b1

/-- `ReadOp(op)` (rule R60). -/
def State.readOp (s : State) : Operand → Except Stop Word
  | .reg n z => .ok (z.truncate (s.readReg n))
  | .mem ea z => s.memRead ea z
  | .imm v z _ => .ok (z.truncate v)

/-- `WriteOp(op, v)` (rule R61). No constraint admits an immediate destination; the last line only makes the
function total. -/
def State.writeOp (s : State) (op : Operand) (v : Word) : Except Stop State :=
  match op with
  | .reg n z => .ok (s.writeReg n (z.truncate v))
  | .mem ea z => s.memWrite ea z v
  | .imm _ _ _ => .error (.raise .und)

/-! Operand constraints. -/

/-- What an operand constraint says of a form. -/
inductive Verdict where
  | admitted
  | und
  | refused
  deriving DecidableEq, Repr

/-- A strict constraint: what violates it raises UND (rule R80 step 3). -/
def verdictOf (ok : Bool) : Verdict := if ok then .admitted else .und

/-- The constraint of a converting move, by its strict and its loose reading: "forms only a looser reading admits are
refused, not UND", and what neither admits raises UND (rule R101, decision D18, U13). -/
def looseVerdict (strict loose : Bool) : Verdict :=
  if strict then .admitted else if loose then .refused else .und

/-- What every converting move asks of its operands (rule R101, "all five"). -/
def convertCommon (s : State) (d src : Operand) : Bool :=
  !isImm d && !isFlagsOrIp s.impl d && !isReserved s d && !isReserved s src

/-- The constraint of `movsif` and `movxf`: the destination is a floating-point register (rule R101). The loose
reading admits a memory destination too. -/
def toFpConstraint (s : State) (d src : Operand) : Verdict :=
  looseVerdict
    (isFpReg d && fpSize d && convertCommon s d src)
    (isMem d && fpSize d && convertCommon s d src)

/-- The constraint of `movfsi` and `movfx`: the source is a floating-point register (rule R101). The loose reading
admits a memory or immediate source too. -/
def fromFpConstraint (s : State) (d src : Operand) : Verdict :=
  looseVerdict
    (isFpReg src && fpSize src && convertCommon s d src)
    ((isMem src || isLongImm src) && fpSize src && convertCommon s d src)

/-- The constraint of `cvtf` (rule R101). -/
def cvtfConstraint (s : State) (d src : Operand) : Verdict :=
  verdictOf ((isFpReg d || isFpReg src) && !isOtherReg d && !isOtherReg src && fpSize d && fpSize src &&
    convertCommon s d src)

/-- The constraint of the arithmetic instructions, on the first operand and the others (rule R121). -/
def arithConstraint (d : Operand) (others : List Operand) : Verdict :=
  verdictOf ((isFpReg d || isMem d) && (d :: others).any isFpReg && (d :: others).all (fun o => !isOtherReg o) &&
    (d :: others).all fpSize)

/-- The constraint of `fcmpz` (rule R151). -/
def fcmpzConstraint (a : Operand) : Verdict := verdictOf (!isOtherReg a && fpSize a)

/-- The constraint of `fcmp` (rule R151). -/
def fcmpConstraint (a b : Operand) : Verdict :=
  verdictOf ((isFpReg a || isLongImm a || isFpReg b || isLongImm b) && !isOtherReg a && !isOtherReg b &&
    fpSize a && fpSize b)

/-! The checks before computing (rule R80). -/

/-- An operand with the ways its instruction accesses it (rule R80 step 6). -/
abbrev Access := Operand × List AccessKind

/-- The translation checks of one memory operand, one access kind after another. -/
def checkKinds (s : State) (ea : Word) (z : OpSize) : List AccessKind → Except Stop Unit
  | [] => .ok ()
  | k :: ks =>
    match s.access ea z k with
    | .error e => .error e
    | .ok _ => checkKinds s ea z ks

/-- The translation checks of the memory operands, in operand order (rule R80 step 6). -/
def checkAccesses (s : State) : List Access → Except Stop Unit
  | [] => .ok ()
  | (op, kinds) :: rest =>
    match op with
    | .mem ea z =>
      match checkKinds s ea z kinds with
      | .error e => .error e
      | .ok _ => checkAccesses s rest
    | .reg _ _ => checkAccesses s rest
    | .imm _ _ _ => checkAccesses s rest

/-- `FpCommonChecks` (rules R80, R181): `cr0.FPEN`, the operand form, `XOPSS`, a supervisor register (converting
moves only), the memory operands. Step 2, the reserved bits of `h`, is the decoder's; an immediate that rule R58
does not admit has no meaning and is turned away before the constraint is asked. -/
def fpCommonChecks (s : State) (v : Verdict) (convert : Bool) (accesses : List Access) : Except Stop Unit :=
  if !s.fpen then .error (.raise .und)
  else if !(accesses.all (fun a => a.1.wellFormed)) then .error (.refuse .immediateForm)
  else
    match v with
    | .und => .error (.raise .und)
    | .refused => .error (.refuse .looseForm)
    | .admitted =>
      if s.xopss = 3 then .error (.raise .und)
      else if convert && s.flags.xm && accesses.any (fun a => isSuper s.impl a.1) then .error (.raise .prot)
      else checkAccesses s accesses

end Sys2Proof.Machine
end

