-- ==== Sys2Proof/Machine/BaseOps.lean ====
section
/-! DEFINITION. The base-ISA instructions `mov`, `test`, `cmp`, `cmpxchg` and `xchg` as far as the source speaks of
them (`40_base_ops_on_fp_registers.md`): they accept floating-point registers and treat them as bits, and `cmp` orders
bit patterns by an integer rule (rule R71). What each does beside that is in no source: the effects are PRESUMED from
the mnemonics' usual meaning (log entries 34, 44, 45), the operand forms and the order of the writes are the model's
(log entries 46, 47), and the flags are free wherever no rule speaks of them. -/

namespace Sys2Proof.Machine

/-! Flags (rules R25, R71). -/

/-- The condition flags of a word of flags. -/
def Flags.cond (x : Flags) : CondFlags := ⟨x.c, x.z, x.v, x.n, x.p⟩

/-- The state with its condition flags set; `XM` and the unnamed bits are kept. -/
def State.setCond (s : State) (k : CondFlags) : State :=
  { s with flags := { s.flags with c := k.c, z := k.z, v := k.v, n := k.n, p := k.p } }

/-- `Z`, `N` and `V` of the difference of two patterns of one size: equal patterns set `Z`, and `N` differs from `V`
exactly when the first is the lesser signed integer. It is the total order on patterns of rule R71; that these three
flags carry it is PRESUMED (log entry 44). -/
def compareCond (z : OpSize) (a b : Word) (free : CondFlags) : CondFlags :=
  let d := z.sint a - z.sint b
  { free with
    z := decide (a = b)
    n := decide (z.sint (z.ofInt d) < 0)
    v := decide (d < z.minInt ∨ z.maxInt < d) }

/-! Operands (rules R58 to R61, R71). -/

/-- A value of one operand size as a value of another: kept where the second is no wider, since a write takes the low
bits; where it is wider, the bits above are free (log entry 46). -/
def widen (source target : OpSize) (w : Word) : Word :=
  if target.bytes ≤ source.bytes then w
  else BitVec.ofNat 64 (w.toNat % 2 ^ source.bits +
    (Config.baseExtension source.bytes target.bytes w).toNat % 2 ^ (target.bits - source.bits) * 2 ^ source.bits)

/-- The wider of two operand sizes. -/
def wider (a b : OpSize) : OpSize := if a.bytes ≤ b.bytes then b else a

/-- A destination whose writing the source describes: no immediate, and not `ip` (rules R61, R73). -/
def baseDestination (impl : Impl) : Operand → Bool
  | .reg n _ => regClass impl n != .ip
  | .mem _ _ => true
  | .imm _ _ _ => false

/-- An operand that is `flags`. -/
def isFlagsReg (impl : Impl) : Operand → Bool
  | .reg n _ => regClass impl n == .flags
  | .mem _ _ => false
  | .imm _ _ _ => false

/-- The checks of a base instruction, in the order log entry 46 names: immediates (rule R58), destinations, a
supervisor register (PROT by analogy with rule R178), the memory operands in operand order (rule R43). -/
def baseChecks (s : State) (accesses : List Access) : Except Stop Unit :=
  if !(accesses.all (fun a => a.1.wellFormed)) then .error (.refuse .immediateForm)
  else if accesses.any (fun a => a.2.contains .write && !baseDestination s.impl a.1) then
    .error (.refuse .baseSemantics)
  else if s.flags.xm && accesses.any (fun a => isSuper s.impl a.1) then .error (.raise .prot)
  else checkAccesses s accesses

/-- The bits of the operands, in order (rule R60). -/
def State.readBits (s : State) : List Operand → Except Stop (List Word)
  | [] => .ok []
  | op :: ops =>
    match s.readOp op with
    | .error e => .error e
    | .ok w =>
      match s.readBits ops with
      | .error e => .error e
      | .ok ws => .ok (w :: ws)

/-- The state with values written to operands, one after another (rule R61). -/
def State.writeAll (s : State) : List (Operand × Word) → Except Stop State
  | [] => .ok s
  | (op, w) :: rest =>
    match s.writeOp op w with
    | .error e => .error e
    | .ok t => t.writeAll rest

/-- The order of the writes: memory before registers, each in operand order. DESIGN CHOICE (log entry 47). -/
def memoryFirst (writes : List (Operand × Word)) : List (Operand × Word) :=
  writes.filter (fun x => isMem x.1) ++ writes.filter (fun x => !isMem x.1)

/-! The instructions (rule R71). -/

/-- The skeleton of the five instructions: check and read the operands, write what `effect` makes of the bits, and
set the condition flags that `cond` makes of the bits and the free flags, unless `flags` itself was written. -/
def baseRun (m : BaseMnemonic) (accesses : List Access) (effect : List Word → List (Operand × Word))
    (cond : List Word → CondFlags → CondFlags) (s : State) : Except Stop State :=
  match baseChecks s accesses with
  | .error e => .error e
  | .ok _ =>
    match s.readBits ((accesses.filter (fun a => a.2.contains .read)).map Prod.fst) with
    | .error e => .error e
    | .ok ws =>
      match s.writeAll (memoryFirst (effect ws)) with
      | .error e => .error e
      | .ok t =>
        if (effect ws).any (fun x => isFlagsReg s.impl x.1) then .ok t.advance
        else
          .ok (t.setCond (cond ws
            (Config.baseFlags m (accesses.map (fun a => (opSize a.1).bytes)) ws s.flags.cond))).advance

/-- Flags of which nothing is said. -/
def freeCond (_ : List Word) (free : CondFlags) : CondFlags := free

/-- What `mov d, src` writes: the bits of the source (rules R13, R71). -/
def movEffect (d src : Operand) : List Word → List (Operand × Word)
  | [w] => [(d, widen (opSize src) (opSize d) w)]
  | _ => []

/-- What `xchg a, b` writes: each operand receives the bits the other held. -/
def xchgEffect (a b : Operand) : List Word → List (Operand × Word)
  | [x, y] => [(a, widen (opSize b) (opSize a) y), (b, widen (opSize a) (opSize b) x)]
  | _ => []

/-- What `cmpxchg d, e, src` writes: where `d` and `e` hold the same bits `d` receives the bits of `src`, and where
they do not `e` receives the bits of `d`. PRESUMED (log entry 45). -/
def cmpxchgEffect (d e src : Operand) : List Word → List (Operand × Word)
  | [x, y, w] =>
    let z := wider (opSize d) (opSize e)
    if widen (opSize d) z x = widen (opSize e) z y then [(d, widen (opSize src) (opSize d) w)]
    else [(e, widen (opSize d) (opSize e) x)]
  | _ => []

/-- The flags of `cmp a, b`, at the wider of the two sizes. -/
def cmpCond (a b : Operand) : List Word → CondFlags → CondFlags
  | [x, y], free =>
    let z := wider (opSize a) (opSize b)
    compareCond z (widen (opSize a) z x) (widen (opSize b) z y) free
  | _, free => free

/-- `mov d, src`. -/
def baseMov (d src : Operand) (s : State) : Except Stop State :=
  baseRun .mov [(d, [.write]), (src, [.read])] (movEffect d src) freeCond s

/-- `test a, b`: the operands are read and only flags are written. -/
def baseTest (a b : Operand) (s : State) : Except Stop State :=
  baseRun .test [(a, [.read]), (b, [.read])] (fun _ => []) freeCond s

/-- `cmp a, b`: the operands are read and only flags are written. -/
def baseCmp (a b : Operand) (s : State) : Except Stop State :=
  baseRun .cmp [(a, [.read]), (b, [.read])] (fun _ => []) (cmpCond a b) s

/-- `xchg a, b`. -/
def baseXchg (a b : Operand) (s : State) : Except Stop State :=
  baseRun .xchg [(a, [.read, .write]), (b, [.read, .write])] (xchgEffect a b) freeCond s

/-- `cmpxchg d, e, src`. -/
def baseCmpxchg (d e src : Operand) (s : State) : Except Stop State :=
  baseRun .cmpxchg [(d, [.read, .write]), (e, [.read, .write]), (src, [.read])] (cmpxchgEffect d e src) freeCond s

/-- A base instruction of rule R71 on its operands. An operand that names a reserved register raises UND, 19 and 24
to 31 with `cr0.FPEN = 0` among them (rules R12, R71, D36). -/
def execBase (m : BaseMnemonic) (operands : List Operand) (s : State) : Host.Outcome State Fault Refusal :=
  if operands.any (isReserved s) then .next (s.raise .und)
  else
    match m, operands with
    | .mov, [d, src] => s.settle (baseMov d src s)
    | .test, [a, b] => s.settle (baseTest a b s)
    | .cmp, [a, b] => s.settle (baseCmp a b s)
    | .xchg, [a, b] => s.settle (baseXchg a b s)
    | .cmpxchg, [d, e, src] => s.settle (baseCmpxchg d e src s)
    | _, _ => .refused .operandCount

end Sys2Proof.Machine
end

