-- ==== Sys2Proof/Machine/Flags.lean ====
section
/-! DEFINITION. The flag computations: from a floating-point result (rules R95, R96, R128), from an integer result
(rules R106, R107), from a comparison (rule R155). The flag the source writes both `M` and `N` is `n` (rule R25). -/

namespace Sys2Proof.Machine

/-- The number of 1 bits among the low `n` bits of a word is odd. -/
def oddOnes (w : Word) : Nat → Bool
  | 0 => false
  | n + 1 => xor (w.getLsbD n) (oddOnes w n)

/-- `Parity(bits)` of a pattern of format `F` (rule R96). -/
def parityOf (rule : ParityRule) (F : Format) (b : Word) : Bool :=
  match rule with
  | .oddOnes => oddOnes b F.width
  | .platform => Config.parity F.width b

/-- `Z` of a floating-point result: the value is a zero of either sign (rule R95). -/
def fpIsZero (F : Format) (b : Word) : Bool :=
  match decodeFp F b with
  | .fin _ m => decide (m = 0)
  | .inf _ => false
  | .nan _ _ => false

/-- `SetFlagsFP(F, bits, {N, Z})`: the flags of a converting move with a floating-point result (rule R95). -/
def State.setFlagsNZ (s : State) (F : Format) (b : Word) : State :=
  { s with flags := { s.flags with n := signField F b, z := fpIsZero F b } }

/-- `SetFlagsFP(F, bits, {N, Z, P})`: the flags of an arithmetic instruction (rules R95, R128). -/
def State.setFlagsNZP (s : State) (F : Format) (b : Word) : State :=
  { s with flags :=
      { s.flags with n := signField F b, z := fpIsZero F b, p := parityOf s.impl.parity F b } }

/-- The flags of an integer or fixed-point result (rules R106, R107). -/
def State.setFlagsInt (s : State) (r : Int) : State :=
  { s with flags := { s.flags with n := decide (r < 0), z := decide (r = 0) } }

/-- The outcome of a comparison (rule R152). -/
inductive CmpOutcome where
  | less
  | equal
  | greater
  | unordered
  deriving DecidableEq, Repr

/-- `FCMP_FLAG_MAP(o)` (rule R155). -/
def cmpFlags (m : FcmpFlagMap) : CmpOutcome → CmpFlags
  | .less => m.less
  | .equal => m.equal
  | .greater => m.greater
  | .unordered => m.unordered

/-- The flags of a comparison: `N`, `Z`, `C`, `P`; `V` keeps its value (rules R150, R155). -/
def State.setFlagsCmp (s : State) (o : CmpOutcome) : State :=
  let x := cmpFlags s.impl.fcmpMap o
  { s with flags := { s.flags with n := x.n, z := x.z, c := x.c, p := x.p } }

/-- Setting flags unless `h.f = 1` (rules R53, R95). -/
def unlessF (f : Bool) (s t : State) : State := if f then s else t

end Sys2Proof.Machine
end

