-- ==== Sys2Proof/Machine/ConvertingMoves.lean ====
section
/-! DEFINITION. The converting moves, opcodes 0x022 to 0x026 (`42_converting_moves.md`). -/

namespace Sys2Proof.Machine

/-- The rounding mode of an instruction that rounds by `fpcrw.RND`: values 5, 6 and 7 have no meaning
(rules R16, R21, U3). -/
def State.roundMode (s : State) : Except Stop RoundMode :=
  match RoundMode.ofRnd s.rnd with
  | some m => .ok m
  | none => .error (.refuse .reservedRounding)

/-- The accesses of a converting move: the destination is written, the source read (rule R80 step 6). -/
def moveAccesses (d src : Operand) : List Access := [(d, [.write]), (src, [.read])]

/-- Storing a floating-point result and setting `N` and `Z` (rules R95, R104). -/
def commitFp (f : Bool) (d : Operand) (b : Word) (s : State) : Except Stop State :=
  match s.writeOp d b with
  | .error e => .error e
  | .ok t => .ok (unlessF f t (t.setFlagsNZ (formatOf (opSize d)) b))

/-- Storing an integer result and setting `N` and `Z` (rules R106, R107). -/
def commitInt (f : Bool) (d : Operand) (r : Int) (s : State) : Except Stop State :=
  match s.writeOp d ((opSize d).ofInt r) with
  | .error e => .error e
  | .ok t => .ok (unlessF f t (t.setFlagsInt r))

/-- The rational `v` delivered to a floating-point destination (rules R104, R105). -/
def roundTowards (s : State) (mode : RoundMode) (d : Operand) (v : Rat) : Word × List FpExc :=
  roundFp s.impl.rangeCheck (signOf v) (magOf v) (formatOf (opSize d)) mode s.denorm

/-- The part that `movsif` and `movxf` share: the value is a function of the source's bits (rules R104, R105). -/
def moveToFp (value : OpSize → Word → Rat) (f : Bool) (d src : Operand) (s : State) :
    Except Stop State :=
  match fpCommonChecks s (toFpConstraint s d src) true (moveAccesses d src) with
  | .error e => .error e
  | .ok _ =>
    match s.roundMode with
    | .error e => .error e
    | .ok mode =>
      match s.readOp src with
      | .error e => .error e
      | .ok w =>
        let r := roundTowards s mode d (value (opSize src) w)
        s.finish r.2 (commitFp f d r.1)

/-- `movsif`, opcode 0x022 (rule R104). -/
def execMovsif (f : Bool) (d src : Operand) (s : State) : Host.Outcome State Fault Refusal :=
  s.settle (moveToFp (fun z w => (z.sint w : Rat)) f d src s)

/-- `movxf`, opcode 0x023 (rule R105). -/
def execMovxf (ss : Fin 4) (i f : Bool) (d src : Operand) (s : State) : Host.Outcome State Fault Refusal :=
  s.settle (moveToFp (fun z w => fixValue z (fracBitsOf z ss i) w) f d src s)

/-- The integer delivered and the exceptions caused when a rounded value `v` of a finite input goes to a width:
saturation raises OVERFLOW beside whatever the rounding raised (rules R106, R107, R109 c). -/
def saturate (z : OpSize) (v : Int) (inRange onSaturation : List FpExc) : Int × List FpExc :=
  if z.maxInt < v then (z.maxInt, onSaturation)
  else if v < z.minInt then (z.minInt, onSaturation)
  else (v, inRange)

/-- The result of an input that is a NaN or an infinity (rules R106, R107). -/
def specialToInt (rule : SignalRule) (F : Format) (b : Word) (z : OpSize) : FpVal → Int × List FpExc
  | .nan _ _ => (z.minInt, if isSignalling rule F b then [.signal] else [])
  | .inf sg => (if sg then z.minInt else z.maxInt, [.overflow])
  | .fin _ _ => (0, [])

/-- `-t` or `t` by the sign. -/
def signedInt (sg : Bool) (t : Nat) : Int := if sg then -(t : Int) else t

/-- The result of `movfsi`: truncation toward zero, without INEXACT (rule R106). -/
def truncateToInt (rule : SignalRule) (F : Format) (b : Word) (z : OpSize) : Int × List FpExc :=
  match decodeFp F b with
  | .fin sg m => saturate z (signedInt sg m.floor.toNat) [] [.overflow]
  | .nan sg t => specialToInt rule F b z (.nan sg t)
  | .inf sg => specialToInt rule F b z (.inf sg)

/-- `movfsi`, opcode 0x024 (rule R106). `fpcrw.RND` plays no part. -/
def execMovfsi (f : Bool) (d src : Operand) (s : State) : Host.Outcome State Fault Refusal :=
  s.settle
    (match fpCommonChecks s (fromFpConstraint s d src) true (moveAccesses d src) with
    | .error e => .error e
    | .ok _ =>
      match s.readOp src with
      | .error e => .error e
      | .ok w =>
        let r := truncateToInt s.impl.signalling (formatOf (opSize src)) w (opSize d)
        s.finish r.2 (commitInt f d r.1))

/-- The result of `movfx`: rounding on the grid of the fixed-point format, with INEXACT (rule R107). -/
def roundToFixed (rule : SignalRule) (mode : RoundMode) (F : Format) (b : Word) (z : OpSize) (fb : Nat) :
    Int × List FpExc :=
  match decodeFp F b with
  | .fin sg m =>
    let q := m * pow2 fb
    let t := roundInt q sg mode
    saturate z (signedInt sg t) (inexactIf (t : Rat) q) [.overflow, .inexact]
  | .nan sg t => specialToInt rule F b z (.nan sg t)
  | .inf sg => specialToInt rule F b z (.inf sg)

/-- `movfx`, opcode 0x025 (rule R107). -/
def execMovfx (ss : Fin 4) (i f : Bool) (d src : Operand) (s : State) : Host.Outcome State Fault Refusal :=
  s.settle
    (match fpCommonChecks s (fromFpConstraint s d src) true (moveAccesses d src) with
    | .error e => .error e
    | .ok _ =>
      match s.roundMode with
      | .error e => .error e
      | .ok mode =>
        match s.readOp src with
        | .error e => .error e
        | .ok w =>
          let r := roundToFixed s.impl.signalling mode (formatOf (opSize src)) w (opSize d)
            (fracBitsOf (opSize d) ss i)
          s.finish r.2 (commitInt f d r.1))

/-- The result of `cvtf`: a NaN gives a NaN of unspecified sign, payload and kind; no SIGNAL (rules R103, R108). -/
def convertFormat (s : State) (mode : RoundMode) (F Fd : Format) (b : Word) : Word × List FpExc :=
  match decodeFp F b with
  | .nan _ _ => (drawNaN Fd (Config.nanSign s.draws) s.draws, [])
  | .inf sg => (encInf Fd sg, [])
  | .fin sg m => roundFp s.impl.rangeCheck sg m Fd mode s.denorm

/-- `cvtf`, opcode 0x026 (rule R108). -/
def execCvtf (f : Bool) (d src : Operand) (s : State) : Host.Outcome State Fault Refusal :=
  s.settle
    (match fpCommonChecks s (cvtfConstraint s d src) true (moveAccesses d src) with
    | .error e => .error e
    | .ok _ =>
      match s.roundMode with
      | .error e => .error e
      | .ok mode =>
        match s.readOp src with
        | .error e => .error e
        | .ok w =>
          let r := convertFormat s mode (formatOf (opSize src)) (formatOf (opSize d)) w
          s.finish r.2 (commitFp f d r.1))

end Sys2Proof.Machine
end

