-- ==== Sys2Proof/Machine/Arithmetic.lean ====
section
/-! DEFINITION. The arithmetic instructions, opcodes 0x100 to 0x10b (`43_fp_arithmetic.md`): the shared skeleton of
rule R129, and for each instruction its `compute`. -/

namespace Sys2Proof.Machine

/-- What an operation on operands that are no NaN comes to (rule R129); `exact` carries a magnitude above zero. -/
inductive ArithOut where
  | invalid
  | divZero (s : Bool)
  | exactInf (s : Bool)
  | exactZero (s : Bool)
  | exact (s : Bool) (m : Rat)
  deriving DecidableEq, Repr

/-- A format with at least the range and the precision of two others. -/
def formatMax (a b : Format) : Format := ⟨max a.expBits b.expBits, max a.fracBits b.fracBits⟩

/-- A format with the range and the precision of the first, cut down to those of the second. -/
def formatMin (a b : Format) : Format := ⟨min a.expBits b.expBits, min a.fracBits b.fracBits⟩

/-- The largest format among the operands (`Fmax` of rule R122). -/
def largestFormat : List Operand → Format
  | [] => binary16
  | op :: ops => formatMax (formatOf (opSize op)) (largestFormat ops)

/-- `INTERMEDIATE_FORMAT` (rule R122): the implementation's choice, held between the largest operand's format and
the larger of that and the one `XOPSS` names; the largest operand's format where it makes none. -/
def intermediateFormat (impl : Impl) (Fmax Fx : Format) : Format :=
  match impl.intermediate.find? (fun x => x.operand == Fmax && x.bound == Fx) with
  | none => Fmax
  | some x => formatMax Fmax (formatMin x.chosen (formatMax Fmax Fx))

/-- The operands read in order (rules R45, R129), with their patterns. -/
def State.readOps (s : State) : List Operand → Except Stop (List (Format × Word))
  | [] => .ok []
  | op :: ops =>
    match s.readOp op with
    | .error e => .error e
    | .ok b =>
      match s.readOps ops with
      | .error e => .error e
      | .ok bs => .ok ((formatOf (opSize op), b) :: bs)

/-- The quiet NaN of an INVALID operation: sign and payload are unspecified (rules R93, R125, U19). -/
def invalidNaN (s : State) (Fd : Format) : Word :=
  drawQuietNaN s.impl.signalling Fd (Config.nanSign s.draws) s.draws

/-- The pattern and the exceptions of an operation without NaN operands (rules R125, R126, R129). -/
def arithResult (s : State) (mode : RoundMode) (Fd I : Format) : ArithOut → Word × List FpExc
  | .invalid => (invalidNaN s Fd, [.invalid])
  | .divZero sg =>
    match s.impl.divZero with
    | .divByZero => (encInf Fd sg, [.divByZero])
    | .invalid => (invalidNaN s Fd, [.invalid])
  | .exactInf sg => (encInf Fd sg, [])
  | .exactZero sg => (encZero Fd sg, [])
  | .exact sg m => deliver s.impl.rangeCheck sg m Fd I mode s.denorm

/-- The pattern and the exceptions of an operation on the patterns read: a NaN operand decides the result before
the operation is asked (rules R127, R129). -/
def arithOutcome (s : State) (mode : RoundMode) (Fd I : Format) (compute : List FpVal → ArithOut)
    (bs : List (Format × Word)) : Word × List FpExc :=
  let vals := bs.map (fun x => decodeFp x.1 x.2)
  if vals.any FpVal.isNaN then
    (nanResult s.impl.signalling Fd vals s.draws,
      if s.impl.arithSnanSignal && bs.any (fun x => isSignalling s.impl.signalling x.1 x.2) then [.signal] else [])
  else arithResult s mode Fd I (compute vals)

/-- Storing an arithmetic result and setting `N`, `Z` and `P` (rule R128). -/
def commitArith (f : Bool) (d : Operand) (b : Word) (s : State) : Except Stop State :=
  match s.writeOp d b with
  | .error e => .error e
  | .ok t => .ok (unlessF f t (t.setFlagsNZP (formatOf (opSize d)) b))

/-- The accesses of an arithmetic instruction: the first operand is read and written, the others read (rule R45). -/
def arithAccesses (d : Operand) (others : List Operand) : List Access :=
  (d, [.read, .write]) :: others.map (fun o => (o, [.read]))

/-- The mode of an instruction whose result is always representable, which no rounding mode changes: `RND` does
not govern it, also when its value is reserved (rules R16, R130 to R134). -/
def State.anyMode (s : State) : RoundMode :=
  match RoundMode.ofRnd s.rnd with
  | some m => m
  | none => .towardZero

/-- The rounding mode of an arithmetic instruction: `rounds` says whether its result may need rounding by
`fpcrw.RND`. -/
def State.arithMode (s : State) (rounds : Bool) : Except Stop RoundMode :=
  if rounds then s.roundMode else .ok s.anyMode

/-- The skeleton of the twelve instructions (rule R129): the first operand, the others, and `compute`. -/
def arith (rounds : Bool) (compute : RoundMode → List FpVal → ArithOut) (f : Bool) (d : Operand)
    (others : List Operand) (s : State) : Except Stop State :=
  match fpCommonChecks s (arithConstraint d others) false (arithAccesses d others) with
  | .error e => .error e
  | .ok _ =>
    match s.arithMode rounds with
    | .error e => .error e
    | .ok mode =>
      match s.readOps (d :: others) with
      | .error e => .error e
      | .ok bs =>
        let r := arithOutcome s mode (formatOf (opSize d))
          (intermediateFormat s.impl (largestFormat (d :: others)) s.xopssFormat) (compute mode) bs
        s.finish r.2 (commitArith f d r.1)

/-- A value zero or not, as a delivered outcome (rules R130 to R134, R138, R140). -/
def zeroOrExact (s : Bool) (m : Rat) : ArithOut := if m = 0 then .exactZero s else .exact s m

/-- An exact sum: its sign and magnitude, and the sign of an exact zero sum of values with the given signs
(rules R92, R136, R141). -/
def sumOut (mode : RoundMode) (s1 s2 : Bool) (v : Rat) : ArithOut :=
  if v = 0 then .exactZero (if s1 = s2 then s1 else decide (mode = .down)) else .exact (signOf v) (magOf v)

/-! One operand. -/

/-- Rounding to an integral value in a fixed direction (rules R130 to R132). -/
def integralOf (mode : RoundMode) : FpVal → ArithOut
  | .inf s => .exactInf s
  | .fin s m => zeroOrExact s (roundInt m s mode : Rat)
  | .nan _ _ => .invalid

/-- `compute` of `fabs` (rule R133). -/
def absOf : FpVal → ArithOut
  | .inf _ => .exactInf false
  | .fin _ m => zeroOrExact false m
  | .nan _ _ => .invalid

/-- `compute` of `fneg` (rule R134). -/
def negOf : FpVal → ArithOut
  | .inf s => .exactInf (!s)
  | .fin s m => zeroOrExact (!s) m
  | .nan _ _ => .invalid

/-- `compute` of `finv` (rule R135). -/
def invOf : FpVal → ArithOut
  | .inf s => .exactZero s
  | .fin s m => if m = 0 then .divZero s else .exact s (1 / m)
  | .nan _ _ => .invalid

/-- A one-operand `compute` on the list of decoded operands. -/
def onOne (g : FpVal → ArithOut) : List FpVal → ArithOut
  | [a] => g a
  | _ => .invalid

/-- `round`, opcode 0x100 (rule R130). -/
def execRound (f : Bool) (d : Operand) (s : State) : Host.Outcome State Fault Refusal :=
  s.settle (arith false (fun _ => onOne (integralOf .halfUp)) f d [] s)

/-- `ceil`, opcode 0x101 (rule R131). -/
def execCeil (f : Bool) (d : Operand) (s : State) : Host.Outcome State Fault Refusal :=
  s.settle (arith false (fun _ => onOne (integralOf .up)) f d [] s)

/-- `floor`, opcode 0x102 (rule R132). -/
def execFloor (f : Bool) (d : Operand) (s : State) : Host.Outcome State Fault Refusal :=
  s.settle (arith false (fun _ => onOne (integralOf .down)) f d [] s)

/-- `fabs`, opcode 0x103 (rule R133). -/
def execFabs (f : Bool) (d : Operand) (s : State) : Host.Outcome State Fault Refusal :=
  s.settle (arith false (fun _ => onOne absOf) f d [] s)

/-- `fneg`, opcode 0x104 (rule R134). -/
def execFneg (f : Bool) (d : Operand) (s : State) : Host.Outcome State Fault Refusal :=
  s.settle (arith false (fun _ => onOne negOf) f d [] s)

/-- `finv`, opcode 0x105 (rule R135). -/
def execFinv (f : Bool) (d : Operand) (s : State) : Host.Outcome State Fault Refusal :=
  s.settle (arith true (fun _ => onOne invOf) f d [] s)

/-! Two operands. -/

/-- `compute` of `fadd` (rule R136). -/
def addOf (mode : RoundMode) : FpVal → FpVal → ArithOut
  | .inf s1, .inf s2 => if s1 = s2 then .exactInf s1 else .invalid
  | .inf s1, .fin _ _ => .exactInf s1
  | .fin _ _, .inf s2 => .exactInf s2
  | .fin s1 m1, .fin s2 m2 => sumOut mode s1 s2 (signed s1 m1 + signed s2 m2)
  | .nan _ _, _ => .invalid
  | _, .nan _ _ => .invalid

/-- A value with its sign inverted (rule R137). -/
def negate : FpVal → FpVal
  | .inf s => .inf (!s)
  | .fin s m => .fin (!s) m
  | .nan s t => .nan s t

/-- `compute` of `fsub` (rule R137). -/
def subOf (mode : RoundMode) (a b : FpVal) : ArithOut := addOf mode a (negate b)

/-- `compute` of `fmul` (rule R138). -/
def mulOf : FpVal → FpVal → ArithOut
  | .inf s1, .inf s2 => .exactInf (xor s1 s2)
  | .inf s1, .fin s2 m2 => if m2 = 0 then .invalid else .exactInf (xor s1 s2)
  | .fin s1 m1, .inf s2 => if m1 = 0 then .invalid else .exactInf (xor s1 s2)
  | .fin s1 m1, .fin s2 m2 => zeroOrExact (xor s1 s2) (m1 * m2)
  | .nan _ _, _ => .invalid
  | _, .nan _ _ => .invalid

/-- `compute` of `fdiv` (rules R126, R139). -/
def divOf : FpVal → FpVal → ArithOut
  | .inf _, .inf _ => .invalid
  | .inf s1, .fin s2 _ => .exactInf (xor s1 s2)
  | .fin s1 _, .inf s2 => .exactZero (xor s1 s2)
  | .fin s1 m1, .fin s2 m2 =>
    if m2 = 0 then (if m1 = 0 then .invalid else .divZero (xor s1 s2))
    else zeroOrExact (xor s1 s2) (m1 / m2)
  | .nan _ _, _ => .invalid
  | _, .nan _ _ => .invalid

/-- The remainder of two finite magnitudes, the second above zero, by `FREM_KIND` (rule R140): the quotient is
truncated, or rounded to nearest with ties to even (the IEEE 754 remainder, whose sign may change). -/
def remFinite (kind : FremKind) (s1 : Bool) (m1 m2 : Rat) : ArithOut :=
  match kind with
  | .truncating => zeroOrExact s1 (m1 - m2 * ((m1 / m2).floor : Rat))
  | .nearestEven =>
    let r := m1 - m2 * (roundInt (m1 / m2) false .halfEven : Rat)
    if r < 0 then .exact (!s1) (-r) else zeroOrExact s1 r

/-- `compute` of `frem` (rules R125, R140). -/
def remOf (kind : FremKind) : FpVal → FpVal → ArithOut
  | .inf _, .inf _ => .invalid
  | .inf _, .fin _ _ => .invalid
  | .fin s1 m1, .inf _ => zeroOrExact s1 m1
  | .fin s1 m1, .fin _ m2 => if m2 = 0 then .invalid else remFinite kind s1 m1 m2
  | .nan _ _, _ => .invalid
  | _, .nan _ _ => .invalid

/-- A two-operand `compute` on the list of decoded operands. -/
def onTwo (g : FpVal → FpVal → ArithOut) : List FpVal → ArithOut
  | [a, b] => g a b
  | _ => .invalid

/-- `fadd`, opcode 0x106 (rule R136). -/
def execFadd (f : Bool) (d src : Operand) (s : State) : Host.Outcome State Fault Refusal :=
  s.settle (arith true (fun mode => onTwo (addOf mode)) f d [src] s)

/-- `fsub`, opcode 0x107 (rule R137). -/
def execFsub (f : Bool) (d src : Operand) (s : State) : Host.Outcome State Fault Refusal :=
  s.settle (arith true (fun mode => onTwo (subOf mode)) f d [src] s)

/-- `fmul`, opcode 0x108 (rule R138). -/
def execFmul (f : Bool) (d src : Operand) (s : State) : Host.Outcome State Fault Refusal :=
  s.settle (arith true (fun _ => onTwo mulOf) f d [src] s)

/-- `fdiv`, opcode 0x109 (rule R139). -/
def execFdiv (f : Bool) (d src : Operand) (s : State) : Host.Outcome State Fault Refusal :=
  s.settle (arith true (fun _ => onTwo divOf) f d [src] s)

/-- `frem`, opcode 0x10a (rule R140). -/
def execFrem (f : Bool) (d src : Operand) (s : State) : Host.Outcome State Fault Refusal :=
  s.settle (arith true (fun _ => onTwo (remOf s.impl.fremKind)) f d [src] s)

/-! Three operands. -/

/-- `compute` of `fma` (rule R141): the product is not rounded before the addition. -/
def fmaOf (mode : RoundMode) (a b c : FpVal) : ArithOut :=
  match mulOf a b with
  | .exactInf ps =>
    match c with
    | .inf s3 => if s3 = ps then .exactInf ps else .invalid
    | .fin _ _ => .exactInf ps
    | .nan _ _ => .invalid
  | .exactZero ps =>
    match c with
    | .inf s3 => .exactInf s3
    | .fin s3 m3 => sumOut mode ps s3 (signed s3 m3)
    | .nan _ _ => .invalid
  | .exact ps m =>
    match c with
    | .inf s3 => .exactInf s3
    | .fin s3 m3 => sumOut mode ps s3 (signed ps m + signed s3 m3)
    | .nan _ _ => .invalid
  | .invalid => .invalid
  | .divZero _ => .invalid

/-- A three-operand `compute` on the list of decoded operands. -/
def onThree (g : FpVal → FpVal → FpVal → ArithOut) : List FpVal → ArithOut
  | [a, b, c] => g a b c
  | _ => .invalid

/-- `fma`, opcode 0x10b (rule R141). -/
def execFma (f : Bool) (d src1 src2 : Operand) (s : State) : Host.Outcome State Fault Refusal :=
  s.settle (arith true (fun mode => onThree (fmaOf mode)) f d [src1, src2] s)

end Sys2Proof.Machine
end

