-- ==== Sys2Proof/Machine/Comparisons.lean ====
section
/-! DEFINITION. The comparisons, opcodes 0x118 and 0x119 (`44_fp_comparisons.md`). They write flags only, and
`fpcrw.RND` and `fpcrw.DENORM` play no part (rule R152). -/

namespace Sys2Proof.Machine

/-- Two exact values in order. -/
def compareRat (x y : Rat) : CmpOutcome := if x < y then .less else if x = y then .equal else .greater

/-- `Compare(x, y)` (rule R152). -/
def compareFp : FpVal → FpVal → CmpOutcome
  | .nan _ _, _ => .unordered
  | _, .nan _ _ => .unordered
  | .inf s1, .inf s2 => if s1 = s2 then .equal else if s1 then .less else .greater
  | .inf s1, .fin _ _ => if s1 then .less else .greater
  | .fin _ _, .inf s2 => if s2 then .greater else .less
  | .fin s1 m1, .fin s2 m2 => compareRat (signed s1 m1) (signed s2 m2)

/-- Recording the outcome of a comparison. -/
def commitCmp (o : CmpOutcome) (s : State) : Except Stop State := .ok (s.setFlagsCmp o)

/-- SIGNAL when some operand is a signalling NaN (rule R156). -/
def signalIf (b : Bool) : List FpExc := if b then [.signal] else []

/-- `fcmpz`, opcode 0x118: `+0.0` is the first operand of the comparison (rule R153). -/
def execFcmpz (a : Operand) (s : State) : Host.Outcome State Fault Refusal :=
  s.settle
    (match fpCommonChecks s (fcmpzConstraint a) false [(a, [.read])] with
    | .error e => .error e
    | .ok _ =>
      match s.readOp a with
      | .error e => .error e
      | .ok b =>
        let F := formatOf (opSize a)
        s.finish (signalIf (isSignalling s.impl.signalling F b))
          (commitCmp (compareFp (.fin false 0) (decodeFp F b))))

/-- `fcmp`, opcode 0x119 (rule R154). -/
def execFcmp (a b : Operand) (s : State) : Host.Outcome State Fault Refusal :=
  s.settle
    (match fpCommonChecks s (fcmpConstraint a b) false [(a, [.read]), (b, [.read])] with
    | .error e => .error e
    | .ok _ =>
      match s.readOp a with
      | .error e => .error e
      | .ok ba =>
        match s.readOp b with
        | .error e => .error e
        | .ok bb =>
          let Fa := formatOf (opSize a)
          let Fb := formatOf (opSize b)
          s.finish (signalIf (isSignalling s.impl.signalling Fa ba || isSignalling s.impl.signalling Fb bb))
            (commitCmp (compareFp (decodeFp Fa ba) (decodeFp Fb bb))))

end Sys2Proof.Machine
end

