-- ==== Sys2Proof/Machine/ExceptionTriggers.lean ====
section
/-! DEFINITION. The two instructions that raise previously masked floating-point exceptions, opcodes 0x130 and
0x131 (`45_fp_exception_triggers.md`). They write nothing and do not test `XOPSS` (rule R160). -/

namespace Sys2Proof.Machine

/-- The six defined floating-point exceptions (rule R18). -/
def allExcs : List FpExc := [.invalid, .divByZero, .overflow, .underflow, .inexact, .signal]

/-- An undefined exception bit is set in `fpcrw.EXCEPT`: bit 14 or 15 (rules R18, R160). -/
def State.undefinedExcept (s : State) : Bool := s.fpcrw.getLsbD 14 || s.fpcrw.getLsbD 15

/-- What the two instructions share: a trap exactly when some exception is asserted and not masked, by the given
masking (rules R160 to R162). -/
def triggerExcept (masked : State → FpExc → Bool) (s : State) : Except Stop State :=
  if !s.fpen then .error (.raise .und)
  else if s.undefinedExcept then .error (.raise .und)
  else if allExcs.any (fun x => s.asserted x && !masked s x) then .error (.raise s.fpTrap)
  else .ok s.advance

/-- `fraiseexcept`, opcode 0x130 (rule R161). -/
def execFraiseexcept (s : State) : Host.Outcome State Fault Refusal := s.settle (triggerExcept State.masked s)

/-- `ftriggerexcept`, opcode 0x131: `EMASKALL` is ignored (rule R162). -/
def execFtriggerexcept (s : State) : Host.Outcome State Fault Refusal :=
  s.settle (triggerExcept State.maskedNoAll s)

end Sys2Proof.Machine
end

