-- ==== Sys2Proof/Machine/Dispatch.lean ====
section
/-! DEFINITION. One arm per instruction, each a call of its meaning. -/

namespace Sys2Proof.Machine

def exec (i : Instr) (s : State) : Host.Outcome State Fault Refusal :=
  match i with
  | .movsif f d src => Sys2Proof.Machine.execMovsif f d src s
  | .movxf ss ib f d src => Sys2Proof.Machine.execMovxf ss ib f d src s
  | .movfsi f d src => Sys2Proof.Machine.execMovfsi f d src s
  | .movfx ss ib f d src => Sys2Proof.Machine.execMovfx ss ib f d src s
  | .cvtf f d src => Sys2Proof.Machine.execCvtf f d src s
  | .round f d => Sys2Proof.Machine.execRound f d s
  | .ceil f d => Sys2Proof.Machine.execCeil f d s
  | .floor f d => Sys2Proof.Machine.execFloor f d s
  | .fabs f d => Sys2Proof.Machine.execFabs f d s
  | .fneg f d => Sys2Proof.Machine.execFneg f d s
  | .finv f d => Sys2Proof.Machine.execFinv f d s
  | .fadd f d src => Sys2Proof.Machine.execFadd f d src s
  | .fsub f d src => Sys2Proof.Machine.execFsub f d src s
  | .fmul f d src => Sys2Proof.Machine.execFmul f d src s
  | .fdiv f d src => Sys2Proof.Machine.execFdiv f d src s
  | .frem f d src => Sys2Proof.Machine.execFrem f d src s
  | .fma f d src1 src2 => Sys2Proof.Machine.execFma f d src1 src2 s
  | .fcmpz a => Sys2Proof.Machine.execFcmpz a s
  | .fcmp a b => Sys2Proof.Machine.execFcmp a b s
  | .fraiseexcept => Sys2Proof.Machine.execFraiseexcept s
  | .ftriggerexcept => Sys2Proof.Machine.execFtriggerexcept s

end Sys2Proof.Machine
end

