-- ==== Sys2Proof/Machine/Fetch.lean ====
section
/-! DEFINITION. Fetching an entry of the program and running it: what the decoder delivers goes to `exec`, what it
rejects gets the exception or the refusal the spec gives it (rules R12, R57, R70, R72, R80). -/

namespace Sys2Proof.Machine

/-- The refusal of a form of one of the 21 instructions that the decoder rejects; with `cr0.FPEN = 0` each of them
raises UND first (rules R57 c, R80 step 1). -/
def refusedForm (s : State) (r : Refusal) : Host.Outcome State Fault Refusal :=
  if s.fpen then .refused r else .next (s.raise .und)

/-- A raw operand names a reserved register, 19 with `cr0.FPEN = 0` among them (rules R12, R62). -/
def namesReserved (s : State) : RawOperand → Bool
  | .reg n _ => isReservedNumber s n
  | .mem _ _ => false
  | .imm _ _ _ => false

/-- What a rejected entry does, by its operands. An undefined opcode of the extension raises UND (rule R57 a). A base
opcode 0x001 to 0x007 raises UND when it names a floating-point register (rule R70) or a reserved one (rules R12,
R177), and has no meaning otherwise. An opcode outside the extension is refused when it names a floating-point
register (rule R72: "it neither raises UND nor computes"; DESIGN CHOICE that this comes before rule R12, log entry
48), raises UND when it names a reserved register (rules R12, R177, R201), and has no meaning otherwise
(rule R57 b). Opcodes 0x01b and 0x01f are among these: that they raise UND on a reserved register, and not the PROT that
rule R178 quotes of them, is a DESIGN CHOICE too (log entry 48). -/
def rejected (s : State) (operands : List RawOperand) : DecodeError → Host.Outcome State Fault Refusal
  | .outsideExtension n =>
    if !operands.any RawOperand.isFpReg && operands.any (namesReserved s) then .next (s.raise .und)
    else .refused (.outsideExtension n)
  | .undefinedOpcode _ => .next (s.raise .und)
  | .baseOpcode _ =>
    if operands.any RawOperand.isFpReg || operands.any (namesReserved s) then .next (s.raise .und)
    else .refused .baseSemantics
  | .reservedH => refusedForm s .reservedH
  | .operandSize => refusedForm s .operandSize
  | .immediateForm => refusedForm s .immediateForm
  | .operandCount => refusedForm s .operandCount

/-- Running one entry of the program. -/
def runEntry (e : Entry) (s : State) : Host.Outcome State Fault Refusal :=
  match e with
  | .word x =>
    match decode x with
    | .ok i => exec i s
    | .error err => rejected s x.operands err
  | .base m operands => execBase m operands s

/-- One step: a run that an exception has ended stays ended (rule R180), a program that is exhausted is done
(rule R205), and otherwise the entry that `ip` names runs (rule R26). -/
def stepOnce (s : State) : Host.Outcome State Fault Refusal :=
  match s.trapped with
  | some x => .fault (.runEnded x)
  | none =>
    match s.program[s.ip]? with
    | none => .fault .done
    | some e => runEntry e s

/-- The program with an entry put where `ip` names it, and filled up with the same entry before it where it is
shorter. -/
def placeEntry (program : List Entry) (ip : Nat) (e : Entry) : List Entry :=
  program.take ip ++ List.replicate (ip - program.length) e ++ e :: program.drop (ip + 1)

/-- The state with an encoded instruction placed where the next step fetches, and the run not ended. -/
def State.withEntry (s : State) (e : Entry) : State :=
  { s with program := placeEntry s.program s.ip e, trapped := none }

end Sys2Proof.Machine
end

