-- ==== Sys2Proof/Machine/Step.lean ====
section
/-! DEFINITION. The step, and the placing of one instruction where the step fetches. -/

namespace Sys2Proof.Machine

/-- One step of the machine. -/
def step (s : State) : Host.Outcome State Fault Refusal := stepOnce s

/-- The state with the instruction of an opcode table row, its operands of zeros, stored where the next step
fetches it. -/
def State.withFetchWord (s : State) (nbits w : Nat) : State := s.withEntry (.word (tableEntry nbits w))

end Sys2Proof.Machine
end

