-- ==== Sys2Proof/Safety.lean ====
section
/-! DEFINITION. What claims about the machine are stated in: its invariant, the conditions under which an
instruction completes, and the state it then leaves. -/

namespace Sys2Proof.Machine

/-- Every listed byte lies in the physical address space of `2 ^ addrWidth` bytes (rule R40). -/
def memInSpace (s : State) : Bool := s.mem.all (fun c => decide (c.1 < 2 ^ s.impl.addrWidth))

/-- The invariant: memory and the general registers are canonical, memory lies in the address space, and the
conformance bit `cpuex2.FP` is set (rules R2, R24, R40). -/
def State.Inv (s : State) : Prop :=
  Memory.wf s.mem = true ∧ cellsWf s.gpr = true ∧ memInSpace s = true ∧ s.conforms = true

/-- What no instruction of the extension writes: `cr0`, `cpuex2`, the program, the parameters, and of `flags` the
mode bit `XM` and the unnamed bits (rules R22, R24, R25, R48, R185). -/
def SameControl (s t : State) : Prop :=
  t.cr0 = s.cr0 ∧ t.cpuex2 = s.cpuex2 ∧ t.program = s.program ∧ t.impl = s.impl ∧
    t.flags.xm = s.flags.xm ∧ t.flags.rest = s.flags.rest

/-- The three formats of the extension (rule R86). -/
def isFormat (F : Format) : Prop := F = binary16 ∨ F = binary32 ∨ F = binary64

/-- Every exception of a set is masked (rule R170). -/
def AllMasked (s : State) (e : List FpExc) : Prop := ∀ x, x ∈ e → s.masked x = true

/-- An operand can be written: a register always, memory where the access is permitted and no program text lies
(rules R43, R48, R61). -/
def Writable (s : State) : Operand → Prop
  | .reg _ _ => True
  | .mem ea z => ∃ pa, s.access ea z .write = .ok pa ∧ inText s.impl pa z.bytes = false
  | .imm _ _ _ => False

/-- The state with an operand holding a pattern (rule R61), where it can be written. -/
def stored (s : State) (d : Operand) (v : Word) : State :=
  match d with
  | .reg n z => s.writeReg n (z.truncate v)
  | .mem ea z =>
    match s.access ea z .write with
    | .ok pa => { s with mem := storeBytes s.impl.byteOrder s.mem pa z.bytes v }
    | .error _ => s
  | .imm _ _ _ => s

/-- The extension is enabled, `XOPSS` is not the reserved value, and every immediate is one the spec admits
(rules R12, R20, R58, R80). -/
def Enabled (s : State) (ops : List Operand) : Prop :=
  s.fpen = true ∧ s.xopss ≠ 3 ∧ ∀ o, o ∈ ops → o.wellFormed = true

/-- No operand is a supervisor register in the mode that refuses them (rule R80 step 5). -/
def Permitted (s : State) (ops : List Operand) : Prop :=
  s.flags.xm = false ∨ ∀ o, o ∈ ops → isSuper s.impl o = false

/-- The operands of a base instruction pass the checks that do not depend on memory: none is reserved, an immediate is
one the spec admits, and none is a supervisor register in the mode that refuses them (rules R12, R58, R71). -/
def BaseReady (s : State) (ops : List Operand) : Prop :=
  (∀ o, o ∈ ops → isReserved s o = false ∧ o.wellFormed = true) ∧ Permitted s ops

/-- The operands that a base instruction of rule R71 writes; which they are is PRESUMED (log entries 34 and 45). -/
def baseDestinations : BaseMnemonic → List Operand → List Operand
  | .mov, ops => ops.take 1
  | .test, _ => []
  | .cmp, _ => []
  | .cmpxchg, ops => ops.take 2
  | .xchg, ops => ops

/-- A base instruction that made the writes leading from `s` to `u` ended in `t`: `flags` holds what was written where
it is among them, else its condition flags alone may differ (rules R26, R71; log entry 34). -/
def BaseWrote (s u : State) (writesFlags : Bool) (t : State) : Prop :=
  t = { u with flags := t.flags, ip := s.ip + 1, draws := s.draws + 1 } ∧
    if writesFlags then t.flags = u.flags else t.flags.xm = s.flags.xm ∧ t.flags.rest = s.flags.rest

/-- A pattern is a quiet NaN of a format, of the given sign (rules R93, R94). -/
def IsQuietNaN (rule : SignalRule) (F : Format) (sg : Bool) (b : Word) : Prop :=
  (∃ t, decodeFp F b = .nan sg t) ∧ isSignalling rule F b = false

/-- The state after an arithmetic instruction that delivered `b` and caused the exceptions `e`
(rules R128, R129, R171, R26). -/
def arithNext (s : State) (f : Bool) (d : Operand) (b : Word) (e : List FpExc) : State :=
  { stored s d b with
    fpcrw := assertExcs s.fpcrw e
    flags := if f then s.flags else
      { s.flags with
        n := signField (formatOf (opSize d)) b
        z := fpIsZero (formatOf (opSize d)) b
        p := parityOf s.impl.parity (formatOf (opSize d)) b }
    ip := s.ip + 1
    draws := s.draws + 1 }

/-- The state after a converting move that delivered the floating-point pattern `b` (rules R95, R104, R105, R108). -/
def moveFpNext (s : State) (f : Bool) (d : Operand) (b : Word) (e : List FpExc) : State :=
  { stored (s.record e) d b with
    flags := if f then s.flags else
      { s.flags with n := signField (formatOf (opSize d)) b, z := fpIsZero (formatOf (opSize d)) b }
    ip := s.ip + 1
    draws := s.draws + 1 }

/-- The state after a converting move that delivered the integer `r` (rules R106, R107). -/
def moveIntNext (s : State) (f : Bool) (d : Operand) (r : Int) (e : List FpExc) : State :=
  { stored (s.record e) d ((opSize d).ofInt r) with
    flags := if f then s.flags else { s.flags with n := decide (r < 0), z := decide (r = 0) }
    ip := s.ip + 1
    draws := s.draws + 1 }

/-- The state after a comparison whose outcome has the flags `c` (rules R150, R155). -/
def cmpNext (s : State) (c : CmpFlags) (e : List FpExc) : State :=
  { s with
    fpcrw := assertExcs s.fpcrw e
    flags := { s.flags with n := c.n, z := c.z, c := c.c, p := c.p }
    ip := s.ip + 1
    draws := s.draws + 1 }

/-- The state a floating-point trap leaves, where the instruction would have gone to `t`: FPE, or PROT where
`cr0.FPEXCPT` is clear, over the state before it with the new `EXCEPT` bits (rules R172 to R174); with
`FP_TRAP_WRITES_RESULT` the result and the flags are those of `t`. -/
def trapNext (s : State) (e : List FpExc) (t : State) : State :=
  if s.impl.trapWritesResult then
    { t with ip := s.ip, draws := s.draws, trapped := some (if s.fpexcpt then .fpe else .prot) }
  else { s with fpcrw := assertExcs s.fpcrw e, trapped := some (if s.fpexcpt then .fpe else .prot) }

/-- An instruction that caused the exceptions `e` ends: in `t` where every one of them is masked, and in the
floating-point trap where one is not (rules R170, R172 to R174). -/
def EndsIn (s : State) (i : Instr) (e : List FpExc) (t : State) : Prop :=
  (AllMasked s e → exec i s = .next t) ∧ (¬ AllMasked s e → exec i s = .next (trapNext s e t))

/-- The intermediate format of an arithmetic instruction on the given operands (rule R122). -/
def intermediateOf (s : State) (ops : List Operand) : Format :=
  intermediateFormat s.impl (largestFormat ops) s.xopssFormat

/-- The `f` bit, the destination and the other operands of an arithmetic instruction (rule R120). -/
def arithParts : Instr → Option (Bool × Operand × List Operand)
  | .round f d => some (f, d, [])
  | .ceil f d => some (f, d, [])
  | .floor f d => some (f, d, [])
  | .fabs f d => some (f, d, [])
  | .fneg f d => some (f, d, [])
  | .finv f d => some (f, d, [])
  | .fadd f d a => some (f, d, [a])
  | .fsub f d a => some (f, d, [a])
  | .fmul f d a => some (f, d, [a])
  | .fdiv f d a => some (f, d, [a])
  | .frem f d a => some (f, d, [a])
  | .fma f d a b => some (f, d, [a, b])
  | .movsif _ _ _ => none
  | .movxf _ _ _ _ _ => none
  | .movfsi _ _ _ => none
  | .movfx _ _ _ _ _ => none
  | .cvtf _ _ _ => none
  | .fcmpz _ => none
  | .fcmp _ _ => none
  | .fraiseexcept => none
  | .ftriggerexcept => none

/-- The `f` bit, the destination and the source of a converting move (rule R100). -/
def moveParts : Instr → Option (Bool × Operand × Operand)
  | .movsif f d a => some (f, d, a)
  | .movxf _ _ f d a => some (f, d, a)
  | .movfsi f d a => some (f, d, a)
  | .movfx _ _ f d a => some (f, d, a)
  | .cvtf f d a => some (f, d, a)
  | .round _ _ => none
  | .ceil _ _ => none
  | .floor _ _ => none
  | .fabs _ _ => none
  | .fneg _ _ => none
  | .finv _ _ => none
  | .fadd _ _ _ => none
  | .fsub _ _ _ => none
  | .fmul _ _ _ => none
  | .fdiv _ _ _ => none
  | .frem _ _ _ => none
  | .fma _ _ _ _ => none
  | .fcmpz _ => none
  | .fcmp _ _ => none
  | .fraiseexcept => none
  | .ftriggerexcept => none

/-- The operand constraint of a converting move (rule R101). -/
def moveVerdict (s : State) : Instr → Verdict
  | .movsif _ d a => toFpConstraint s d a
  | .movxf _ _ _ d a => toFpConstraint s d a
  | .movfsi _ d a => fromFpConstraint s d a
  | .movfx _ _ _ d a => fromFpConstraint s d a
  | .cvtf _ d a => cvtfConstraint s d a
  | .round _ _ => .und
  | .ceil _ _ => .und
  | .floor _ _ => .und
  | .fabs _ _ => .und
  | .fneg _ _ => .und
  | .finv _ _ => .und
  | .fadd _ _ _ => .und
  | .fsub _ _ _ => .und
  | .fmul _ _ _ => .und
  | .fdiv _ _ _ => .und
  | .frem _ _ _ => .und
  | .fma _ _ _ _ => .und
  | .fcmpz _ => .und
  | .fcmp _ _ => .und
  | .fraiseexcept => .und
  | .ftriggerexcept => .und

/-- The instructions whose result may have to be rounded by `fpcrw.RND`; the others have a result that is always
representable, or none (rules R16, R106, R130 to R134, R152, R160). -/
def roundsByRnd : Instr → Bool
  | .movsif _ _ _ => true
  | .movxf _ _ _ _ _ => true
  | .movfsi _ _ _ => false
  | .movfx _ _ _ _ _ => true
  | .cvtf _ _ _ => true
  | .round _ _ => false
  | .ceil _ _ => false
  | .floor _ _ => false
  | .fabs _ _ => false
  | .fneg _ _ => false
  | .finv _ _ => true
  | .fadd _ _ _ => true
  | .fsub _ _ _ => true
  | .fmul _ _ _ => true
  | .fdiv _ _ _ => true
  | .frem _ _ _ => true
  | .fma _ _ _ _ => true
  | .fcmpz _ => false
  | .fcmp _ _ => false
  | .fraiseexcept => false
  | .ftriggerexcept => false

/-- A zero times an infinity, in either order (rule R125). -/
def ZeroTimesInf : FpVal → FpVal → Prop
  | .fin _ m, .inf _ => m = 0
  | .inf _, .fin _ m => m = 0
  | _, _ => False

/-- A product that is an infinity of the given sign: an infinite factor and no zero factor (rule R141). -/
def InfiniteProduct (ps : Bool) : FpVal → FpVal → Prop
  | .inf s1, .inf s2 => ps = xor s1 s2
  | .inf s1, .fin s2 m => m ≠ 0 ∧ ps = xor s1 s2
  | .fin s1 m, .inf s2 => m ≠ 0 ∧ ps = xor s1 s2
  | _, _ => False

/-- The operation is one the spec calls INVALID on these operands, none of them a NaN (rule R125). -/
def InvalidOperands : Instr → List FpVal → Prop
  | .fadd _ _ _, [.inf s1, .inf s2] => s1 ≠ s2
  | .fsub _ _ _, [.inf s1, .inf s2] => s1 = s2
  | .fmul _ _ _, [a, b] => ZeroTimesInf a b
  | .fdiv _ _ _, [.fin _ m1, .fin _ m2] => m1 = 0 ∧ m2 = 0
  | .fdiv _ _ _, [.inf _, .inf _] => True
  | .frem _ _ _, [.inf _, .inf _] => True
  | .frem _ _ _, [.inf _, .fin _ _] => True
  | .frem _ _ _, [.fin _ _, .fin _ m2] => m2 = 0
  | .fma _ _ _ _, [a, b, .fin _ _] => ZeroTimesInf a b
  | .fma _ _ _ _, [a, b, .inf s3] => ZeroTimesInf a b ∨ InfiniteProduct (!s3) a b
  | _, _ => False

/-! Operand forms (rules R62, R101, R121, R151). -/

/-- A floating-point register at one of the sizes that have a format. -/
def FpReg (o : Operand) : Prop := ∃ n z, o = .reg n z ∧ 24 ≤ n ∧ n ≤ 31 ∧ z ≠ .b1

/-- A memory reference at one of the sizes that have a format. -/
def FpMem (o : Operand) : Prop := ∃ ea z, o = .mem ea z ∧ z ≠ .b1

/-- A long immediate at one of the sizes that have a format. -/
def FpImm (o : Operand) : Prop := ∃ v z, o = .imm v z true ∧ z ≠ .b1

/-- An operand that can be read as a floating-point value. -/
def FpOperand (o : Operand) : Prop := FpReg o ∨ FpMem o ∨ FpImm o

/-- The operands an arithmetic instruction admits (rule R121). -/
def ArithLegal (d : Operand) (others : List Operand) : Prop :=
  (FpReg d ∨ FpMem d) ∧ (∀ o, o ∈ others → FpOperand o) ∧ ∃ o, o ∈ d :: others ∧ FpReg o

/-- What the integer side of `movsif` and `movxf` admits (rule R101). -/
def IntSource (s : State) (o : Operand) : Prop :=
  (∃ n z, o = .reg n z ∧ isReserved s o = false) ∨ (∃ ea z, o = .mem ea z) ∨ ∃ v z, o = .imm v z true

/-- What the integer side of `movfsi` and `movfx` admits: neither `flags` nor `ip` (rule R101). -/
def IntTarget (s : State) (o : Operand) : Prop :=
  (∃ n z, o = .reg n z ∧ isReserved s o = false ∧ regClass s.impl n ≠ .flags ∧ regClass s.impl n ≠ .ip) ∨
    ∃ ea z, o = .mem ea z

/-- The operands a converting move admits by the strict reading (rule R101). -/
def MoveLegal (s : State) : Instr → Prop
  | .movsif _ d a => FpReg d ∧ IntSource s a
  | .movxf _ _ _ d a => FpReg d ∧ IntSource s a
  | .movfsi _ d a => FpReg a ∧ IntTarget s d
  | .movfx _ _ _ d a => FpReg a ∧ IntTarget s d
  | .cvtf _ d a => (FpReg d ∧ FpOperand a) ∨ (FpMem d ∧ FpReg a)
  | .round _ _ => False
  | .ceil _ _ => False
  | .floor _ _ => False
  | .fabs _ _ => False
  | .fneg _ _ => False
  | .finv _ _ => False
  | .fadd _ _ _ => False
  | .fsub _ _ _ => False
  | .fmul _ _ _ => False
  | .fdiv _ _ _ => False
  | .frem _ _ _ => False
  | .fma _ _ _ _ => False
  | .fcmpz _ => False
  | .fcmp _ _ => False
  | .fraiseexcept => False
  | .ftriggerexcept => False

/-- The operands that only the loose reading of a converting move's constraint admits: memory where `movsif` and
`movxf` want a floating-point register, memory or a long immediate where `movfsi` and `movfx` do (rule R101, U13). -/
def MoveLoose (s : State) : Instr → Prop
  | .movsif _ d a => FpMem d ∧ IntSource s a
  | .movxf _ _ _ d a => FpMem d ∧ IntSource s a
  | .movfsi _ d a => (FpMem a ∨ FpImm a) ∧ IntTarget s d
  | .movfx _ _ _ d a => (FpMem a ∨ FpImm a) ∧ IntTarget s d
  | .cvtf _ _ _ => False
  | .round _ _ => False
  | .ceil _ _ => False
  | .floor _ _ => False
  | .fabs _ _ => False
  | .fneg _ _ => False
  | .finv _ _ => False
  | .fadd _ _ _ => False
  | .fsub _ _ _ => False
  | .fmul _ _ _ => False
  | .fdiv _ _ _ => False
  | .frem _ _ _ => False
  | .fma _ _ _ _ => False
  | .fcmpz _ => False
  | .fcmp _ _ => False
  | .fraiseexcept => False
  | .ftriggerexcept => False

/-- The verdict of an instruction's operand constraint (rules R101, R121, R151); the two triggers have none. -/
def operandVerdict (s : State) : Instr → Verdict
  | .movsif _ d a => toFpConstraint s d a
  | .movxf _ _ _ d a => toFpConstraint s d a
  | .movfsi _ d a => fromFpConstraint s d a
  | .movfx _ _ _ d a => fromFpConstraint s d a
  | .cvtf _ d a => cvtfConstraint s d a
  | .round _ d => arithConstraint d []
  | .ceil _ d => arithConstraint d []
  | .floor _ d => arithConstraint d []
  | .fabs _ d => arithConstraint d []
  | .fneg _ d => arithConstraint d []
  | .finv _ d => arithConstraint d []
  | .fadd _ d a => arithConstraint d [a]
  | .fsub _ d a => arithConstraint d [a]
  | .fmul _ d a => arithConstraint d [a]
  | .fdiv _ d a => arithConstraint d [a]
  | .frem _ d a => arithConstraint d [a]
  | .fma _ d a b => arithConstraint d [a, b]
  | .fcmpz a => fcmpzConstraint a
  | .fcmp a b => fcmpConstraint a b
  | .fraiseexcept => .admitted
  | .ftriggerexcept => .admitted

/-- How an instruction accesses its operands, in the order of the checks (rules R45, R80 step 6). -/
def accessesOf : Instr → List Access
  | .movsif _ d a => [(d, [.write]), (a, [.read])]
  | .movxf _ _ _ d a => [(d, [.write]), (a, [.read])]
  | .movfsi _ d a => [(d, [.write]), (a, [.read])]
  | .movfx _ _ _ d a => [(d, [.write]), (a, [.read])]
  | .cvtf _ d a => [(d, [.write]), (a, [.read])]
  | .round _ d => [(d, [.read, .write])]
  | .ceil _ d => [(d, [.read, .write])]
  | .floor _ d => [(d, [.read, .write])]
  | .fabs _ d => [(d, [.read, .write])]
  | .fneg _ d => [(d, [.read, .write])]
  | .finv _ d => [(d, [.read, .write])]
  | .fadd _ d a => [(d, [.read, .write]), (a, [.read])]
  | .fsub _ d a => [(d, [.read, .write]), (a, [.read])]
  | .fmul _ d a => [(d, [.read, .write]), (a, [.read])]
  | .fdiv _ d a => [(d, [.read, .write]), (a, [.read])]
  | .frem _ d a => [(d, [.read, .write]), (a, [.read])]
  | .fma _ d a b => [(d, [.read, .write]), (a, [.read]), (b, [.read])]
  | .fcmpz a => [(a, [.read])]
  | .fcmp a b => [(a, [.read]), (b, [.read])]
  | .fraiseexcept => []
  | .ftriggerexcept => []

/-- The access is permitted: `s.access` answers a physical address. -/
def CanAccess (s : State) (ea : Word) (z : OpSize) (k : AccessKind) : Prop := ∃ pa, s.access ea z k = .ok pa

/-- Every memory operand of a list passes its checks (rule R80 step 6). -/
def AllAccess (s : State) (l : List Access) : Prop :=
  ∀ ea z ks, (Operand.mem ea z, ks) ∈ l → ∀ k, k ∈ ks → CanAccess s ea z k

/-- The conditions of an arithmetic instruction on its operands: the checks of rule R80 pass, `bs` is what the
operands hold, and the destination can be written. -/
def ArithReady (s : State) (d : Operand) (others : List Operand) (bs : List (Format × Word)) : Prop :=
  Enabled s (d :: others) ∧ arithConstraint d others = .admitted ∧ s.readOps (d :: others) = .ok bs ∧ Writable s d

/-- The conditions of a converting move on its operands: the checks of rule R80 pass, `w` is what the source holds,
and the destination can be written. -/
def MoveReady (s : State) (i : Instr) (d src : Operand) (w : Word) : Prop :=
  Enabled s [d, src] ∧ Permitted s [d, src] ∧ moveVerdict s i = .admitted ∧ s.readOp src = .ok w ∧ Writable s d

/-- The values of the operands an arithmetic instruction read (rule R87). -/
def operandValues (bs : List (Format × Word)) : List FpVal := bs.map (fun x => decodeFp x.1 x.2)

/-- An exact value delivered to the destination of an arithmetic instruction (rule R122). -/
def deliverTo (s : State) (mode : RoundMode) (d : Operand) (ops : List Operand) (v : Rat) : Word × List FpExc :=
  deliver s.impl.rangeCheck (decide (v < 0)) |v| (formatOf (opSize d)) (intermediateOf s ops) mode s.denorm

/-- An exact sign and magnitude delivered to the destination of an arithmetic instruction (rule R122). -/
def deliverSigned (s : State) (mode : RoundMode) (d : Operand) (ops : List Operand) (sg : Bool) (m : Rat) :
    Word × List FpExc :=
  deliver s.impl.rangeCheck sg m (formatOf (opSize d)) (intermediateOf s ops) mode s.denorm

/-- An arithmetic instruction that delivers a pattern and causes exceptions ends as `EndsIn` says (rule R129). -/
def CompletesWith (s : State) (i : Instr) (f : Bool) (d : Operand) (r : Word × List FpExc) : Prop :=
  EndsIn s i r.2 (arithNext s f d r.1 r.2)

/-- The sign of an exact zero sum of values with the two signs (rule R92). -/
def zeroSumSign (s : State) (s1 s2 : Bool) : Bool := if s1 = s2 then s1 else decide (s.rnd = 1)

/-- The place of a value among the infinities (rule R152). -/
def rankOf : FpVal → Int
  | .inf true => -1
  | .inf false => 1
  | .fin _ _ => 0
  | .nan _ _ => 0

/-- The finite part of a value (rule R152). -/
def finiteValue : FpVal → Rat
  | .fin sg m => signed sg m
  | .inf _ => 0
  | .nan _ _ => 0

/-- The outcome of comparing two values: unordered exactly when one is a NaN, else their numeric order, the
infinities outside every finite value (rule R152). -/
def HasOutcome (x y : FpVal) : CmpOutcome → Prop
  | .unordered => x.isNaN = true ∨ y.isNaN = true
  | .less => x.isNaN = false ∧ y.isNaN = false ∧
      (rankOf x < rankOf y ∨ (rankOf x = rankOf y ∧ finiteValue x < finiteValue y))
  | .equal => x.isNaN = false ∧ y.isNaN = false ∧ rankOf x = rankOf y ∧ finiteValue x = finiteValue y
  | .greater => x.isNaN = false ∧ y.isNaN = false ∧
      (rankOf y < rankOf x ∨ (rankOf x = rankOf y ∧ finiteValue y < finiteValue x))

/-- A magnitude that some pattern of the format holds (rules R87, R88). -/
def Representable (F : Format) (x : Rat) : Prop := ∃ b sg, decodeFp F b = .fin sg x

/-- `r`, held by the pattern `b`, is the magnitude that a mode makes of the magnitude `m` of a value of sign `sg`
(rule R16). -/
def CorrectlyRounded (F : Format) (sg : Bool) (mode : RoundMode) (m r : Rat) (b : Word) : Prop :=
  match mode with
  | .up => signed sg m ≤ signed sg r ∧ ∀ x, Representable F x → signed sg m ≤ signed sg x → signed sg r ≤ signed sg x
  | .down => signed sg r ≤ signed sg m ∧ ∀ x, Representable F x → signed sg x ≤ signed sg m → signed sg x ≤ signed sg r
  | .towardZero => r ≤ m ∧ ∀ x, Representable F x → x ≤ m → x ≤ r
  | .halfUp => ∀ x, Representable F x →
      |m - r| ≤ |m - x| ∧ (|m - r| = |m - x| → signed sg x ≤ signed sg r)
  | .halfEven => ∀ x, Representable F x →
      |m - r| ≤ |m - x| ∧ (|m - r| = |m - x| → x = r ∨ fracField F b % 2 = 0)

/-- The floating-point exceptions an instruction never causes: the entries "no" of the table of rule R175. The two
columns it marks D24 and D25 follow the parameter `DIVZERO_EXC` and stay open; an entry that depends on the operands is
not listed. -/
def neverCauses (impl : Impl) : Instr → List FpExc
  | .movsif _ _ _ => [.invalid, .divByZero, .underflow, .signal]
  | .movxf _ _ _ _ _ => [.invalid, .divByZero, .signal]
  | .movfsi _ _ _ => [.invalid, .divByZero, .underflow, .inexact]
  | .movfx _ _ _ _ _ => [.invalid, .divByZero, .underflow]
  | .cvtf _ _ _ => [.invalid, .divByZero, .signal]
  | .round _ _ => [.invalid, .divByZero, .overflow, .underflow, .inexact]
  | .ceil _ _ => [.invalid, .divByZero, .overflow, .underflow, .inexact]
  | .floor _ _ => [.invalid, .divByZero, .overflow, .underflow, .inexact]
  | .fabs _ _ => [.invalid, .divByZero, .overflow]
  | .fneg _ _ => [.invalid, .divByZero, .overflow]
  | .finv _ _ => if impl.divZero = .divByZero then [.invalid] else [.divByZero]
  | .fadd _ _ _ => [.divByZero]
  | .fsub _ _ _ => [.divByZero]
  | .fmul _ _ _ => [.divByZero]
  | .fdiv _ _ _ => if impl.divZero = .divByZero then [] else [.divByZero]
  | .frem _ _ _ => [.divByZero, .overflow]
  | .fma _ _ _ _ => [.divByZero]
  | .fcmpz _ => [.invalid, .divByZero, .overflow, .underflow, .inexact]
  | .fcmp _ _ => [.invalid, .divByZero, .overflow, .underflow, .inexact]
  | .fraiseexcept => [.invalid, .divByZero, .overflow, .underflow, .inexact, .signal]
  | .ftriggerexcept => [.invalid, .divByZero, .overflow, .underflow, .inexact, .signal]

/-- Every byte of memory outside what an instruction with destination `d` stores is unchanged: with a memory
destination at a permitted address, the bytes outside the operand; in every other form, all of memory. -/
def MemoryFrame (s t : State) (d : Operand) : Prop :=
  (∀ ea z pa, d = .mem ea z → s.access ea z .write = .ok pa →
      ∀ a, a < pa ∨ pa + z.bytes ≤ a → readByte t.mem a = readByte s.mem a) ∧
    (∀ ea z stop, d = .mem ea z → s.access ea z .write = .error stop →
      ∀ a, readByte t.mem a = readByte s.mem a) ∧
    ((∀ ea z, d ≠ .mem ea z) → ∀ a, readByte t.mem a = readByte s.mem a)

end Sys2Proof.Machine
end

