-- ==== Sys2Proof/Certificates/Slice0/Obligations.lean ====
section
/-! DEFINITION. The statements about the machine, for the provers. Each docstring names the rules it is taken from.
Where a clause rests on a decision of `92_eei_decisions.md` or on a choice of this model, the docstring says so. A
parameter of rule R5 is a field of `State.impl`, so a statement about every state holds for every value of it. -/

open Sys2Proof Sys2Proof.Machine

/-! Encoding. -/

/-- Decoding an encoded well-formed instruction gives it back, with every operand and every bit of `h` (rules R51 to
R56, R58, R59; the word layout is decision D5). -/
def Obligations.DecodeOfEncode : Prop :=
  ∀ i : Instr, i.wellFormed = true → decode (encode i) = .ok i

/-- Whatever decodes is the encoding of the instruction it decodes to, and that instruction is well formed: no two
entries stand for one instruction, and no bit of an accepted entry is dropped (decisions D5, D12, D32, D43). -/
def Obligations.EncodeOfDecode : Prop :=
  ∀ (e : Encoded) (i : Instr), decode e = .ok i → i.wellFormed = true ∧ encode i = e

/-- Words written out from the layout of rule R51: `fadd` with `f = 0` is 0x1060, `fraiseexcept` is 0x1300, `movfx`
with `ss = 2`, `i = 1`, `f = 0` is 0x025a, `fcmp` is 0x1190. -/
def Obligations.WordsDecode : Prop :=
  decode ⟨0x1060#16, [.reg 24 4, .reg 25 4]⟩ = .ok (.fadd false (.reg 24 .b4) (.reg 25 .b4)) ∧
  decode ⟨0x1300#16, []⟩ = .ok .fraiseexcept ∧
  decode ⟨0x025a#16, [.reg 3 2, .reg 24 8]⟩ = .ok (.movfx 2 true false (.reg 3 .b2) (.reg 24 .b8)) ∧
  decode ⟨0x1190#16, [.mem 0x40#64 8, .reg 31 2]⟩ = .ok (.fcmp (.mem 0x40#64 .b8) (.reg 31 .b2))

/-- Opcodes 0x10c to 0x10f raise UND (rule R57 a, decision D12); with `cr0.FPEN = 0` every opcode of rule R52 raises
UND, whatever its control bits and operands (rule R57 c); with `cr0.FPEN = 1` a nonzero reserved bit of `h` is
refused (rules R53, R55, R56, decisions D12, D32). Every other opcode, naming no floating-point register: UND when an
operand is a reserved register, 19 with `cr0.FPEN = 0` among them (rules R12, R177, R201, decision D36), else a
refusal, since the source does not say what it does; naming one, an opcode outside the extension is refused (rule
R72). That `IsReservedReg` reaches these opcodes, that rule R72 comes before rule R12, and that 0x01b and 0x01f, of which
the source says PROT for loading a value other than 0 into a reserved register (rule R178), raise UND like the others
are the model's choice (log entries 35 and 48). -/
def Obligations.UndefinedOpcodesAndForms : Prop :=
  ∀ (s : State) (e : Encoded), s.trapped = none → s.program[s.ip]? = some (.word e) →
    (0x10c ≤ opcodeField e.first → opcodeField e.first ≤ 0x10f → step s = .next (s.raise .und)) ∧
    (∀ row, opcodeRow (opcodeField e.first) = some row →
      (s.fpen = false → step s = .next (s.raise .und)) ∧
      (s.fpen = true → (row.layout = .h00f ∧ 2 ≤ hField e.first) ∨ (row.layout = .h0 ∧ hField e.first ≠ 0) →
        step s = .refused .reservedH)) ∧
    (opcodeRow (opcodeField e.first) = none → ¬ (0x10c ≤ opcodeField e.first ∧ opcodeField e.first ≤ 0x10f) →
      ((¬ ∃ n z, RawOperand.reg n z ∈ e.operands ∧ 24 ≤ n ∧ n ≤ 31) →
        ((∃ n z, RawOperand.reg n z ∈ e.operands ∧
            ((n = 19 ∧ s.fpen = false) ∨ (n ≠ 19 ∧ n ∈ s.impl.reservedRegs))) → step s = .next (s.raise .und)) ∧
        ((¬ ∃ n z, RawOperand.reg n z ∈ e.operands ∧
            ((n = 19 ∧ s.fpen = false) ∨ (n ≠ 19 ∧ n ∈ s.impl.reservedRegs))) →
          step s = .refused (if 1 ≤ opcodeField e.first ∧ opcodeField e.first ≤ 7 then .baseSemantics
            else .outsideExtension (opcodeField e.first)))) ∧
      ((∃ n z, RawOperand.reg n z ∈ e.operands ∧ 24 ≤ n ∧ n ≤ 31) →
        ¬ (1 ≤ opcodeField e.first ∧ opcodeField e.first ≤ 7) →
        step s = .refused (.outsideExtension (opcodeField e.first))))

/-- A base opcode 0x001 to 0x007 with a floating-point register among its operands raises UND, whatever `cr0.FPEN`
is (rule R70). -/
def Obligations.BaseOpcodesRefuseFpRegisters : Prop :=
  ∀ (s : State) (e : Encoded), s.trapped = none → s.program[s.ip]? = some (.word e) →
    1 ≤ opcodeField e.first → opcodeField e.first ≤ 7 →
    (∃ n z, RawOperand.reg n z ∈ e.operands ∧ 24 ≤ n ∧ n ≤ 31) → step s = .next (s.raise .und)

/-! Steps and runs. -/

/-- A step runs the decoded instruction: where the entry that `ip` names decodes to `i`, the step is `exec i`, and
nothing is added around it (rules R26, R64). -/
def Obligations.StepRunsDecodedInstruction : Prop :=
  ∀ (s : State) (e : Encoded) (i : Instr), s.trapped = none → s.program[s.ip]? = some (.word e) →
    decode e = .ok i → step s = exec i s

/-- A run that an exception has ended stays ended, and a run whose program is exhausted is done (rules R180, R205,
decisions D9, D46). -/
def Obligations.EndedRunsStay : Prop :=
  ∀ s : State,
    (∀ x, s.trapped = some x → step s = .fault (.runEnded x)) ∧
    (s.trapped = none → s.program.length ≤ s.ip → step s = .fault .done)

/-- An instruction placed where the step fetches is the one the next step runs (the model's own interface, log
entries 1 and 3). -/
def Obligations.PlacedInstructionRuns : Prop :=
  ∀ (s : State) (e : Encoded) (i : Instr), decode e = .ok i →
    step (s.withEntry (.word e)) = exec i (s.withEntry (.word e)) ∧
      (s.withEntry (.word e)).ip = s.ip ∧ (s.withEntry (.word e)).mem = s.mem

/-! Startup and invariants. -/

/-- The control word, the enable bits and the conformance bit after startup (rules R24, R28, R30; `EMASK = 0xFF` is
decision D34, `cr0` decision D42). -/
def Obligations.StartupState : Prop :=
  State.reset.fpcrw = 0x01FF0014#64 ∧ State.reset.rnd = 4 ∧ State.reset.denorm = true ∧ State.reset.xopss = 0 ∧
  State.reset.emaskAll = true ∧
  (∀ x : FpExc, State.reset.asserted x = false ∧ State.reset.maskedNoAll x = true) ∧
  State.reset.fpen = false ∧ State.reset.fpexcpt = false ∧ (State.reset.readReg 17).getLsbD 17 = false ∧
  State.reset.conforms = true

/-- The machine after startup meets the invariant (rules R2, R24, R40; the canonical form is the model's). -/
def Obligations.ResetMeetsInvariant : Prop := State.reset.Inv

/-- Every step keeps the invariant: memory and the general registers stay canonical, no byte lies outside the
physical address space, and `cpuex2.FP` stays set (rules R24, R40; the canonical form is the model's). -/
def Obligations.StepKeepsInvariant : Prop :=
  ∀ s t : State, s.Inv → step s = .next t → t.Inv

/-! Checks before computing. -/

/-- With `cr0.FPEN = 0` every instruction of the extension raises UND (rules R22, R57 c). With `fpcrw.XOPSS = 3` every
converting move, arithmetic instruction and comparison raises UND (rules R20, R80); the forms that only the loose
reading of rule R101 admits are refused before that (decision D18, rule R80). -/
def Obligations.DisabledOrReservedXopssRaisesUnd : Prop :=
  (∀ (i : Instr) (s : State), s.fpen = false → exec i s = .next (s.raise .und)) ∧
  ∀ (i : Instr) (s : State), i ≠ .fraiseexcept → i ≠ .ftriggerexcept → i.wellFormed = true → s.fpen = true →
    s.xopss = 3 → operandVerdict s i ≠ .refused → exec i s = .next (s.raise .und)

/-- The operands of the arithmetic instructions: the forms of rule R121 are admitted, every other well-formed form
raises UND. -/
def Obligations.ArithmeticForms : Prop :=
  ∀ (i : Instr) (f : Bool) (d : Operand) (others : List Operand) (s : State),
    arithParts i = some (f, d, others) → i.wellFormed = true → s.fpen = true →
    (ArithLegal d others → arithConstraint d others = .admitted) ∧
    (¬ ArithLegal d others → exec i s = .next (s.raise .und))

/-- The operands of the converting moves: the forms that the strict reading of rule R101 admits are admitted, those
that only its loose reading admits are refused (decision D18, U13), and every other well-formed form raises UND. -/
def Obligations.ConvertingMoveForms : Prop :=
  ∀ (i : Instr) (f : Bool) (d src : Operand) (s : State),
    moveParts i = some (f, d, src) → i.wellFormed = true → s.fpen = true →
    (MoveLegal s i → moveVerdict s i = .admitted) ∧
    (MoveLoose s i → exec i s = .refused .looseForm) ∧
    (¬ MoveLegal s i → ¬ MoveLoose s i → exec i s = .next (s.raise .und))

/-- The operands of the comparisons: every well-formed form but those of rule R151 raises UND; that its 0x11e and
0x124 mean 0x118 and 0x119 is conflict C5. -/
def Obligations.ComparisonForms : Prop :=
  ∀ (a b : Operand) (s : State), s.fpen = true →
    (a.wellFormed = true →
      (FpOperand a → fcmpzConstraint a = .admitted) ∧
      (¬ FpOperand a → exec (.fcmpz a) s = .next (s.raise .und))) ∧
    (a.wellFormed = true → b.wellFormed = true →
      (FpOperand a ∧ FpOperand b ∧ ¬ (FpMem a ∧ FpMem b) → fcmpConstraint a b = .admitted) ∧
      (¬ (FpOperand a ∧ FpOperand b ∧ ¬ (FpMem a ∧ FpMem b)) → exec (.fcmp a b) s = .next (s.raise .und)))

/-- A converting move that names a supervisor register while `flags.XM = 1` raises PROT (rules R80 step 5, R178; the
place in the order of checks is decision D11). -/
def Obligations.SupervisorRegisterRaisesProt : Prop :=
  ∀ (i : Instr) (f : Bool) (d src : Operand) (s : State),
    moveParts i = some (f, d, src) → Enabled s [d, src] → moveVerdict s i = .admitted → s.flags.xm = true →
    isSuper s.impl d = true ∨ isSuper s.impl src = true → exec i s = .next (s.raise .prot)

/-- The first memory operand, in operand order, that fails one of its checks decides the outcome, before any operand
is read: PF, PROT, or for an access that `ALIGNMENT_RULE` does not admit the refusal or the exception it traps with (rules
R42, R43, R80 step 6, R181; the order of the operands is decision D11). That an operand that is read and written is
checked for reading first is log entry 41; that alignment is tested in the same place as translation and before it, so
that a misaligned operand decides before a later operand's PF or PROT, is the model's choice, log entry 43. -/
def Obligations.FirstFailingAccessDecides : Prop :=
  ∀ (i : Instr) (s : State) (pre post : List Access) (ea : Word) (z : OpSize) (kpre kpost : List AccessKind)
    (k : AccessKind) (stop : Stop),
    accessesOf i = pre ++ (.mem ea z, kpre ++ k :: kpost) :: post →
    Enabled s i.operands → operandVerdict s i = .admitted →
    ((moveParts i).isSome = true → Permitted s i.operands) →
    AllAccess s pre → (∀ k', k' ∈ kpre → CanAccess s ea z k') → s.access ea z k = .error stop →
    exec i s = s.settle (.error stop)

/-- What an access comes to. Where `ALIGNMENT_RULE` lets it go on (a multiple of the size, any address, or what the
platform's own rule admits): with paging disabled the address is physical, and PF when it is out of range; with paging enabled, PROT beyond the
range of the PTL mode, PF outside every available stretch or against its permissions, and else the address within the
first stretch that holds it, PF when that is out of range; with the platform's own translation, its answer, PF when
that is out of range (rules R40, R43). Otherwise it is refused or raises the alignment trap (rule R42, decision D7). A store is refused exactly when one of its bytes is a byte of the program text, and an arithmetic
instruction that would make it is refused as a whole (rule R48). How a translation is written down, that the PTL
range is tested first, that the mode of rule R43 is `flags.XM`, the values of `ALIGNMENT_RULE` beside the default, that
alignment is tested before translation, and that the text is a range of physical addresses, are the model's choice (log
entries 9, 23, 24 and 43). -/
def Obligations.AccessOutcomes : Prop :=
  (∀ (s : State) (ea : Word) (z : OpSize) (k : AccessKind),
    ((ea.toNat % z.bytes = 0 ∧ s.impl.alignment ≠ .platform) ∨ s.impl.alignment = .anyAddress ∨
        (s.impl.alignment = .platform ∧ Config.alignment ea.toNat z.bytes k = .ok) →
      (s.impl.translation = .flat →
        s.access ea z k = if ea.toNat + z.bytes ≤ 2 ^ s.impl.addrWidth then .ok ea.toNat else .error (.raise .pf)) ∧
      (∀ ptlEnd l, s.impl.translation = .ranges ptlEnd l →
        (ptlEnd < ea.toNat + z.bytes → s.access ea z k = .error (.raise .prot)) ∧
        (ea.toNat + z.bytes ≤ ptlEnd →
          ((∀ r, r ∈ l → permits r k s.flags.xm = true →
              ea.toNat < r.base ∨ r.base + r.len < ea.toNat + z.bytes) →
            s.access ea z k = .error (.raise .pf)) ∧
          (∀ before r after, l = before ++ r :: after →
            (∀ q, q ∈ before → ea.toNat < q.base ∨ q.base + q.len < ea.toNat + z.bytes) →
            r.base ≤ ea.toNat → ea.toNat + z.bytes ≤ r.base + r.len →
            s.access ea z k =
              if permits r k s.flags.xm = true ∧ r.phys + (ea.toNat - r.base) + z.bytes ≤ 2 ^ s.impl.addrWidth then
                .ok (r.phys + (ea.toNat - r.base))
              else .error (.raise .pf)))) ∧
      (s.impl.translation = .platform →
        s.access ea z k =
          match Config.translate ea.toNat z.bytes k s.flags.xm with
          | .ok pa => if pa + z.bytes ≤ 2 ^ s.impl.addrWidth then .ok pa else .error (.raise .pf)
          | .pf => .error (.raise .pf)
          | .prot => .error (.raise .prot))) ∧
    (ea.toNat % z.bytes ≠ 0 → s.impl.alignment = .naturalOnly → s.access ea z k = .error (.refuse .misaligned)) ∧
    (∀ x, ea.toNat % z.bytes ≠ 0 → s.impl.alignment = .traps x → s.access ea z k = .error (.raise x)) ∧
    (s.impl.alignment = .platform →
      (Config.alignment ea.toNat z.bytes k = .refuse → s.access ea z k = .error (.refuse .misaligned)) ∧
      (∀ x, Config.alignment ea.toNat z.bytes k = .trap x → s.access ea z k = .error (.raise x)))) ∧
  (∀ (s : State) (ea : Word) (z : OpSize) (v : Word) (pa : Nat), s.access ea z .write = .ok pa →
    ((∃ a, pa ≤ a ∧ a < pa + z.bytes ∧ s.impl.textBase ≤ a ∧ a < s.impl.textBase + s.impl.textLen) →
      s.writeOp (.mem ea z) v = .error (.refuse .storeIntoText)) ∧
    ((∀ a, pa ≤ a → a < pa + z.bytes → a < s.impl.textBase ∨ s.impl.textBase + s.impl.textLen ≤ a) →
      s.writeOp (.mem ea z) v = .ok { s with mem := storeBytes s.impl.byteOrder s.mem pa z.bytes v })) ∧
  ∀ (i : Instr) (f : Bool) (ea : Word) (z : OpSize) (others : List Operand) (s : State) (bs : List (Format × Word))
    (pa a : Nat),
    arithParts i = some (f, .mem ea z, others) → Enabled s (.mem ea z :: others) →
    arithConstraint (.mem ea z) others = .admitted → s.readOps (.mem ea z :: others) = .ok bs →
    (roundsByRnd i = true → s.rnd < 5) → (∀ x, s.masked x = true) → s.access ea z .write = .ok pa →
    pa ≤ a → a < pa + z.bytes → s.impl.textBase ≤ a → a < s.impl.textBase + s.impl.textLen →
    exec i s = .refused .storeIntoText

/-! Memory and registers. -/

/-- Reading the bytes just stored gives the low bits stored, and every byte outside them keeps its value
(rule R41). -/
def Obligations.LoadAfterStore : Prop :=
  ∀ (o : ByteOrder) (m : Memory) (a : Nat) (z : OpSize) (v : Word),
    loadBytes o (storeBytes o m a z.bytes v) a z.bytes = z.truncate v ∧
    ∀ b, b < a ∨ a + z.bytes ≤ b → readByte (storeBytes o m a z.bytes v) b = readByte m b

/-- Where a store puts byte `k` of its value: at `addr + k` in little-endian order, at `addr + n - 1 - k` in the
other (rule R41; the order is the parameter `BYTE_ORDER`, decision D6). -/
def Obligations.StoredBytePlacement : Prop :=
  ∀ (m : Memory) (a n k : Nat) (v : Word), k < n → n ≤ 8 →
    readByte (storeBytes .little m a n v) (a + k) = v.extractLsb' (8 * k) 8 ∧
    readByte (storeBytes .big m a n v) (a + (n - 1 - k)) = v.extractLsb' (8 * k) 8

/-- Writing a register operand narrower than the register clears the bits above it, reading takes the low bits, and
every register of another number keeps its value (rules R14, R60, R61, decision D3). `flags` and `ip` have rules of
their own. -/
def Obligations.NarrowRegisterAccess : Prop :=
  ∀ (s : State) (n : Nat) (z z' : OpSize) (v : Word),
    regClass s.impl n ≠ .flags → regClass s.impl n ≠ .ip →
    ∃ t, s.writeOp (.reg n z) v = .ok t ∧
      (t.readReg n).toNat = v.toNat % 2 ^ (8 * z.bytes) ∧
      t.readOp (.reg n z') = .ok (BitVec.ofNat 64 (v.toNat % 2 ^ (8 * z.bytes) % 2 ^ (8 * z'.bytes))) ∧
      (∀ n', n' ≠ n → t.readReg n' = s.readReg n') ∧ t.mem = s.mem

/-- Bit 17 of register 17 is `cr0.FPEN`, whatever was written there, and no step changes it (rule R23). That no step
changes it rests on the model's choice that no operand names `cr0` and that no base instruction writes it (log entries
3 and 14, DESIGN CHOICE; rule R22 lets the supervisor write `cr0`). -/
def Obligations.FlagsBit17FollowsFpen : Prop :=
  (∀ s : State, (s.readReg 17).getLsbD 17 = s.fpen) ∧
  (∀ (s : State) (v : Word), ((s.writeReg 17 v).readReg 17).getLsbD 17 = s.fpen) ∧
  ∀ s t : State, step s = .next t → (t.readReg 17).getLsbD 17 = (s.readReg 17).getLsbD 17

/-! Numerics. -/

/-- Each rounding mode to an integer is what rule R16 says of it, for values of either sign: mode 0 the least integer
not below, mode 1 the greatest not above, mode 2 the greatest magnitude not above, modes 3 and 4 a nearest one, a tie
going up or to the even one (rules R16, R89; "Half Up" as ties toward +infinity is decision D21). -/
def Obligations.RoundIntModes : Prop :=
  ∀ (q : Rat) (sg : Bool), 0 ≤ q →
    (signed sg q ≤ signed sg (roundInt q sg .up : Rat) ∧
      ∀ k : Int, signed sg q ≤ (k : Rat) → signed sg (roundInt q sg .up : Rat) ≤ k) ∧
    (signed sg (roundInt q sg .down : Rat) ≤ signed sg q ∧
      ∀ k : Int, (k : Rat) ≤ signed sg q → (k : Rat) ≤ signed sg (roundInt q sg .down : Rat)) ∧
    ((roundInt q sg .towardZero : Rat) ≤ q ∧ ∀ n : Nat, (n : Rat) ≤ q → n ≤ roundInt q sg .towardZero) ∧
    (∀ k : Int, |signed sg q - signed sg (roundInt q sg .halfUp : Rat)| ≤ |signed sg q - k| ∧
      (|signed sg q - signed sg (roundInt q sg .halfUp : Rat)| = |signed sg q - k| →
        (k : Rat) ≤ signed sg (roundInt q sg .halfUp : Rat))) ∧
    (∀ k : Int, |signed sg q - signed sg (roundInt q sg .halfEven : Rat)| ≤ |signed sg q - k| ∧
      (|signed sg q - signed sg (roundInt q sg .halfEven : Rat)| = |signed sg q - k| →
        (k : Rat) = signed sg (roundInt q sg .halfEven : Rat) ∨ roundInt q sg .halfEven % 2 = 0))

/-- Encoding undoes decoding, on every pattern of the three formats (rules R87, R88). -/
def Obligations.EncodingInvertsDecoding : Prop :=
  ∀ (F : Format) (b : Word), isFormat F → b.toNat < 2 ^ F.width →
    (∀ sg m, decodeFp F b = .fin sg m → 0 ≤ m ∧ b = if m = 0 then encZero F sg else encFin F sg m) ∧
    (∀ sg, decodeFp F b = .inf sg → b = encInf F sg) ∧
    (∀ sg t, decodeFp F b = .nan sg t → b = encNaN F sg t ∧ 0 < t ∧ t < 2 ^ F.fracBits)

/-- The delivery of a result is correctly rounded, under `RANGE_CHECK = exact_value`: a magnitude in the range of the
format goes to the representable magnitude that the rounding mode asks for, among all representable ones, and INEXACT
is caused exactly when the two differ (rules R16, R90; ties of mode 3 are decision D21). -/
def Obligations.DeliveryIsCorrectlyRounded : Prop :=
  ∀ (F : Format) (sg : Bool) (m : Rat) (mode : RoundMode) (denorm : Bool), isFormat F → 0 < m →
    leastKept F denorm ≤ m → m ≤ maxFinite F →
    ∃ r, decodeFp F (roundFp .exactValue sg m F mode denorm).1 = .fin sg r ∧
      CorrectlyRounded F sg mode m r (roundFp .exactValue sg m F mode denorm).1 ∧
      (roundFp .exactValue sg m F mode denorm).2 = if r = m then [] else [.inexact]

/-- The delivery of a magnitude out of range, in every rounding mode: an infinity with OVERFLOW and INEXACT above the
largest finite one, a zero with UNDERFLOW and INEXACT below the least kept one, which is the least denormal when
`DENORM` is set and the least normal when it is clear (rules R17, R90, decision D19). -/
def Obligations.OverflowAndUnderflow : Prop :=
  ∀ (F : Format) (sg : Bool) (m : Rat) (mode : RoundMode) (denorm : Bool), isFormat F →
    (maxFinite F < m → roundFp .exactValue sg m F mode denorm = (encInf F sg, [.overflow, .inexact])) ∧
    (0 < m → m < (if denorm then minSub F else minNorm F) →
      roundFp .exactValue sg m F mode denorm = (encZero F sg, [.underflow, .inexact])) ∧
    roundFp .exactValue sg 0 F mode denorm = (encZero F sg, []) ∧
    decodeFp F (encInf F sg) = .inf sg ∧ decodeFp F (encZero F sg) = .fin sg 0

/-- How an exact arithmetic result reaches its destination: in the format `I = Fd` it is rounded once; in another it
is rounded into `I`, a result out of the range of `I` is out of range, and what comes of it is rounded into `Fd`,
with INEXACT if either rounding is. `I` has at least the range and precision of the largest operand and at most those
of the larger of that and the `XOPSS` format, and it is the largest operand's where the table of the implementation
is empty (rule R122, decision D22; the table is log entry 29). -/
def Obligations.DeliveryByIntermediateFormat : Prop :=
  (∀ (rc : RangeCheck) (sg : Bool) (m : Rat) (Fd I : Format) (mode : RoundMode) (denorm : Bool),
    deliver rc sg m Fd Fd mode denorm = roundFp rc sg m Fd mode denorm ∧
    ∀ b1 e1, I ≠ Fd → roundFp rc sg m I mode true = (b1, e1) →
      (∀ sg1, decodeFp I b1 = .inf sg1 → deliver rc sg m Fd I mode denorm = (encInf Fd sg, [.overflow, .inexact])) ∧
      (∀ sg1, decodeFp I b1 = .fin sg1 0 →
        deliver rc sg m Fd I mode denorm = (encZero Fd sg, [.underflow, .inexact])) ∧
      ∀ sg1 m1, decodeFp I b1 = .fin sg1 m1 → m1 ≠ 0 →
        (deliver rc sg m Fd I mode denorm).1 = (roundFp rc sg m1 Fd mode denorm).1 ∧
        ∀ x, x ∈ (deliver rc sg m Fd I mode denorm).2 ↔
          x ∈ (roundFp rc sg m1 Fd mode denorm).2 ∨ (x = .inexact ∧ x ∈ e1)) ∧
  ∀ (s : State) (ops : List Operand), ops ≠ [] →
    (∃ o, o ∈ ops ∧ largestFormat ops = formatOf (opSize o) ∧
      ∀ p, p ∈ ops → (opSize p).bytes ≤ (opSize o).bytes) ∧
    ((largestFormat ops).expBits ≤ (intermediateOf s ops).expBits ∧
      (largestFormat ops).fracBits ≤ (intermediateOf s ops).fracBits) ∧
    ((intermediateOf s ops).expBits ≤ max (largestFormat ops).expBits s.xopssFormat.expBits ∧
      (intermediateOf s ops).fracBits ≤ max (largestFormat ops).fracBits s.xopssFormat.fracBits) ∧
    (s.impl.intermediate = [] → intermediateOf s ops = largestFormat ops) ∧
    (s.xopss = 0 → s.xopssFormat = binary16) ∧ (s.xopss = 1 → s.xopssFormat = binary32) ∧
    (s.xopss = 2 → s.xopssFormat = binary64)

/-- The two readings of the range tests agree outside the band of rule R91: at zero, between the least kept and the
largest finite magnitude, and from `2^(emax+1)` on. How the model rounds first is log entry 28. -/
def Obligations.RangeReadingsAgree : Prop :=
  ∀ (F : Format) (sg : Bool) (m : Rat) (mode : RoundMode) (denorm : Bool), isFormat F →
    m = 0 ∨ (leastKept F denorm ≤ m ∧ m ≤ maxFinite F) ∨ pow2 ((F.bias : Int) + 1) ≤ m →
    roundFp .roundedValue sg m F mode denorm = roundFp .exactValue sg m F mode denorm

/-- The NaN an arithmetic instruction delivers is quiet and negative exactly when some NaN operand is, `cvtf`'s is a
NaN, and `IsSignalling` is false of the two canonical NaNs and of what is no NaN, whatever the free values are
(rules R93, R94; three operands by decision D45). -/
def Obligations.ProducedNaNs : Prop :=
  ∀ (rule : SignalRule) (F : Format) (vals : List FpVal) (draw : Nat) (sg : Bool) (b : Word), isFormat F →
    IsQuietNaN rule F (vals.any FpVal.isNegNaN) (nanResult rule F vals draw) ∧
    (∃ t, decodeFp F (drawNaN F sg draw) = .nan sg t) ∧
    (∃ t, decodeFp F (qNaN F sg) = .nan sg t) ∧ isSignalling rule F (qNaN F sg) = false ∧
    ((decodeFp F b).isNaN = false → isSignalling rule F b = false)

/-- Storing an integer in range and reading it back as a signed integer gives it back, and what is read is always in
range (rules R106, R109 a, e). A fixed-point format has `W / 2^(3-ss)` fraction bits with `i` clear and that many
integer bits with `i` set (rule R102; base 2 is decision D17). -/
def Obligations.StoredIntegers : Prop :=
  (∀ (z : OpSize) (r : Int) (w : Word),
    (z.minInt ≤ r → r ≤ z.maxInt → z.sint (z.ofInt r) = r) ∧ (z.ofInt r).toNat < 2 ^ (8 * z.bytes) ∧
    z.minInt ≤ z.sint w ∧ z.sint w ≤ z.maxInt ∧ z.ofInt (z.sint w) = z.truncate w) ∧
  ∀ (z : OpSize) (ss : Fin 4),
    fracBitsOf z ss false * 2 ^ (3 - ss.val) = 8 * z.bytes ∧
    fracBitsOf z ss true + fracBitsOf z ss false = 8 * z.bytes

/-- The integers the converting moves deliver: a NaN gives the minimum, an infinity saturates with OVERFLOW, a value
whose truncation or rounding is out of range saturates, and any other is truncated without INEXACT, or rounded on
the grid of the format with INEXACT exactly when that changes it (rules R106, R107, R109 c, d; the range is judged on
the truncated or rounded value by decision D20). -/
def Obligations.IntegerConversionValues : Prop :=
  ∀ (rule : SignalRule) (mode : RoundMode) (F : Format) (b : Word) (z : OpSize) (fb : Nat),
    (∀ sg t, decodeFp F b = .nan sg t →
      truncateToInt rule F b z = (z.minInt, if isSignalling rule F b then [.signal] else []) ∧
      roundToFixed rule mode F b z fb = (z.minInt, if isSignalling rule F b then [.signal] else [])) ∧
    (∀ sg, decodeFp F b = .inf sg →
      truncateToInt rule F b z = (if sg then z.minInt else z.maxInt, [.overflow]) ∧
      roundToFixed rule mode F b z fb = (if sg then z.minInt else z.maxInt, [.overflow])) ∧
    ∀ sg m, decodeFp F b = .fin sg m →
      (∃ v : Int, |(v : Rat)| ≤ m ∧ m < |(v : Rat)| + 1 ∧ (sg = true → v ≤ 0) ∧ (sg = false → 0 ≤ v) ∧
        truncateToInt rule F b z =
          if z.maxInt < v then (z.maxInt, [.overflow])
          else if v < z.minInt then (z.minInt, [.overflow]) else (v, [])) ∧
      ∃ v : Int, (v : Rat) = signed sg (roundInt (m * 2 ^ fb) sg mode : Rat) ∧
        roundToFixed rule mode F b z fb =
          if z.maxInt < v then (z.maxInt, [.overflow, .inexact])
          else if v < z.minInt then (z.minInt, [.overflow, .inexact])
          else (v, if (v : Rat) = signed sg m * 2 ^ fb then [] else [.inexact])

/-! Floating-point exceptions. -/

/-- A floating-point exception is masked if `EMASKALL` is set or its bit of `EMASK` is set; at startup each is masked
twice over (rule R170). -/
def Obligations.Masking : Prop :=
  (∀ (s : State) (x : FpExc), s.masked x = true ↔
    s.fpcrw.getLsbD 24 = true ∨ s.fpcrw.getLsbD (16 + x.number) = true) ∧
  (∀ (s : State) (x : FpExc), s.maskedNoAll x = true ↔ s.fpcrw.getLsbD (16 + x.number) = true) ∧
  State.reset.emaskAll = true ∧ ∀ x : FpExc, State.reset.maskedNoAll x = true

/-- The `EXCEPT` bits are sticky: an instruction that does not name register 19 as its destination clears none of
them, also when it traps; a base instruction none of whose destinations is register 19 changes no bit of `fpcrw`, also
where register 19 is a source; and an instruction that causes an exception sets its bit, masked or not (rule R171).
Which operands of the five base instructions are destinations, and that these instructions write nothing else but
flags, is PRESUMED, log entries 34 and 45. -/
def Obligations.ExceptBitsAreSticky : Prop :=
  (∀ (i : Instr) (s t : State) (j : Nat), exec i s = .next t →
    (∀ f d src z, moveParts i = some (f, d, src) → d ≠ .reg 19 z) → 8 ≤ j → j ≤ 15 →
    s.fpcrw.getLsbD j = true → t.fpcrw.getLsbD j = true) ∧
  (∀ (m : BaseMnemonic) (ops : List Operand) (s t : State), execBase m ops s = .next t →
    (∀ z, Operand.reg 19 z ∉ baseDestinations m ops) → t.fpcrw = s.fpcrw) ∧
  ∀ (s t : State) (e : List FpExc) (x : FpExc) (commit : State → Except Stop State),
    (∀ u v, commit u = .ok v → v.fpcrw = u.fpcrw) → s.finish e commit = .ok t → x ∈ e → t.asserted x = true

/-- The end of an operation that caused a set of exceptions: their bits are set, a trap follows exactly when one of
the set is unmasked, and it is FPE, exception 6, when `cr0.FPEXCPT` is set and PROT otherwise (rules R172, R173). -/
def Obligations.RaisingFpExceptions : Prop :=
  Sys2Proof.Machine.Trap.number .fpe = 6 ∧
  ∀ (s t : State) (e : List FpExc) (commit : State → Except Stop State), s.finish e commit = .ok t →
    (∀ j, (s.record e).fpcrw.getLsbD j = true ↔ s.fpcrw.getLsbD j = true ∨ ∃ x, x ∈ e ∧ j = 8 + x.number) ∧
    ((∀ x, x ∈ e → s.masked x = true) → ∃ u, commit (s.record e) = .ok u ∧ t = u.advance) ∧
    ((∃ x, x ∈ e ∧ s.masked x = false) →
      t.trapped = some (if s.cr0.getLsbD 7 then .fpe else .prot) ∧
      (t = (s.record e).raise (if s.cr0.getLsbD 7 then .fpe else .prot) ∨
        ∃ u, commit (s.record e) = .ok u ∧ t = u.raise (if s.cr0.getLsbD 7 then .fpe else .prot)))

/-- No instruction causes a floating-point exception that its row of the table of rule R175 answers with "no": that
bit of `EXCEPT` is as it was (an entry "no" of DIVBYZERO or INVALID that decision D24 turns around follows
`DIVZERO_EXC`). -/
def Obligations.ExceptionTable : Prop :=
  ∀ (i : Instr) (s t : State) (x : FpExc), exec i s = .next t → x ∈ neverCauses s.impl i →
    (∀ f d src z, moveParts i = some (f, d, src) → d ≠ .reg 19 z) → t.asserted x = s.asserted x

/-- Traps are precise: when an instruction raises an exception, the state is the one before it, with the new `EXCEPT`
bits for a floating-point trap (rules R174, R180; `FP_TRAP_WRITES_RESULT = false`, decision D33, is a hypothesis);
when it does not, the next instruction in program order follows (rule R26). -/
def Obligations.TrapsArePrecise : Prop :=
  ∀ (i : Instr) (s t : State), s.trapped = none → exec i s = .next t →
    (t.trapped = none → t.ip = s.ip + 1) ∧
    ∀ x, t.trapped = some x → s.impl.trapWritesResult = false →
      t = s.raise x ∨
        ∃ e, (∃ y, y ∈ e ∧ s.masked y = false) ∧ x = (if s.fpexcpt then .fpe else .prot) ∧
          t = (s.record e).raise x

/-- `fraiseexcept` and `ftriggerexcept`: UND when disabled or when bit 14 or 15 of `fpcrw` is set; else FPE or PROT
when some asserted exception is not masked, `ftriggerexcept` ignoring `EMASKALL`; else nothing but the next
instruction, and in no case any other effect (rules R160 to R162; UND before FPE is decision D11). -/
def Obligations.TriggersAsSpecified : Prop :=
  ∀ s : State,
    (s.fpen = false ∨ s.fpcrw.getLsbD 14 = true ∨ s.fpcrw.getLsbD 15 = true →
      exec .fraiseexcept s = .next (s.raise .und) ∧ exec .ftriggerexcept s = .next (s.raise .und)) ∧
    (s.fpen = true → s.fpcrw.getLsbD 14 = false → s.fpcrw.getLsbD 15 = false →
      (s.fpcrw.getLsbD 24 = false ∧
          (∃ n, n ≤ 5 ∧ s.fpcrw.getLsbD (8 + n) = true ∧ s.fpcrw.getLsbD (16 + n) = false) →
        exec .fraiseexcept s = .next (s.raise (if s.fpexcpt then .fpe else .prot))) ∧
      (s.fpcrw.getLsbD 24 = true ∨
          (∀ n, n ≤ 5 → s.fpcrw.getLsbD (8 + n) = true → s.fpcrw.getLsbD (16 + n) = true) →
        exec .fraiseexcept s = .next s.advance) ∧
      ((∃ n, n ≤ 5 ∧ s.fpcrw.getLsbD (8 + n) = true ∧ s.fpcrw.getLsbD (16 + n) = false) →
        exec .ftriggerexcept s = .next (s.raise (if s.fpexcpt then .fpe else .prot))) ∧
      ((∀ n, n ≤ 5 → s.fpcrw.getLsbD (8 + n) = true → s.fpcrw.getLsbD (16 + n) = true) →
        exec .ftriggerexcept s = .next s.advance))

/-! Converting moves. -/

/-- `movsif` and `movxf` complete: the signed integer, divided by two to the number of fraction bits for `movxf`, is
delivered in the destination's format, the exceptions of the delivery are recorded, `N` and `Z` are set from the
result unless `f` is set, and an exception that is unmasked traps instead (rules R104, R105, R172 to R174; signed
fixed point is decision D17, the flags decision D16). -/
def Obligations.IntegerToFloat : Prop :=
  ∀ (f : Bool) (d src : Operand) (s : State) (w : Word) (mode : RoundMode) (ss : Fin 4) (i : Bool),
    RoundMode.ofRnd s.rnd = some mode →
    (MoveReady s (.movsif f d src) d src w →
      ∀ r, r = roundFp s.impl.rangeCheck (decide ((opSize src).sint w < 0)) |((opSize src).sint w : Rat)|
          (formatOf (opSize d)) mode s.denorm →
        EndsIn s (.movsif f d src) r.2 (moveFpNext s f d r.1 r.2)) ∧
    (MoveReady s (.movxf ss i f d src) d src w →
      ∀ r, r = roundFp s.impl.rangeCheck (decide ((opSize src).sint w < 0))
          |((opSize src).sint w : Rat) / 2 ^ fracBitsOf (opSize src) ss i| (formatOf (opSize d)) mode s.denorm →
        EndsIn s (.movxf ss i f d src) r.2 (moveFpNext s f d r.1 r.2))

/-- `movfsi` completes, in every rounding mode, the undefined ones too: the truncated or saturated integer is stored
at the destination's size and `N` and `Z` are set from it unless `f` is set; an exception that is unmasked traps
instead (rules R106, R172 to R174; the range by decision D20). -/
def Obligations.FloatToInteger : Prop :=
  ∀ (f : Bool) (d src : Operand) (s : State) (w : Word), MoveReady s (.movfsi f d src) d src w →
    ∀ r, r = truncateToInt s.impl.signalling (formatOf (opSize src)) w (opSize d) →
      EndsIn s (.movfsi f d src) r.2 (moveIntNext s f d r.1 r.2)

/-- `movfx` completes: the value is rounded by `fpcrw.RND` on the grid of the fixed-point format or saturated, and
stored at the destination's size; an exception that is unmasked traps instead (rules R107, R172 to R174; decisions
D17, D20). -/
def Obligations.FloatToFixed : Prop :=
  ∀ (ss : Fin 4) (i f : Bool) (d src : Operand) (s : State) (w : Word) (mode : RoundMode),
    RoundMode.ofRnd s.rnd = some mode → MoveReady s (.movfx ss i f d src) d src w →
    ∀ r, r = roundToFixed s.impl.signalling mode (formatOf (opSize src)) w (opSize d)
        (fracBitsOf (opSize d) ss i) →
      EndsIn s (.movfx ss i f d src) r.2 (moveIntNext s f d r.1 r.2)

/-- `cvtf` completes: a finite value is delivered in the destination's format, an infinity is kept, and a NaN gives
some NaN of the destination's format, of which nothing else is said, without SIGNAL; an exception of the delivery that
is unmasked traps instead (rules R103, R108, R172 to R174). -/
def Obligations.FloatToFloat : Prop :=
  ∀ (f : Bool) (d src : Operand) (s : State) (w : Word) (mode : RoundMode),
    RoundMode.ofRnd s.rnd = some mode → MoveReady s (.cvtf f d src) d src w →
    (∀ sg m, decodeFp (formatOf (opSize src)) w = .fin sg m →
      ∀ r, r = roundFp s.impl.rangeCheck sg m (formatOf (opSize d)) mode s.denorm →
        EndsIn s (.cvtf f d src) r.2 (moveFpNext s f d r.1 r.2)) ∧
    (∀ sg, decodeFp (formatOf (opSize src)) w = .inf sg →
      exec (.cvtf f d src) s = .next (moveFpNext s f d (encInf (formatOf (opSize d)) sg) [])) ∧
    (∀ sg t, decodeFp (formatOf (opSize src)) w = .nan sg t →
      ∃ b sg' t', decodeFp (formatOf (opSize d)) b = .nan sg' t' ∧
        exec (.cvtf f d src) s = .next (moveFpNext s f d b []))

/-! Flags of a result. -/

/-- The flags a delivered result leaves. `Z` is set exactly when its value is a zero of either sign, so a denormal,
an infinity and a NaN clear it; `N` is its sign, also of a zero and of a NaN; `P` of an arithmetic result is by
default the parity of the whole pattern; an integer result sets `Z` when its stored pattern is zero and `N` from that
pattern's top bit (rules R95, R96, R106, R107, R128; decisions D15, D16). -/
def Obligations.ResultFlags : Prop :=
  (∀ (s t : State) (d : Operand) (b : Word) (e : List FpExc),
    t = arithNext s false d b e ∨ t = moveFpNext s false d b e →
    (t.flags.z = true ↔ ∃ sg, decodeFp (formatOf (opSize d)) b = .fin sg 0) ∧
    (∀ sg m, decodeFp (formatOf (opSize d)) b = .fin sg m → t.flags.n = sg) ∧
    (∀ sg, decodeFp (formatOf (opSize d)) b = .inf sg → t.flags.n = sg) ∧
    (∀ sg p, decodeFp (formatOf (opSize d)) b = .nan sg p → t.flags.n = sg) ∧
    (∀ sg, b = encZero (formatOf (opSize d)) sg → t.flags.z = true ∧ t.flags.n = sg)) ∧
  (∀ (s : State) (d : Operand) (b : Word) (e : List FpExc), s.impl.parity = .oddOnes →
    (arithNext s false d b e).flags.p =
      decide (((List.range (formatOf (opSize d)).width).countP (fun j => b.getLsbD j)) % 2 = 1)) ∧
  ∀ (s : State) (d : Operand) (r : Int) (e : List FpExc), (opSize d).minInt ≤ r → r ≤ (opSize d).maxInt →
    ((moveIntNext s false d r e).flags.z = true ↔ (opSize d).ofInt r = 0) ∧
    (moveIntNext s false d r e).flags.n = ((opSize d).ofInt r).getLsbD (8 * (opSize d).bytes - 1)

/-! Arithmetic. -/

/-- Every arithmetic instruction completes, whatever its operands hold, while every floating-point exception is
masked (rules R129, R170); one that rounds by `fpcrw.RND` while that names a mode (rule R21). -/
def Obligations.ArithmeticCompletes : Prop :=
  ∀ (i : Instr) (f : Bool) (d : Operand) (others : List Operand) (s : State) (bs : List (Format × Word)),
    arithParts i = some (f, d, others) → ArithReady s d others bs → (roundsByRnd i = true → s.rnd < 5) →
    (∀ x, s.masked x = true) → ∃ b e, exec i s = .next (arithNext s f d b e)

/-- `round`, `ceil` and `floor` complete, in every rounding mode: a finite value goes to the integral value that half
up, up or down gives, exactly and without any exception, with the operand's sign also when it is zero; an infinity is
kept (rules R130 to R132, decision D30). -/
def Obligations.IntegralRounding : Prop :=
  ∀ (f : Bool) (d : Operand) (s : State) (bs : List (Format × Word)) (i : Instr) (mode : RoundMode),
    (i, mode) ∈ [(Instr.round f d, RoundMode.halfUp), (Instr.ceil f d, RoundMode.up),
      (Instr.floor f d, RoundMode.down)] →
    ArithReady s d [] bs →
    (∀ sg m, operandValues bs = [.fin sg m] →
      ∃ b, decodeFp (formatOf (opSize d)) b = .fin sg (roundInt m sg mode) ∧
        exec i s = .next (arithNext s f d b [])) ∧
    (∀ sg, operandValues bs = [.inf sg] →
      exec i s = .next (arithNext s f d (encInf (formatOf (opSize d)) sg) []))

/-- `fabs` and `fneg` complete, in every rounding mode: the result has the operand's magnitude and the sign cleared
or inverted, without any exception, where the magnitude is zero or kept; a denormal while `DENORM` is clear gives a
zero of that sign with UNDERFLOW and INEXACT, which trap where they are unmasked (rules R133, R134, R90). -/
def Obligations.AbsoluteValueAndNegation : Prop :=
  ∀ (f : Bool) (d : Operand) (s : State) (bs : List (Format × Word)) (i : Instr) (sg sg' : Bool),
    (i, sg') ∈ [(Instr.fabs f d, false), (Instr.fneg f d, !sg)] → ArithReady s d [] bs →
    (∀ m, operandValues bs = [.fin sg m] → m = 0 ∨ leastKept (formatOf (opSize d)) s.denorm ≤ m →
      ∃ b, decodeFp (formatOf (opSize d)) b = .fin sg' m ∧ b.toNat < 2 ^ (8 * (opSize d).bytes) ∧
        exec i s = .next (arithNext s f d b [])) ∧
    (∀ m, operandValues bs = [.fin sg m] → 0 < m → m < leastKept (formatOf (opSize d)) s.denorm →
      CompletesWith s i f d (encZero (formatOf (opSize d)) sg', [.underflow, .inexact])) ∧
    (operandValues bs = [.inf sg] → exec i s = .next (arithNext s f d (encInf (formatOf (opSize d)) sg') []))

/-- `finv` completes, or traps on an unmasked exception: the exact inverse delivered, a zero for an infinity, and for
a zero an infinity of its sign with DIVBYZERO, or a quiet NaN with INVALID where the parameter `DIVZERO_EXC` says so
(rules R126, R135, decision D24). -/
def Obligations.Inverse : Prop :=
  ∀ (f : Bool) (d : Operand) (s : State) (bs : List (Format × Word)) (mode : RoundMode),
    ArithReady s d [] bs → RoundMode.ofRnd s.rnd = some mode →
    (∀ sg m, operandValues bs = [.fin sg m] → m ≠ 0 →
      CompletesWith s (.finv f d) f d (deliverSigned s mode d [d] sg (1 / m))) ∧
    (∀ sg, operandValues bs = [.fin sg 0] →
      (s.impl.divZero = .divByZero →
        CompletesWith s (.finv f d) f d (encInf (formatOf (opSize d)) sg, [.divByZero])) ∧
      (s.impl.divZero = .invalid →
        ∃ b sg', IsQuietNaN s.impl.signalling (formatOf (opSize d)) sg' b ∧
          CompletesWith s (.finv f d) f d (b, [.invalid]))) ∧
    (∀ sg, operandValues bs = [.inf sg] →
      exec (.finv f d) s = .next (arithNext s f d (encZero (formatOf (opSize d)) sg) []))

/-- `fadd` and `fsub` complete, or trap on an unmasked exception: the exact sum or difference delivered, an exact
zero with the sign of rule R92, and the infinities (rules R136, R137; the sign of zero is decision D40). -/
def Obligations.SumAndDifference : Prop :=
  ∀ (f : Bool) (d src : Operand) (s : State) (bs : List (Format × Word)) (mode : RoundMode),
    ArithReady s d [src] bs → RoundMode.ofRnd s.rnd = some mode →
    (∀ s1 m1 s2 m2, operandValues bs = [.fin s1 m1, .fin s2 m2] →
      (signed s1 m1 + signed s2 m2 ≠ 0 →
        CompletesWith s (.fadd f d src) f d (deliverTo s mode d [d, src] (signed s1 m1 + signed s2 m2))) ∧
      (signed s1 m1 + signed s2 m2 = 0 →
        exec (.fadd f d src) s =
          .next (arithNext s f d (encZero (formatOf (opSize d)) (zeroSumSign s s1 s2)) [])) ∧
      (signed s1 m1 - signed s2 m2 ≠ 0 →
        CompletesWith s (.fsub f d src) f d (deliverTo s mode d [d, src] (signed s1 m1 - signed s2 m2))) ∧
      (signed s1 m1 - signed s2 m2 = 0 →
        exec (.fsub f d src) s =
          .next (arithNext s f d (encZero (formatOf (opSize d)) (zeroSumSign s s1 (!s2))) []))) ∧
    (∀ s1 s2 m, operandValues bs = [.inf s1, .fin s2 m] →
      exec (.fadd f d src) s = .next (arithNext s f d (encInf (formatOf (opSize d)) s1) []) ∧
      exec (.fsub f d src) s = .next (arithNext s f d (encInf (formatOf (opSize d)) s1) [])) ∧
    (∀ s1 s2 m, operandValues bs = [.fin s1 m, .inf s2] →
      exec (.fadd f d src) s = .next (arithNext s f d (encInf (formatOf (opSize d)) s2) []) ∧
      exec (.fsub f d src) s = .next (arithNext s f d (encInf (formatOf (opSize d)) (!s2)) [])) ∧
    (∀ s1 s2, operandValues bs = [.inf s1, .inf s2] →
      (s1 = s2 → exec (.fadd f d src) s = .next (arithNext s f d (encInf (formatOf (opSize d)) s1) [])) ∧
      (s1 ≠ s2 → exec (.fsub f d src) s = .next (arithNext s f d (encInf (formatOf (opSize d)) s1) [])))

/-- `fmul` completes, or traps on an unmasked exception: the exact product delivered, a zero or an infinity of the
product's sign (rules R92, R138). -/
def Obligations.Product : Prop :=
  ∀ (f : Bool) (d src : Operand) (s : State) (bs : List (Format × Word)) (mode : RoundMode),
    ArithReady s d [src] bs → RoundMode.ofRnd s.rnd = some mode →
    (∀ s1 m1 s2 m2, operandValues bs = [.fin s1 m1, .fin s2 m2] →
      (m1 * m2 ≠ 0 → CompletesWith s (.fmul f d src) f d (deliverSigned s mode d [d, src] (xor s1 s2) (m1 * m2))) ∧
      (m1 * m2 = 0 → exec (.fmul f d src) s =
        .next (arithNext s f d (encZero (formatOf (opSize d)) (xor s1 s2)) []))) ∧
    (∀ a b ps, operandValues bs = [a, b] → InfiniteProduct ps a b →
      exec (.fmul f d src) s = .next (arithNext s f d (encInf (formatOf (opSize d)) ps) []))

/-- `fdiv` completes, or traps on an unmasked exception: the exact quotient delivered, zeros and infinities of the
quotient's sign, and for a finite nonzero value over a zero an infinity with DIVBYZERO, or a quiet NaN with INVALID
where the parameter says so (rules R126, R139, decision D24). -/
def Obligations.Quotient : Prop :=
  ∀ (f : Bool) (d src : Operand) (s : State) (bs : List (Format × Word)) (mode : RoundMode),
    ArithReady s d [src] bs → RoundMode.ofRnd s.rnd = some mode →
    (∀ s1 m1 s2 m2, operandValues bs = [.fin s1 m1, .fin s2 m2] →
      (m1 ≠ 0 → m2 ≠ 0 →
        CompletesWith s (.fdiv f d src) f d (deliverSigned s mode d [d, src] (xor s1 s2) (m1 / m2))) ∧
      (m1 = 0 → m2 ≠ 0 → exec (.fdiv f d src) s =
        .next (arithNext s f d (encZero (formatOf (opSize d)) (xor s1 s2)) [])) ∧
      (m1 ≠ 0 → m2 = 0 →
        (s.impl.divZero = .divByZero →
          CompletesWith s (.fdiv f d src) f d (encInf (formatOf (opSize d)) (xor s1 s2), [.divByZero])) ∧
        (s.impl.divZero = .invalid →
          ∃ b sg', IsQuietNaN s.impl.signalling (formatOf (opSize d)) sg' b ∧
            CompletesWith s (.fdiv f d src) f d (b, [.invalid])))) ∧
    (∀ s1 s2 m, operandValues bs = [.inf s1, .fin s2 m] → exec (.fdiv f d src) s =
      .next (arithNext s f d (encInf (formatOf (opSize d)) (xor s1 s2)) [])) ∧
    (∀ s1 s2 m, operandValues bs = [.fin s1 m, .inf s2] → exec (.fdiv f d src) s =
      .next (arithNext s f d (encZero (formatOf (opSize d)) (xor s1 s2)) []))

/-- `frem` completes, or traps on an unmasked exception: by `FREM_KIND` the remainder of the truncated quotient,
below the divisor and with the sign of the dividend, or that of the quotient rounded to nearest even; by an infinity
the dividend itself (rule R140, decision D29; the zero of the nearest-even kind keeps the dividend's sign by log
entry 30). -/
def Obligations.Remainder : Prop :=
  ∀ (f : Bool) (d src : Operand) (s : State) (bs : List (Format × Word)) (mode : RoundMode),
    ArithReady s d [src] bs → RoundMode.ofRnd s.rnd = some mode →
    (∀ s1 m1 s2 m2 r n, operandValues bs = [.fin s1 m1, .fin s2 m2] → m2 ≠ 0 →
      n = (match s.impl.fremKind with
        | .truncating => roundInt (m1 / m2) false .towardZero
        | .nearestEven => roundInt (m1 / m2) false .halfEven) →
      r = m1 - m2 * (n : Rat) →
      (0 ≤ r → r < m2) ∧ (s.impl.fremKind = .truncating → 0 ≤ r) ∧
      (r = 0 → exec (.frem f d src) s = .next (arithNext s f d (encZero (formatOf (opSize d)) s1) [])) ∧
      (r ≠ 0 → CompletesWith s (.frem f d src) f d
        (deliverSigned s mode d [d, src] (xor s1 (decide (r < 0))) |r|))) ∧
    (∀ s1 m1 s2, operandValues bs = [.fin s1 m1, .inf s2] →
      (m1 = 0 → exec (.frem f d src) s = .next (arithNext s f d (encZero (formatOf (opSize d)) s1) [])) ∧
      (m1 ≠ 0 → CompletesWith s (.frem f d src) f d (deliverSigned s mode d [d, src] s1 m1)))

/-- `fma` completes, or traps on an unmasked exception: the product is added to the third operand without being
rounded, an exact zero has the sign of rule R92, and the infinities (rule R141; the sign of zero is decision D40). -/
def Obligations.FusedMultiplyAdd : Prop :=
  ∀ (f : Bool) (d a b : Operand) (s : State) (bs : List (Format × Word)) (mode : RoundMode),
    ArithReady s d [a, b] bs → RoundMode.ofRnd s.rnd = some mode →
    (∀ s1 m1 s2 m2 s3 m3 v, operandValues bs = [.fin s1 m1, .fin s2 m2, .fin s3 m3] →
      v = signed s1 m1 * signed s2 m2 + signed s3 m3 →
      (v ≠ 0 → CompletesWith s (.fma f d a b) f d (deliverTo s mode d [d, a, b] v)) ∧
      (v = 0 → exec (.fma f d a b) s =
        .next (arithNext s f d (encZero (formatOf (opSize d)) (zeroSumSign s (xor s1 s2) s3)) []))) ∧
    (∀ s1 m1 s2 m2 s3, operandValues bs = [.fin s1 m1, .fin s2 m2, .inf s3] →
      exec (.fma f d a b) s = .next (arithNext s f d (encInf (formatOf (opSize d)) s3) [])) ∧
    (∀ x y z ps, operandValues bs = [x, y, z] → InfiniteProduct ps x y → z.isNaN = false → z ≠ .inf (!ps) →
      exec (.fma f d a b) s = .next (arithNext s f d (encInf (formatOf (opSize d)) ps) []))

/-- An arithmetic instruction with a NaN operand delivers a quiet NaN, negative exactly when some NaN operand is, and
causes at most SIGNAL, by `ARITH_SNAN_SIGNAL`, which traps where it is unmasked (rules R93, R127; `fabs` and `fneg`
by decision D28, SIGNAL by D25, three operands by D45). -/
def Obligations.ArithmeticOnNaN : Prop :=
  ∀ (i : Instr) (f : Bool) (d : Operand) (others : List Operand) (s : State) (bs : List (Format × Word)),
    arithParts i = some (f, d, others) → ArithReady s d others bs → (roundsByRnd i = true → s.rnd < 5) →
    (∃ v, v ∈ operandValues bs ∧ v.isNaN = true) →
    ∃ b, IsQuietNaN s.impl.signalling (formatOf (opSize d)) ((operandValues bs).any FpVal.isNegNaN) b ∧
      CompletesWith s i f d (b,
        if s.impl.arithSnanSignal && bs.any (fun x => isSignalling s.impl.signalling x.1 x.2) then [.signal] else [])

/-- On the operands of rule R125, none of them a NaN, an arithmetic instruction causes INVALID alone and delivers a
quiet NaN, of which nothing else is said; INVALID traps where it is unmasked (rule R125; the list is decision D23). -/
def Obligations.InvalidOperations : Prop :=
  ∀ (i : Instr) (f : Bool) (d : Operand) (others : List Operand) (s : State) (bs : List (Format × Word)),
    arithParts i = some (f, d, others) → ArithReady s d others bs → s.rnd < 5 →
    InvalidOperands i (operandValues bs) →
    ∃ b sg, IsQuietNaN s.impl.signalling (formatOf (opSize d)) sg b ∧ CompletesWith s i f d (b, [.invalid])

/-! Comparisons. -/

/-- `fcmpz` and `fcmp` complete, in every rounding mode: the flags are those the map gives the outcome, unordered
exactly with a NaN and else the numeric order of the exact values, `+0.0` first for `fcmpz`; SIGNAL is caused by a
signalling operand, and traps instead where it is unmasked (rules R152 to R156, R172 to R174; the map is a parameter,
decision D31). -/
def Obligations.Comparisons : Prop :=
  (∀ (a : Operand) (s : State) (x : Word) (e : List FpExc), Enabled s [a] → fcmpzConstraint a = .admitted →
    s.readOp a = .ok x →
    e = (if isSignalling s.impl.signalling (formatOf (opSize a)) x then [.signal] else []) →
    ∃ o, HasOutcome (.fin false 0) (decodeFp (formatOf (opSize a)) x) o ∧
      EndsIn s (.fcmpz a) e (cmpNext s (cmpFlags s.impl.fcmpMap o) e)) ∧
  ∀ (a b : Operand) (s : State) (x y : Word) (e : List FpExc), Enabled s [a, b] → fcmpConstraint a b = .admitted →
    s.readOp a = .ok x → s.readOp b = .ok y →
    e = (if isSignalling s.impl.signalling (formatOf (opSize a)) x ||
      isSignalling s.impl.signalling (formatOf (opSize b)) y then [.signal] else []) →
    ∃ o, HasOutcome (decodeFp (formatOf (opSize a)) x) (decodeFp (formatOf (opSize b)) y) o ∧
      EndsIn s (.fcmp a b) e (cmpNext s (cmpFlags s.impl.fcmpMap o) e)

/-! Frames. -/

/-- What an arithmetic instruction leaves unchanged: every general register, every floating-point register but its
destination, `fpcrw` outside the six `EXCEPT` bits, the flags `C`, `V` and `XM` and, with `f` set, all of them,
`cr0`, `cpuex2`, the program, and every byte outside a memory destination (rules R13, R21, R25, R128, R129). Its
destination is a floating-point register or memory, so no register that might be `cr0` can be one. -/
def Obligations.ArithmeticFrame : Prop :=
  ∀ (i : Instr) (f : Bool) (d : Operand) (others : List Operand) (s t : State),
    arithParts i = some (f, d, others) → exec i s = .next t →
    t.gpr = s.gpr ∧ (∀ k : Fin 8, (∀ z, d ≠ .reg (24 + k.val) z) → t.f[k] = s.f[k]) ∧
    (∀ j, j < 8 ∨ 13 < j → t.fpcrw.getLsbD j = s.fpcrw.getLsbD j) ∧
    t.flags.c = s.flags.c ∧ t.flags.v = s.flags.v ∧ (f = true → t.flags = s.flags) ∧
    SameControl s t ∧ MemoryFrame s t d

/-- What a converting move leaves unchanged: every register but its destination, `fpcrw` outside the six `EXCEPT`
bits where the destination is not `fpcrw`, the flags `C`, `V`, `P` and `XM` and, with `f` set, all of them, `cr0`,
`cpuex2`, the program, and every byte outside a memory destination (rules R13, R21, R25, R104 to R108). That `cr0` and
`cpuex2` are unchanged whatever register is the destination rests on the model's choice that no operand names them
(log entry 14, DESIGN CHOICE). -/
def Obligations.ConvertingMoveFrame : Prop :=
  ∀ (i : Instr) (f : Bool) (d src : Operand) (s t : State),
    moveParts i = some (f, d, src) → exec i s = .next t →
    (∀ n, (∀ z, d ≠ .reg n z) → cellGet t.gpr n = cellGet s.gpr n) ∧
    (∀ k : Fin 8, (∀ z, d ≠ .reg (24 + k.val) z) → t.f[k] = s.f[k]) ∧
    ((∀ z, d ≠ .reg 19 z) → ∀ j, j < 8 ∨ 13 < j → t.fpcrw.getLsbD j = s.fpcrw.getLsbD j) ∧
    t.flags.c = s.flags.c ∧ t.flags.v = s.flags.v ∧ t.flags.p = s.flags.p ∧ (f = true → t.flags = s.flags) ∧
    SameControl s t ∧ MemoryFrame s t d

/-- What a comparison leaves unchanged: every register and every byte of memory, `fpcrw` but for the SIGNAL bit, and
the flags `V` and `XM`; `fraiseexcept` and `ftriggerexcept` write nothing at all (rules R150, R155, R160). -/
def Obligations.ComparisonAndTriggerFrame : Prop :=
  (∀ (i : Instr) (s t : State), ((∃ a, i = .fcmpz a) ∨ ∃ a b, i = .fcmp a b) → exec i s = .next t →
    t.gpr = s.gpr ∧ t.f = s.f ∧ (∀ j, j ≠ 13 → t.fpcrw.getLsbD j = s.fpcrw.getLsbD j) ∧
    t.flags.v = s.flags.v ∧ SameControl s t ∧ ∀ a, readByte t.mem a = readByte s.mem a) ∧
  ∀ (i : Instr) (s t : State), i = .fraiseexcept ∨ i = .ftriggerexcept → exec i s = .next t →
    t.gpr = s.gpr ∧ t.f = s.f ∧ t.fpcrw = s.fpcrw ∧ t.flags = s.flags ∧ SameControl s t ∧
    ∀ a, readByte t.mem a = readByte s.mem a

/-! Base instructions and reserved rounding modes. -/

/-- `mov` stores the bits of its source unchanged, and sets no bit of `fpcrw` unless that is its destination; a
source narrower than the destination gives the low bits; `test` and `cmp` change the five condition flags alone; and
with `cr0.FPEN = 0` a register of the extension among the operands of any of the five instructions raises UND (rules
R12, R13, R71, decision D36; that `mov` and the two comparisons change the condition flags and nothing else is
PRESUMED, log entry 34, the forms of the operands are log entry 46, and that a write to `flags` sets `XM` is log entry
49). -/
def Obligations.BaseMovesAreBitwise : Prop :=
  (∀ (d src : Operand) (s : State) (w : Word), BaseReady s [d, src] → baseDestination s.impl d = true →
    s.readOp src = .ok w → Writable s d →
    ∃ v t, execBase .mov [d, src] s = .next t ∧
      ((opSize d).bytes ≤ (opSize src).bytes → v = w) ∧
      ((opSize src).bytes ≤ (opSize d).bytes → (opSize src).truncate v = (opSize src).truncate w) ∧
      t = { stored s d v with flags := t.flags, ip := s.ip + 1, draws := s.draws + 1 } ∧
      (isFlagsReg s.impl d = true → t.flags = (stored s d v).flags) ∧
      (isFlagsReg s.impl d = false → t.flags.xm = s.flags.xm ∧ t.flags.rest = s.flags.rest)) ∧
  (∀ (m : BaseMnemonic) (a b : Operand) (s : State) (x y : Word), m = .test ∨ m = .cmp →
    BaseReady s [a, b] → s.readOp a = .ok x → s.readOp b = .ok y →
    ∃ t, execBase m [a, b] s = .next t ∧
      t = { s with flags := t.flags, ip := s.ip + 1, draws := s.draws + 1 } ∧
      t.flags.xm = s.flags.xm ∧ t.flags.rest = s.flags.rest) ∧
  ∀ (m : BaseMnemonic) (ops : List Operand) (s : State) (n : Nat) (z : OpSize), s.fpen = false →
    n = 19 ∨ (24 ≤ n ∧ n ≤ 31) → Operand.reg n z ∈ ops → execBase m ops s = .next (s.raise .und)

/-- `cmp` orders bit patterns totally: it sets `Z` exactly when the patterns are equal, and `N` differs from `V` exactly
when the first is the lesser as a signed integer, so that the flags tell which of the three holds (rule R71; which flags
carry the order, and that it is the signed one, is PRESUMED, log entry 44). `xchg` leaves in each operand the bits the
other held, and `cmpxchg` stores the bits of its third operand in the first where the first two hold the same bits, and
the bits of the first in the second where they do not; nothing else but flags is written (rules R13, R71, R74; what the
two instructions do is PRESUMED, log entries 34 and 45, and that a memory operand is written before a register is the
model's choice, log entry 47). A condition flag is free but for those of `cmp`, unless `flags` itself is written, which
then keeps what was written (log entries 34 and 49). Between operands of one size no bit is changed on the way; where
the sizes differ, a narrower destination takes the low bits, a wider one keeps them below bits that are free, and
patterns are compared at the wider size. That unequal sizes, and forms without a floating-point register (general
registers or memory alone, an immediate as an operand of `cmp` or as the source of `cmpxchg`), run at all is the model's
choice, log entry 46. -/
def Obligations.BaseComparesAndExchanges : Prop :=
  (∀ (p q : OpSize) (w : Word), (wider p q).bytes = max p.bytes q.bytes ∧
    (q.bytes ≤ p.bytes → widen p q w = w) ∧ (p.bytes ≤ q.bytes → p.truncate (widen p q w) = p.truncate w)) ∧
  (∀ (a b : Operand) (s : State) (x y x' y' : Word) (z : OpSize), BaseReady s [a, b] →
    s.readOp a = .ok x → s.readOp b = .ok y → z = wider (opSize a) (opSize b) →
    x' = widen (opSize a) z x → y' = widen (opSize b) z y →
    ∃ t, execBase .cmp [a, b] s = .next t ∧ (t.flags.z = true ↔ x' = y') ∧
      (t.flags.n ≠ t.flags.v ↔ z.sint x' < z.sint y') ∧
      (t.flags.z = false → t.flags.n = t.flags.v → z.sint y' < z.sint x')) ∧
  (∀ (a b : Operand) (s : State) (x y x' y' : Word), BaseReady s [a, b] →
    baseDestination s.impl a = true → baseDestination s.impl b = true →
    s.readOp a = .ok x → s.readOp b = .ok y → Writable s a → Writable s b →
    x' = widen (opSize a) (opSize b) x → y' = widen (opSize b) (opSize a) y →
    ∃ t, execBase .xchg [a, b] s = .next t ∧
      BaseWrote s (if isMem b && !isMem a then stored (stored s b x') a y' else stored (stored s a y') b x')
        (isFlagsReg s.impl a || isFlagsReg s.impl b) t) ∧
  ∀ (d e src : Operand) (s : State) (x y w : Word) (z : OpSize), BaseReady s [d, e, src] →
    baseDestination s.impl d = true → baseDestination s.impl e = true →
    s.readOp d = .ok x → s.readOp e = .ok y → s.readOp src = .ok w → Writable s d → Writable s e →
    z = wider (opSize d) (opSize e) →
    ∃ t, execBase .cmpxchg [d, e, src] s = .next t ∧
      (widen (opSize d) z x = widen (opSize e) z y →
        BaseWrote s (stored s d (widen (opSize src) (opSize d) w)) (isFlagsReg s.impl d) t) ∧
      (widen (opSize d) z x ≠ widen (opSize e) z y →
        BaseWrote s (stored s e (widen (opSize d) (opSize e) x)) (isFlagsReg s.impl e) t)

/-- While `fpcrw.RND` is 5, 6 or 7 an instruction that rounds by it is refused, once its checks have passed; the
others complete by their own statements (rules R21, R89; the refusal is the spec's U3, log entry 18). -/
def Obligations.ReservedRoundingIsRefused : Prop :=
  ∀ (i : Instr) (s : State), roundsByRnd i = true → 5 ≤ s.rnd → Enabled s i.operands →
    operandVerdict s i = .admitted → ((moveParts i).isSome = true → Permitted s i.operands) →
    AllAccess s (accessesOf i) → exec i s = .refused .reservedRounding
end

