-- ==== Sys2Proof/Laws/Memory.lean ====
section
/-! SUPPORT. Sparse arrays and memory: a write is read back at its index and nowhere else, and every operation keeps
the canonical form. -/

namespace Sys2Proof.Machine

variable {w : Nat}

/-! Reading after writing. -/

theorem cellGet_erase_same (m : Cells w) (a : Nat) : cellGet (cellErase m a) a = 0 := by
  induction m with
  | nil => rfl
  | cons c m ih =>
    obtain ⟨k, v⟩ := c
    by_cases h : k = a <;> simp [cellErase, cellGet, h, ih]

theorem cellGet_erase_other (m : Cells w) {a b : Nat} (hab : b ≠ a) :
    cellGet (cellErase m a) b = cellGet m b := by
  induction m with
  | nil => rfl
  | cons c m ih =>
    obtain ⟨k, v⟩ := c
    by_cases h : k = a
    · have : k ≠ b := fun hb => hab (hb.symm.trans h)
      simp [cellErase, cellGet, h, ih]
      omega
    · by_cases hb : k = b
      · subst hb
        simp [cellErase, cellGet, h]
      · simp [cellErase, cellGet, h, hb, ih]

theorem cellGet_insert_same (m : Cells w) (a : Nat) (b : BitVec w) (h : ∀ c ∈ m, c.1 ≠ a) :
    cellGet (cellInsert m a b) a = b := by
  induction m with
  | nil => simp [cellInsert, cellGet]
  | cons c m ih =>
    obtain ⟨k, v⟩ := c
    have hk : k ≠ a := h (k, v) (by simp)
    unfold cellInsert
    split
    · simp [cellGet]
    · simp [cellGet, hk, ih (fun c hc => h c (by simp [hc]))]

theorem cellGet_insert_other (m : Cells w) {a c : Nat} (b : BitVec w) (hac : c ≠ a) :
    cellGet (cellInsert m a b) c = cellGet m c := by
  induction m with
  | nil => simp [cellInsert, cellGet, hac.symm]
  | cons d m ih =>
    obtain ⟨k, v⟩ := d
    unfold cellInsert
    split
    · simp [cellGet, hac.symm]
    · by_cases hk : k = c <;> simp [cellGet, hk, ih]

theorem cellErase_mem (m : Cells w) (a : Nat) : ∀ c ∈ cellErase m a, c ∈ m ∧ c.1 ≠ a := by
  induction m with
  | nil => simp [cellErase]
  | cons d m ih =>
    obtain ⟨k, v⟩ := d
    intro c hc
    unfold cellErase at hc
    split at hc
    · exact ⟨by simp [(ih c hc).1], (ih c hc).2⟩
    · rename_i hk
      rcases List.mem_cons.1 hc with rfl | hc
      · exact ⟨by simp, hk⟩
      · exact ⟨by simp [(ih c hc).1], (ih c hc).2⟩

theorem cellInsert_mem (m : Cells w) (a : Nat) (b : BitVec w) :
    ∀ c ∈ cellInsert m a b, c = (a, b) ∨ c ∈ m := by
  induction m with
  | nil => simp [cellInsert]
  | cons d m ih =>
    obtain ⟨k, v⟩ := d
    intro c hc
    unfold cellInsert at hc
    split at hc
    · simpa using hc
    · rcases List.mem_cons.1 hc with rfl | hc
      · simp
      · rcases ih c hc with h | h <;> simp [h]

theorem cellSet_mem (m : Cells w) (a : Nat) (b : BitVec w) : ∀ c ∈ cellSet m a b, c = (a, b) ∨ c ∈ m := by
  intro c hc
  unfold cellSet at hc
  split at hc
  · exact .inr (cellErase_mem m a c hc).1
  · rcases cellInsert_mem _ a b c hc with h | h
    · exact .inl h
    · exact .inr (cellErase_mem m a c h).1

@[simp] theorem cellGet_set_same (m : Cells w) (a : Nat) (b : BitVec w) : cellGet (cellSet m a b) a = b := by
  unfold cellSet
  split
  · rename_i h; rw [cellGet_erase_same, h]
  · exact cellGet_insert_same _ _ _ fun c hc => (cellErase_mem m a c hc).2

theorem cellGet_set_other (m : Cells w) {a c : Nat} (b : BitVec w) (h : c ≠ a) :
    cellGet (cellSet m a b) c = cellGet m c := by
  unfold cellSet
  split
  · exact cellGet_erase_other m h
  · rw [cellGet_insert_other _ _ h, cellGet_erase_other m h]

/-! The canonical form. -/

theorem cellsWf_iff (m : Cells w) :
    cellsWf m = true ↔ m.Pairwise (fun x y => x.1 < y.1) ∧ ∀ c ∈ m, c.2 ≠ 0 := by
  simp [cellsWf]

theorem cellErase_sublist (m : Cells w) (a : Nat) : (cellErase m a).Sublist m := by
  induction m with
  | nil => exact .slnil
  | cons d m ih =>
    obtain ⟨k, v⟩ := d
    unfold cellErase
    split
    · exact ih.cons _
    · exact ih.cons_cons _

theorem cellInsert_pairwise (m : Cells w) (a : Nat) (b : BitVec w) (hm : m.Pairwise (fun x y => x.1 < y.1))
    (ha : ∀ c ∈ m, c.1 ≠ a) : (cellInsert m a b).Pairwise (fun x y => x.1 < y.1) := by
  induction m with
  | nil => simp [cellInsert]
  | cons d m ih =>
    obtain ⟨k, v⟩ := d
    have ⟨h1, h2⟩ := List.pairwise_cons.1 hm
    unfold cellInsert
    split
    · rename_i hlt
      refine List.pairwise_cons.2 ⟨fun c hc => ?_, hm⟩
      rcases List.mem_cons.1 hc with rfl | hc
      · exact hlt
      · exact Nat.lt_trans hlt (h1 c hc)
    · rename_i hlt
      have hk : k ≠ a := ha (k, v) (by simp)
      refine List.pairwise_cons.2 ⟨fun c hc => ?_, ih h2 fun c hc => ha c (by simp [hc])⟩
      rcases cellInsert_mem m a b c hc with rfl | hc
      · simp; omega
      · exact h1 c hc

/-- A write keeps the canonical form. -/
theorem cellSet_wf (m : Cells w) (a : Nat) (b : BitVec w) (h : cellsWf m = true) : cellsWf (cellSet m a b) = true := by
  obtain ⟨h1, h2⟩ := (cellsWf_iff m).1 h
  refine (cellsWf_iff _).2 ⟨?_, fun c hc => ?_⟩
  · unfold cellSet
    split
    · exact h1.sublist (cellErase_sublist m a)
    · exact cellInsert_pairwise _ _ _ (h1.sublist (cellErase_sublist m a)) fun c hc => (cellErase_mem m a c hc).2
  · unfold cellSet at hc
    split at hc
    · exact h2 c (cellErase_mem m a c hc).1
    · rename_i hb
      rcases cellInsert_mem _ a b c hc with rfl | hc
      · exact hb
      · exact h2 c (cellErase_mem m a c hc).1

theorem writeByte_wf (m : Memory) (a : Nat) (b : Byte) (h : Memory.wf m = true) :
    Memory.wf (writeByte m a b) = true := cellSet_wf m a b h

theorem writeBytes_wf (bs : List Byte) : ∀ (m : Memory) (a : Nat), Memory.wf m = true →
    Memory.wf (writeBytes m a bs) = true := by
  induction bs with
  | nil => exact fun m a h => h
  | cons b bs ih => exact fun m a h => ih _ _ (writeByte_wf m a b h)

/-- A store keeps the canonical form of memory. -/
theorem storeBytes_wf (o : ByteOrder) (m : Memory) (a n : Nat) (v : Word) (h : Memory.wf m = true) :
    Memory.wf (storeBytes o m a n v) = true := writeBytes_wf _ _ _ h

/-! Bytes. -/

@[simp] theorem readByte_writeByte_same (m : Memory) (a : Nat) (b : Byte) : readByte (writeByte m a b) a = b :=
  cellGet_set_same m a b

theorem readByte_writeByte_other (m : Memory) {a c : Nat} (b : Byte) (h : c ≠ a) :
    readByte (writeByte m a b) c = readByte m c := cellGet_set_other m b h

@[simp] theorem length_natToBytes (n : Nat) : ∀ v, (natToBytes v n).length = n := by
  induction n with
  | zero => exact fun _ => rfl
  | succ n ih => exact fun v => by simp [natToBytes, ih]

@[simp] theorem length_orderBytes (o : ByteOrder) (bs : List Byte) : (orderBytes o bs).length = bs.length := by
  cases o <;> simp [orderBytes]

/-- Bytes below or above those written are unchanged. -/
theorem readByte_writeBytes_other (bs : List Byte) : ∀ (m : Memory) (a c : Nat), c < a ∨ a + bs.length ≤ c →
    readByte (writeBytes m a bs) c = readByte m c := by
  induction bs with
  | nil => exact fun m a c _ => rfl
  | cons b bs ih =>
    intro m a c h
    simp only [List.length_cons] at h
    rw [writeBytes, ih _ _ _ (by omega), readByte_writeByte_other _ _ (by omega)]

/-- The listed addresses after bytes are written are old ones or those written. -/
theorem writeBytes_mem (bs : List Byte) : ∀ (m : Memory) (a : Nat), ∀ c ∈ writeBytes m a bs,
    c ∈ m ∨ (a ≤ c.1 ∧ c.1 < a + bs.length) := by
  induction bs with
  | nil => exact fun m a c hc => .inl hc
  | cons b bs ih =>
    intro m a c hc
    simp only [List.length_cons]
    rcases ih _ _ c hc with h | h
    · rcases cellSet_mem (w := 8) m a b c h with rfl | h
      · exact .inr (by simp)
      · exact .inl h
    · exact .inr (by omega)

/-- The listed addresses after a store are old ones or those stored to. -/
theorem storeBytes_mem (o : ByteOrder) (m : Memory) (a n : Nat) (v : Word) :
    ∀ c ∈ storeBytes o m a n v, c ∈ m ∨ (a ≤ c.1 ∧ c.1 < a + n) := by
  intro c hc
  simpa using writeBytes_mem _ m a c hc

end Sys2Proof.Machine
end

