-- ==== Sys2Proof/Laws/State.lean ====
section
/-! SUPPORT. What each update of the state leaves alone: one lemma per field per update. -/

namespace Sys2Proof.Machine

variable (s : State) (n : Nat) (v w : Word) (x : Trap) (e : List FpExc)

/-! Registers. -/

@[simp] theorem writeReg_cr0 : (s.writeReg n v).cr0 = s.cr0 := by
  unfold State.writeReg; split <;> rfl
@[simp] theorem writeReg_cpuex2 : (s.writeReg n v).cpuex2 = s.cpuex2 := by
  unfold State.writeReg; split <;> rfl
@[simp] theorem writeReg_ip : (s.writeReg n v).ip = s.ip := by
  unfold State.writeReg; split <;> rfl
@[simp] theorem writeReg_mem : (s.writeReg n v).mem = s.mem := by
  unfold State.writeReg; split <;> rfl
@[simp] theorem writeReg_program : (s.writeReg n v).program = s.program := by
  unfold State.writeReg; split <;> rfl
@[simp] theorem writeReg_trapped : (s.writeReg n v).trapped = s.trapped := by
  unfold State.writeReg; split <;> rfl
@[simp] theorem writeReg_draws : (s.writeReg n v).draws = s.draws := by
  unfold State.writeReg; split <;> rfl
@[simp] theorem writeReg_impl : (s.writeReg n v).impl = s.impl := by
  unfold State.writeReg; split <;> rfl

/-! Exceptions and completion. -/

@[simp] theorem raise_gpr : (s.raise x).gpr = s.gpr := rfl
@[simp] theorem raise_f : (s.raise x).f = s.f := rfl
@[simp] theorem raise_fpcrw : (s.raise x).fpcrw = s.fpcrw := rfl
@[simp] theorem raise_flags : (s.raise x).flags = s.flags := rfl
@[simp] theorem raise_cr0 : (s.raise x).cr0 = s.cr0 := rfl
@[simp] theorem raise_cpuex2 : (s.raise x).cpuex2 = s.cpuex2 := rfl
@[simp] theorem raise_ip : (s.raise x).ip = s.ip := rfl
@[simp] theorem raise_mem : (s.raise x).mem = s.mem := rfl
@[simp] theorem raise_program : (s.raise x).program = s.program := rfl
@[simp] theorem raise_draws : (s.raise x).draws = s.draws := rfl
@[simp] theorem raise_impl : (s.raise x).impl = s.impl := rfl
@[simp] theorem raise_trapped : (s.raise x).trapped = some x := rfl
@[simp] theorem record_gpr : (s.record e).gpr = s.gpr := rfl
@[simp] theorem record_f : (s.record e).f = s.f := rfl
@[simp] theorem record_flags : (s.record e).flags = s.flags := rfl
@[simp] theorem record_cr0 : (s.record e).cr0 = s.cr0 := rfl
@[simp] theorem record_cpuex2 : (s.record e).cpuex2 = s.cpuex2 := rfl
@[simp] theorem record_ip : (s.record e).ip = s.ip := rfl
@[simp] theorem record_mem : (s.record e).mem = s.mem := rfl
@[simp] theorem record_program : (s.record e).program = s.program := rfl
@[simp] theorem record_trapped : (s.record e).trapped = s.trapped := rfl
@[simp] theorem record_draws : (s.record e).draws = s.draws := rfl
@[simp] theorem record_impl : (s.record e).impl = s.impl := rfl
@[simp] theorem record_fpcrw : (s.record e).fpcrw = assertExcs s.fpcrw e := rfl
@[simp] theorem advance_gpr : (s.advance).gpr = s.gpr := rfl
@[simp] theorem advance_f : (s.advance).f = s.f := rfl
@[simp] theorem advance_fpcrw : (s.advance).fpcrw = s.fpcrw := rfl
@[simp] theorem advance_flags : (s.advance).flags = s.flags := rfl
@[simp] theorem advance_cr0 : (s.advance).cr0 = s.cr0 := rfl
@[simp] theorem advance_cpuex2 : (s.advance).cpuex2 = s.cpuex2 := rfl
@[simp] theorem advance_mem : (s.advance).mem = s.mem := rfl
@[simp] theorem advance_program : (s.advance).program = s.program := rfl
@[simp] theorem advance_trapped : (s.advance).trapped = s.trapped := rfl
@[simp] theorem advance_impl : (s.advance).impl = s.impl := rfl
@[simp] theorem advance_ip : s.advance.ip = s.ip + 1 := rfl
@[simp] theorem advance_draws : s.advance.draws = s.draws + 1 := rfl

/-! Flags. -/

@[simp] theorem setFlagsNZ_gpr (F : Format) (b : Word) : (s.setFlagsNZ F b).gpr = s.gpr := rfl
@[simp] theorem setFlagsNZ_f (F : Format) (b : Word) : (s.setFlagsNZ F b).f = s.f := rfl
@[simp] theorem setFlagsNZ_fpcrw (F : Format) (b : Word) : (s.setFlagsNZ F b).fpcrw = s.fpcrw := rfl
@[simp] theorem setFlagsNZ_cr0 (F : Format) (b : Word) : (s.setFlagsNZ F b).cr0 = s.cr0 := rfl
@[simp] theorem setFlagsNZ_cpuex2 (F : Format) (b : Word) : (s.setFlagsNZ F b).cpuex2 = s.cpuex2 := rfl
@[simp] theorem setFlagsNZ_ip (F : Format) (b : Word) : (s.setFlagsNZ F b).ip = s.ip := rfl
@[simp] theorem setFlagsNZ_mem (F : Format) (b : Word) : (s.setFlagsNZ F b).mem = s.mem := rfl
@[simp] theorem setFlagsNZ_program (F : Format) (b : Word) : (s.setFlagsNZ F b).program = s.program := rfl
@[simp] theorem setFlagsNZ_trapped (F : Format) (b : Word) : (s.setFlagsNZ F b).trapped = s.trapped := rfl
@[simp] theorem setFlagsNZ_draws (F : Format) (b : Word) : (s.setFlagsNZ F b).draws = s.draws := rfl
@[simp] theorem setFlagsNZ_impl (F : Format) (b : Word) : (s.setFlagsNZ F b).impl = s.impl := rfl
@[simp] theorem setFlagsNZP_gpr (F : Format) (b : Word) : (s.setFlagsNZP F b).gpr = s.gpr := rfl
@[simp] theorem setFlagsNZP_f (F : Format) (b : Word) : (s.setFlagsNZP F b).f = s.f := rfl
@[simp] theorem setFlagsNZP_fpcrw (F : Format) (b : Word) : (s.setFlagsNZP F b).fpcrw = s.fpcrw := rfl
@[simp] theorem setFlagsNZP_cr0 (F : Format) (b : Word) : (s.setFlagsNZP F b).cr0 = s.cr0 := rfl
@[simp] theorem setFlagsNZP_cpuex2 (F : Format) (b : Word) : (s.setFlagsNZP F b).cpuex2 = s.cpuex2 := rfl
@[simp] theorem setFlagsNZP_ip (F : Format) (b : Word) : (s.setFlagsNZP F b).ip = s.ip := rfl
@[simp] theorem setFlagsNZP_mem (F : Format) (b : Word) : (s.setFlagsNZP F b).mem = s.mem := rfl
@[simp] theorem setFlagsNZP_program (F : Format) (b : Word) : (s.setFlagsNZP F b).program = s.program := rfl
@[simp] theorem setFlagsNZP_trapped (F : Format) (b : Word) : (s.setFlagsNZP F b).trapped = s.trapped := rfl
@[simp] theorem setFlagsNZP_draws (F : Format) (b : Word) : (s.setFlagsNZP F b).draws = s.draws := rfl
@[simp] theorem setFlagsNZP_impl (F : Format) (b : Word) : (s.setFlagsNZP F b).impl = s.impl := rfl
@[simp] theorem setFlagsInt_gpr (r : Int) : (s.setFlagsInt r).gpr = s.gpr := rfl
@[simp] theorem setFlagsInt_f (r : Int) : (s.setFlagsInt r).f = s.f := rfl
@[simp] theorem setFlagsInt_fpcrw (r : Int) : (s.setFlagsInt r).fpcrw = s.fpcrw := rfl
@[simp] theorem setFlagsInt_cr0 (r : Int) : (s.setFlagsInt r).cr0 = s.cr0 := rfl
@[simp] theorem setFlagsInt_cpuex2 (r : Int) : (s.setFlagsInt r).cpuex2 = s.cpuex2 := rfl
@[simp] theorem setFlagsInt_ip (r : Int) : (s.setFlagsInt r).ip = s.ip := rfl
@[simp] theorem setFlagsInt_mem (r : Int) : (s.setFlagsInt r).mem = s.mem := rfl
@[simp] theorem setFlagsInt_program (r : Int) : (s.setFlagsInt r).program = s.program := rfl
@[simp] theorem setFlagsInt_trapped (r : Int) : (s.setFlagsInt r).trapped = s.trapped := rfl
@[simp] theorem setFlagsInt_draws (r : Int) : (s.setFlagsInt r).draws = s.draws := rfl
@[simp] theorem setFlagsInt_impl (r : Int) : (s.setFlagsInt r).impl = s.impl := rfl
@[simp] theorem setFlagsCmp_gpr (o : CmpOutcome) : (s.setFlagsCmp o).gpr = s.gpr := rfl
@[simp] theorem setFlagsCmp_f (o : CmpOutcome) : (s.setFlagsCmp o).f = s.f := rfl
@[simp] theorem setFlagsCmp_fpcrw (o : CmpOutcome) : (s.setFlagsCmp o).fpcrw = s.fpcrw := rfl
@[simp] theorem setFlagsCmp_cr0 (o : CmpOutcome) : (s.setFlagsCmp o).cr0 = s.cr0 := rfl
@[simp] theorem setFlagsCmp_cpuex2 (o : CmpOutcome) : (s.setFlagsCmp o).cpuex2 = s.cpuex2 := rfl
@[simp] theorem setFlagsCmp_ip (o : CmpOutcome) : (s.setFlagsCmp o).ip = s.ip := rfl
@[simp] theorem setFlagsCmp_mem (o : CmpOutcome) : (s.setFlagsCmp o).mem = s.mem := rfl
@[simp] theorem setFlagsCmp_program (o : CmpOutcome) : (s.setFlagsCmp o).program = s.program := rfl
@[simp] theorem setFlagsCmp_trapped (o : CmpOutcome) : (s.setFlagsCmp o).trapped = s.trapped := rfl
@[simp] theorem setFlagsCmp_draws (o : CmpOutcome) : (s.setFlagsCmp o).draws = s.draws := rfl
@[simp] theorem setFlagsCmp_impl (o : CmpOutcome) : (s.setFlagsCmp o).impl = s.impl := rfl
@[simp] theorem setCond_gpr (k : CondFlags) : (s.setCond k).gpr = s.gpr := rfl
@[simp] theorem setCond_f (k : CondFlags) : (s.setCond k).f = s.f := rfl
@[simp] theorem setCond_fpcrw (k : CondFlags) : (s.setCond k).fpcrw = s.fpcrw := rfl
@[simp] theorem setCond_cr0 (k : CondFlags) : (s.setCond k).cr0 = s.cr0 := rfl
@[simp] theorem setCond_cpuex2 (k : CondFlags) : (s.setCond k).cpuex2 = s.cpuex2 := rfl
@[simp] theorem setCond_ip (k : CondFlags) : (s.setCond k).ip = s.ip := rfl
@[simp] theorem setCond_mem (k : CondFlags) : (s.setCond k).mem = s.mem := rfl
@[simp] theorem setCond_program (k : CondFlags) : (s.setCond k).program = s.program := rfl
@[simp] theorem setCond_trapped (k : CondFlags) : (s.setCond k).trapped = s.trapped := rfl
@[simp] theorem setCond_draws (k : CondFlags) : (s.setCond k).draws = s.draws := rfl
@[simp] theorem setCond_impl (k : CondFlags) : (s.setCond k).impl = s.impl := rfl

@[simp] theorem unlessF_true (t : State) : unlessF true s t = s := rfl
@[simp] theorem unlessF_false (t : State) : unlessF false s t = t := rfl

/-! The setters and the placing of an instruction. -/

@[simp] theorem setFpcrw_fpcrw : (s.setFpcrw w).fpcrw = w := rfl
@[simp] theorem setFpcrw_cr0 : (s.setFpcrw w).cr0 = s.cr0 := rfl
@[simp] theorem setFpen_fpcrw (b : Bool) : (s.setFpen b).fpcrw = s.fpcrw := rfl
@[simp] theorem setFpexcpt_fpcrw (b : Bool) : (s.setFpexcpt b).fpcrw = s.fpcrw := rfl
@[simp] theorem withEntry_ip (a : Entry) : (s.withEntry a).ip = s.ip := rfl
@[simp] theorem withEntry_trapped (a : Entry) : (s.withEntry a).trapped = none := rfl
@[simp] theorem withEntry_mem (a : Entry) : (s.withEntry a).mem = s.mem := rfl
@[simp] theorem withEntry_cr0 (a : Entry) : (s.withEntry a).cr0 = s.cr0 := rfl

/-! The control bits through the updates. -/

@[simp] theorem raise_fpen : (s.raise x).fpen = s.fpen := rfl
@[simp] theorem record_fpen : (s.record e).fpen = s.fpen := rfl
@[simp] theorem advance_fpen : s.advance.fpen = s.fpen := rfl
@[simp] theorem record_fpTrap : (s.record e).fpTrap = s.fpTrap := rfl
@[simp] theorem writeReg_fpen : (s.writeReg n v).fpen = s.fpen := by simp [State.fpen]

end Sys2Proof.Machine
end

