-- ==== Sys2Proof/Laws/Ops.lean ====
section
/-! SUPPORT. What each shared operation can do, said once: the later proofs cite these lemmas and do not unfold the
operation. -/

namespace Sys2Proof.Machine

/-! Bits of the control words. -/

theorem getLsbD_setBit (w : Word) (i j : Nat) (b : Bool) :
    (setBit w i b).getLsbD j = if j = i ∧ j < 64 then b else w.getLsbD j := by
  by_cases hj : j < 64
  · by_cases hji : j = i
    · subst hji
      cases b <;> simp [setBit, hj]
    · have : ¬ (j - i = 0 ∧ i ≤ j) := by omega
      cases b <;> simp [setBit, hj, hji] <;> intro h <;> omega
  · simp [hj, BitVec.getLsbD_of_ge _ _ (Nat.le_of_not_lt hj)]

/-- Every bit of the control word after exceptions are recorded: set if it was, or if it is the `EXCEPT` bit of one
of them. -/
theorem getLsbD_assertExcs (e : List FpExc) : ∀ (w : Word) (j : Nat),
    (assertExcs w e).getLsbD j = (w.getLsbD j || e.any (fun x => j == 8 + x.number)) := by
  induction e with
  | nil => simp [assertExcs]
  | cons x e ih =>
    intro w j
    have hx : 8 + x.number < 64 := by cases x <;> decide
    rw [assertExcs, ih, getLsbD_setBit]
    by_cases h : j = 8 + x.number
    · subst h; simp [hx]
    · have : (j == 8 + x.number) = false := by simpa using h
      simp [h, this]

theorem number_le (x : FpExc) : x.number ≤ 5 := by cases x <;> decide

theorem number_inj {x y : FpExc} (h : x.number = y.number) : x = y := by
  cases x <;> cases y <;> first | rfl | exact absurd h (by decide)

/-- Recording exceptions changes only bits 8 to 13 of `fpcrw`. -/
theorem getLsbD_assertExcs_outside (w : Word) (e : List FpExc) (j : Nat) (h : j < 8 ∨ 13 < j) :
    (assertExcs w e).getLsbD j = w.getLsbD j := by
  rw [getLsbD_assertExcs]
  have : e.any (fun x => j == 8 + x.number) = false := by
    rw [List.any_eq_false]
    intro x _
    have := number_le x
    simp; omega
  simp [this]

@[simp] theorem masked_record (s : State) (e : List FpExc) (x : FpExc) : (s.record e).masked x = s.masked x := by
  have := number_le x
  simp only [State.masked, State.emaskAll, record_fpcrw]
  rw [getLsbD_assertExcs_outside _ _ _ (by omega), getLsbD_assertExcs_outside _ _ _ (by omega)]

theorem anyUnmasked_eq_false {s : State} {e : List FpExc} (h : AllMasked s e) : s.anyUnmasked e = false := by
  rw [State.anyUnmasked, List.any_eq_false]
  exact fun x hx => by simp [h x hx]

/-! Registers and operands. -/

/-- Writing a register leaves its control bits, program, memory and position alone; the four fields it can write
are told by the register's class. -/
theorem writeReg_cases (s : State) (n : Nat) (v : Word) :
    (regClass s.impl n = .fpcrw ∧ s.writeReg n v = { s with fpcrw := v }) ∨
    (∃ k, regClass s.impl n = .f k ∧ s.writeReg n v = { s with f := s.f.set k.val v }) ∨
    (regClass s.impl n = .flags ∧ s.writeReg n v = { s with flags := flagsOfWord s.impl.flagPos v }) ∨
    (regClass s.impl n = .ip ∧ s.writeReg n v = s) ∨
    (regClass s.impl n = .general ∧ s.writeReg n v = { s with gpr := cellSet s.gpr n v }) := by
  unfold State.writeReg
  cases h : regClass s.impl n <;> simp

theorem regClass_f {impl : Impl} {n : Nat} (h : 24 ≤ n ∧ n ≤ 31) :
    regClass impl n = .f ⟨n - 24, by omega⟩ := by
  have h19 : n ≠ 19 := by omega
  simp [regClass, h19, h]

theorem regClass_fpcrw (impl : Impl) : regClass impl 19 = .fpcrw := by simp [regClass]

theorem regClass_eq_fpcrw {impl : Impl} {n : Nat} (h : regClass impl n = .fpcrw) : n = 19 := by
  unfold regClass at h
  repeat' split at h
  all_goals first | assumption | cases h

theorem regClass_eq_f {impl : Impl} {n : Nat} {k : Fin 8} (h : regClass impl n = .f k) : n = 24 + k.val := by
  unfold regClass at h
  repeat' split at h
  all_goals first | (cases h; simp; omega) | cases h

/-- What writing an operand can do (rule R61). -/
theorem writeOp_cases {s t : State} {d : Operand} {v : Word} (h : s.writeOp d v = .ok t) :
    (∃ n z, d = .reg n z ∧ t = s.writeReg n (z.truncate v)) ∨
    (∃ ea z pa, d = .mem ea z ∧ s.access ea z .write = .ok pa ∧ inText s.impl pa z.bytes = false ∧
      t = { s with mem := storeBytes s.impl.byteOrder s.mem pa z.bytes v }) := by
  cases d with
  | reg n z =>
    simp only [State.writeOp, Except.ok.injEq] at h
    exact .inl ⟨n, z, rfl, h.symm⟩
  | mem ea z =>
    simp only [State.writeOp, State.memWrite] at h
    split at h
    · cases h
    · rename_i pa ha
      split at h
      · cases h
      · rename_i ht
        simp only [Except.ok.injEq] at h
        exact .inr ⟨ea, z, pa, rfl, ha, by simpa using ht, h.symm⟩
  | imm v z l => simp [State.writeOp] at h

/-- Writing an operand that can be written gives the state `stored` describes. -/
theorem writeOp_of_writable {s : State} {d : Operand} (v : Word) (h : Writable s d) :
    s.writeOp d v = .ok (stored s d v) := by
  cases d with
  | reg n z => rfl
  | mem ea z =>
    obtain ⟨pa, ha, ht⟩ := h
    simp [State.writeOp, State.memWrite, stored, ha, ht]
  | imm v z l => exact h.elim

@[simp] theorem stored_impl (s : State) (d : Operand) (v : Word) : (stored s d v).impl = s.impl := by
  unfold stored State.writeReg
  repeat' split
  all_goals rfl

@[simp] theorem stored_ip (s : State) (d : Operand) (v : Word) : (stored s d v).ip = s.ip := by
  unfold stored State.writeReg
  repeat' split
  all_goals rfl

@[simp] theorem stored_draws (s : State) (d : Operand) (v : Word) : (stored s d v).draws = s.draws := by
  unfold stored State.writeReg
  repeat' split
  all_goals rfl

@[simp] theorem access_record (s : State) (e : List FpExc) (ea : Word) (z : OpSize) (k : AccessKind) :
    (s.record e).access ea z k = s.access ea z k := rfl

@[simp] theorem access_setCond (s : State) (c : CondFlags) (ea : Word) (z : OpSize) (k : AccessKind) :
    (s.setCond c).access ea z k = s.access ea z k := rfl

theorem writable_record {s : State} {d : Operand} (e : List FpExc) (h : Writable s d) :
    Writable (s.record e) d := by
  cases d with
  | reg n z => trivial
  | mem ea z => exact h
  | imm v z l => exact h

/-- What holds of an access that goes on: its alignment is admitted and it translates (rules R42, R43). -/
theorem access_cases {s : State} {ea : Word} {z : OpSize} {k : AccessKind} {pa : Nat} (h : s.access ea z k = .ok pa) :
    alignmentOf s.impl.alignment ea.toNat z.bytes k = .ok ∧
      translate s.impl ea.toNat z.bytes k s.flags.xm = .ok pa := by
  unfold State.access at h
  repeat' split at h
  all_goals cases h
  exact ⟨by assumption, by assumption⟩

/-- A permitted access lies in the physical address space (rule R43). -/
theorem access_inSpace {s : State} {ea : Word} {z : OpSize} {k : AccessKind} {pa : Nat}
    (h : s.access ea z k = .ok pa) : pa + z.bytes ≤ 2 ^ s.impl.addrWidth := by
  have key : ∀ p, translate s.impl ea.toNat z.bytes k s.flags.xm = .ok p → p + z.bytes ≤ 2 ^ s.impl.addrWidth := by
    intro p hp
    unfold translate at hp
    split at hp
    · split at hp
      · cases hp; assumption
      · cases hp
    · cases hp
    · cases hp
  rcases access_cases h with ⟨_, ht⟩
  exact key pa ht

/-! The common checks (rule R80). -/

/-- What holds when the checks pass. -/
theorem fpCommonChecks_ok {s : State} {v : Verdict} {c : Bool} {l : List Access} {u : Unit}
    (h : fpCommonChecks s v c l = .ok u) :
    s.fpen = true ∧ (∀ a ∈ l, a.1.wellFormed = true) ∧ v = .admitted ∧ s.xopss ≠ 3 ∧
      (c = true → s.flags.xm = true → ∀ a ∈ l, isSuper s.impl a.1 = false) ∧ checkAccesses s l = .ok u := by
  unfold fpCommonChecks at h
  split at h
  · cases h
  rename_i h1
  split at h
  · cases h
  rename_i h2
  split at h
  · cases h
  · cases h
  split at h
  · cases h
  rename_i h3
  split at h
  · cases h
  rename_i h4
  refine ⟨by simpa using h1, by simpa using h2, rfl, h3, fun hc hx a ha => ?_, h⟩
  simp only [hc, hx, Bool.and_true, Bool.true_and, List.any_eq_true, not_exists, not_and] at h4
  simpa using h4 a ha

/-- The checks pass under the conditions the rules give. -/
theorem fpCommonChecks_pass {s : State} {v : Verdict} {c : Bool} {l : List Access}
    (h1 : s.fpen = true) (h2 : ∀ a ∈ l, a.1.wellFormed = true) (h3 : v = .admitted) (h4 : s.xopss ≠ 3)
    (h5 : c = true → s.flags.xm = false ∨ ∀ a ∈ l, isSuper s.impl a.1 = false)
    (h6 : checkAccesses s l = .ok ()) : fpCommonChecks s v c l = .ok () := by
  subst h3
  have h2' : l.all (fun a => a.1.wellFormed) = true := by simpa using h2
  have h5' : (c && s.flags.xm && l.any (fun a => isSuper s.impl a.1)) = false := by
    cases c with
    | false => rfl
    | true =>
      rcases h5 rfl with h | h
      · simp [h]
      · have : l.any (fun a => isSuper s.impl a.1) = false := by
          rw [List.any_eq_false]; exact fun a ha => by simp [h a ha]
        simp [this]
  simp [fpCommonChecks, h1, h2', h4, h5', h6]

/-- An operand whose value can be read passes the read check. -/
theorem access_of_readOp {s : State} {ea : Word} {z : OpSize} {x : Word} (h : s.readOp (.mem ea z) = .ok x) :
    ∃ pa, s.access ea z .read = .ok pa := by
  simp only [State.readOp, State.memRead] at h
  split at h
  · cases h
  · exact ⟨_, by assumption⟩

/-- An operand passes the checks of its accesses. -/
def Passes (s : State) (a : Access) : Prop :=
  match a.1 with
  | .mem ea z => ∀ k ∈ a.2, ∃ pa, s.access ea z k = .ok pa
  | .reg _ _ => True
  | .imm _ _ _ => True

theorem checkKinds_pass {s : State} {ea : Word} {z : OpSize} : ∀ {ks : List AccessKind},
    (∀ k ∈ ks, ∃ pa, s.access ea z k = .ok pa) → checkKinds s ea z ks = .ok ()
  | [], _ => rfl
  | k :: ks, h => by
    obtain ⟨pa, ha⟩ := h k (by simp)
    have ih : checkKinds s ea z ks = .ok () := checkKinds_pass (fun k' hk => h k' (by simp [hk]))
    simp [checkKinds, ha, ih]

theorem checkAccesses_pass {s : State} : ∀ {l : List Access}, (∀ a ∈ l, Passes s a) → checkAccesses s l = .ok ()
  | [], _ => rfl
  | (op, ks) :: l, h => by
    have h1 := h (op, ks) (by simp)
    have h2 := checkAccesses_pass (fun a ha => h a (by simp [ha]) : ∀ a ∈ l, Passes s a)
    cases op with
    | reg n z => exact h2
    | mem ea z => simp [checkAccesses, checkKinds_pass h1, h2]
    | imm v z b => exact h2

theorem passes_read {s : State} {op : Operand} {x : Word} (h : s.readOp op = .ok x) : Passes s (op, [.read]) := by
  cases op with
  | reg n z => trivial
  | mem ea z => intro k hk; rw [List.mem_singleton.1 hk]; exact access_of_readOp h
  | imm v z b => trivial

theorem passes_write {s : State} {op : Operand} (h : Writable s op) : Passes s (op, [.write]) := by
  cases op with
  | reg n z => trivial
  | mem ea z =>
    intro k hk
    rw [List.mem_singleton.1 hk]
    obtain ⟨pa, ha, _⟩ := h
    exact ⟨pa, ha⟩
  | imm v z b => trivial

theorem passes_readWrite {s : State} {op : Operand} {x : Word} (h : s.readOp op = .ok x) (hw : Writable s op) :
    Passes s (op, [.read, .write]) := by
  cases op with
  | reg n z => trivial
  | mem ea z =>
    obtain ⟨pa, ha, _⟩ := hw
    intro k hk
    rcases List.mem_cons.1 hk with rfl | hk
    · exact access_of_readOp h
    · rw [List.mem_singleton.1 hk]; exact ⟨pa, ha⟩
  | imm v z b => trivial

/-! The end of an operation (rules R172 to R174). -/

/-- What the end of an operation can do: complete, trap before the result is written, or trap after. -/
theorem finish_cases {s t : State} {e : List FpExc} {commit : State → Except Stop State}
    (h : s.finish e commit = .ok t) :
    (s.anyUnmasked e = false ∧ ∃ u, commit (s.record e) = .ok u ∧ t = u.advance) ∨
    (s.anyUnmasked e = true ∧ s.impl.trapWritesResult = false ∧ t = (s.record e).raise s.fpTrap) ∨
    (s.anyUnmasked e = true ∧ s.impl.trapWritesResult = true ∧
      ∃ u, commit (s.record e) = .ok u ∧ t = u.raise s.fpTrap) := by
  unfold State.finish at h
  dsimp only at h
  split at h
  · rename_i hu
    split at h
    · rename_i hw
      split at h
      · cases h
      · exact .inr (.inr ⟨hu, hw, _, by assumption, by simpa using h.symm⟩)
    · rename_i hw
      exact .inr (.inl ⟨hu, by simpa using hw, by simpa using h.symm⟩)
  · rename_i hu
    split at h
    · cases h
    · exact .inl ⟨by simpa using hu, _, by assumption, by simpa using h.symm⟩

/-- The end of an operation all of whose exceptions are masked. -/
theorem finish_masked {s u : State} {e : List FpExc} {commit : State → Except Stop State}
    (he : AllMasked s e) (hc : commit (s.record e) = .ok u) : s.finish e commit = .ok u.advance := by
  simp [State.finish, anyUnmasked_eq_false he, hc]

/-- The end of an operation whose result can be committed: the state after it where every exception is masked, the
trap where one is not. -/
theorem finish_ends {s u t : State} {e : List FpExc} {commit : State → Except Stop State}
    (hc : commit (s.record e) = .ok u) (ht : u.advance = t) (hip : t.ip = s.ip + 1) (hd : t.draws = s.draws + 1) :
    (AllMasked s e → s.finish e commit = .ok t) ∧ (¬ AllMasked s e → s.finish e commit = .ok (trapNext s e t)) := by
  subst ht
  refine ⟨fun h => finish_masked h hc, fun h => ?_⟩
  have ha : s.anyUnmasked e = true := by
    by_contra h'
    refine h fun x hx => ?_
    simp only [State.anyUnmasked, List.any_eq_true, not_exists, not_and] at h'
    simpa using h' x hx
  have h1 : u.ip = s.ip := by simpa [State.advance] using hip
  have h2 : u.draws = s.draws := by simpa [State.advance] using hd
  cases hw : s.impl.trapWritesResult
  · simp [State.finish, ha, hw, trapNext, State.raise, State.fpTrap, State.record]
  · simp [State.finish, ha, hw, trapNext, State.raise, State.fpTrap, hc, State.advance, ← h1, ← h2]

/-- The three ways an instruction's computation ends in a next state. -/
theorem settle_next {s t : State} {r : Except Stop State} (h : s.settle r = .next t) :
    r = .ok t ∨ ∃ x, r = .error (.raise x) ∧ t = s.raise x := by
  unfold State.settle at h
  split at h
  · exact .inl (by simpa using h)
  · exact .inr ⟨_, rfl, by simpa using h.symm⟩
  · cases h

@[simp] theorem settle_ok (s t : State) : s.settle (.ok t) = .next t := rfl
@[simp] theorem settle_raise (s : State) (x : Trap) : s.settle (.error (.raise x)) = .next (s.raise x) := rfl
@[simp] theorem settle_refuse (s : State) (r : Refusal) : s.settle (.error (.refuse r)) = .refused r := rfl

/-! Committing a result. -/

theorem commitFp_cases {f : Bool} {d : Operand} {b : Word} {s t : State} (h : commitFp f d b s = .ok t) :
    ∃ u, s.writeOp d b = .ok u ∧ t = unlessF f u (u.setFlagsNZ (formatOf (opSize d)) b) := by
  unfold commitFp at h
  split at h
  · cases h
  · exact ⟨_, by assumption, by simpa using h.symm⟩

theorem commitInt_cases {f : Bool} {d : Operand} {r : Int} {s t : State} (h : commitInt f d r s = .ok t) :
    ∃ u, s.writeOp d ((opSize d).ofInt r) = .ok u ∧ t = unlessF f u (u.setFlagsInt r) := by
  unfold commitInt at h
  split at h
  · cases h
  · exact ⟨_, by assumption, by simpa using h.symm⟩

theorem commitArith_cases {f : Bool} {d : Operand} {b : Word} {s t : State} (h : commitArith f d b s = .ok t) :
    ∃ u, s.writeOp d b = .ok u ∧ t = unlessF f u (u.setFlagsNZP (formatOf (opSize d)) b) := by
  unfold commitArith at h
  split at h
  · cases h
  · exact ⟨_, by assumption, by simpa using h.symm⟩

end Sys2Proof.Machine
end

