-- ==== Sys2Proof/Laws/BaseOps.lean ====
section
/-! SUPPORT. What the base instructions of rule R71 share: when their checks pass, what they can do when they end in a
next state, and that they complete. -/

namespace Sys2Proof.Machine

/-! Storing an operand (rule R61). -/

theorem stored_flags_of_not_flags {s : State} {d : Operand} (v : Word) (h : isFlagsReg s.impl d = false) :
    (stored s d v).flags = s.flags := by
  unfold stored State.writeReg
  repeat' split
  all_goals first | rfl | simp_all [isFlagsReg]

/-- A store to memory leaves every operand as writable as it was. -/
theorem writable_stored_mem {s : State} {d o : Operand} (v : Word) (hd : isMem d = true) (h : Writable s o) :
    Writable (stored s d v) o := by
  cases d with
  | reg n z => simp [isMem] at hd
  | imm w z l => simp [isMem] at hd
  | mem ea z =>
    cases o with
    | reg n z => trivial
    | imm w z l => exact h.elim
    | mem ea' z' =>
      obtain ⟨pa, ha, ht⟩ := h
      refine ⟨pa, ?_, by rwa [stored_impl]⟩
      rw [← ha]
      simp only [State.access, stored_impl, stored_flags_of_not_flags v (show isFlagsReg s.impl (.mem ea z) = false from rfl)]

/-! Operands of unequal sizes (log entry 46). -/

theorem widen_of_le {p q : OpSize} (w : Word) (h : q.bytes ≤ p.bytes) : widen p q w = w := by simp [widen, h]

/-- A wider destination keeps the low bits. -/
theorem truncate_widen (p q : OpSize) (w : Word) : p.truncate (widen p q w) = p.truncate w := by
  unfold widen
  split
  · rfl
  · have hx : p.bits ≤ 64 := by cases p <;> decide
    simp only [OpSize.truncate, BitVec.toNat_ofNat]
    rw [Nat.mod_mod_of_dvd _ (pow_dvd_pow 2 hx)]
    simp

/-! The skeleton (rule R71). -/

/-- Operands that name no reserved register pass the first check. -/
theorem any_isReserved_eq_false {s : State} {ops : List Operand} (h : BaseReady s ops) :
    ops.any (isReserved s) = false := by
  rw [List.any_eq_false]
  intro o ho
  simp [(h.1 o ho).1]

/-- The checks of a base instruction pass for operands that are ready, destinations and accessible. -/
theorem baseChecks_pass {s : State} {accesses : List Access} (hr : BaseReady s (accesses.map Prod.fst))
    (hd : ∀ a ∈ accesses, AccessKind.write ∈ a.2 → baseDestination s.impl a.1 = true)
    (hp : ∀ a ∈ accesses, Passes s a) : baseChecks s accesses = .ok () := by
  have h1 : accesses.all (fun a => a.1.wellFormed) = true := by
    rw [List.all_eq_true]
    exact fun a ha => (hr.1 a.1 (List.mem_map_of_mem ha)).2
  have h2 : accesses.any (fun a => a.2.contains .write && !baseDestination s.impl a.1) = false := by
    rw [List.any_eq_false]
    intro a ha
    by_cases hw : AccessKind.write ∈ a.2
    · simp [hd a ha hw]
    · simp [hw]
  have h3 : (s.flags.xm && accesses.any (fun a => isSuper s.impl a.1)) = false := by
    rcases hr.2 with h | h
    · simp [h]
    · rw [Bool.and_eq_false_iff, List.any_eq_false]
      exact .inr fun a ha => by simp [h a.1 (List.mem_map_of_mem ha)]
  simp only [baseChecks, h1, h2, h3, checkAccesses_pass hp, Bool.not_true, Bool.false_eq_true, if_false]

section
variable {m : BaseMnemonic} {accesses : List Access} {effect : List Word → List (Operand × Word)}
  {cond : List Word → CondFlags → CondFlags} {s t u : State} {ws : List Word}

/-- What a base instruction can do when it does not stop: its writes, then the condition flags at most. -/
theorem baseRun_cases (h : baseRun m accesses effect cond s = .ok t) :
    ∃ ws u, s.writeAll (memoryFirst (effect ws)) = .ok u ∧ (t = u.advance ∨ ∃ k, t = (u.setCond k).advance) := by
  unfold baseRun at h
  repeat' split at h
  all_goals try cases h
  · exact ⟨_, _, by assumption, .inl rfl⟩
  · exact ⟨_, _, by assumption, .inr ⟨_, rfl⟩⟩

/-- A base instruction whose checks, reads and writes go through completes. -/
theorem baseRun_completes (hc : baseChecks s accesses = .ok ())
    (hr : s.readBits ((accesses.filter (fun a => a.2.contains .read)).map Prod.fst) = .ok ws)
    (hw : s.writeAll (memoryFirst (effect ws)) = .ok u) (hip : u.ip = s.ip) (hd : u.draws = s.draws)
    (hf : (effect ws).any (fun x => isFlagsReg s.impl x.1) = false → u.flags = s.flags) :
    ∃ t, baseRun m accesses effect cond s = .ok t ∧
      BaseWrote s u ((effect ws).any (fun x => isFlagsReg s.impl x.1)) t ∧
      ((effect ws).any (fun x => isFlagsReg s.impl x.1) = false → ∃ free, t.flags.cond = cond ws free) := by
  cases h : (effect ws).any (fun x => isFlagsReg s.impl x.1) with
  | true =>
    exact ⟨u.advance, by simp only [baseRun, hc, hr, hw, h, if_true], ⟨by simp [State.advance, hip, hd], by simp⟩, nofun⟩
  | false =>
    refine ⟨_, by simp only [baseRun, hc, hr, hw, h, Bool.false_eq_true, if_false]; rfl, ⟨?_, ?_⟩, fun _ => ⟨_, rfl⟩⟩
    · simp [State.advance, State.setCond, hip, hd]
    · simp [State.setCond, hf h]

end

/-- Writes none of which goes to register 19 leave `fpcrw` as it is. -/
theorem writeAll_fpcrw {s t : State} : ∀ {l : List (Operand × Word)}, s.writeAll l = .ok t →
    (∀ x ∈ l, ∀ z, x.1 ≠ .reg 19 z) → t.fpcrw = s.fpcrw := by
  intro l
  induction l generalizing s with
  | nil => intro h _; cases h; rfl
  | cons x l ih =>
    intro h hl
    obtain ⟨op, w⟩ := x
    simp only [State.writeAll] at h
    split at h
    · cases h
    · rename_i u hu
      rw [ih h (fun y hy => hl y (List.mem_cons_of_mem _ hy))]
      rcases writeOp_cases hu with ⟨n, z, rfl, rfl⟩ | ⟨ea, z, pa, rfl, _, _, rfl⟩
      · have hn : n ≠ 19 := fun e => hl (.reg n z, w) (by simp) z (by simp [e])
        unfold State.writeReg
        split
        · exact absurd (regClass_eq_fpcrw (by assumption)) hn
        all_goals rfl
      · rfl

end Sys2Proof.Machine
end

