-- ==== Sys2Proof/Laws/Families.lean ====
section
/-! SUPPORT. The skeletons the instructions share: what each can do when it ends in a next state, and that each
completes under the conditions of the rules. -/

namespace Sys2Proof.Machine

/-! Inversion. -/

theorem moveToFp_cases {value : OpSize → Word → Rat} {f : Bool} {d src : Operand} {s t : State}
    (h : moveToFp value f d src s = .ok t) :
    ∃ mode w, fpCommonChecks s (toFpConstraint s d src) true (moveAccesses d src) = .ok () ∧
      s.roundMode = .ok mode ∧ s.readOp src = .ok w ∧
      s.finish (roundTowards s mode d (value (opSize src) w)).2
        (commitFp f d (roundTowards s mode d (value (opSize src) w)).1) = .ok t := by
  unfold moveToFp at h
  repeat' split at h
  all_goals first | cases h | exact ⟨_, _, by assumption, by assumption, by assumption, h⟩

theorem arith_cases {rounds : Bool} {compute : RoundMode → List FpVal → ArithOut} {f : Bool} {d : Operand}
    {others : List Operand} {s t : State} (h : arith rounds compute f d others s = .ok t) :
    ∃ mode bs, fpCommonChecks s (arithConstraint d others) false (arithAccesses d others) = .ok () ∧
      s.arithMode rounds = .ok mode ∧ s.readOps (d :: others) = .ok bs ∧
      s.finish (arithOutcome s mode (formatOf (opSize d)) (intermediateOf s (d :: others)) (compute mode) bs).2
        (commitArith f d
          (arithOutcome s mode (formatOf (opSize d)) (intermediateOf s (d :: others)) (compute mode) bs).1) =
        .ok t := by
  unfold arith at h
  repeat' split at h
  all_goals first | cases h | exact ⟨_, _, by assumption, by assumption, by assumption, h⟩

/-- The three shapes of a converting move that ended in a next state: its result was a floating-point pattern or an
integer, committed at the end of the operation. -/
theorem move_cases {i : Instr} {f : Bool} {d src : Operand} {s t : State} (hi : moveParts i = some (f, d, src))
    (h : exec i s = .next t) :
    (∃ x, t = s.raise x) ∨
    (moveVerdict s i = .admitted ∧
      ((∃ b e, s.finish e (commitFp f d b) = .ok t) ∨ ∃ r e, s.finish e (commitInt f d r) = .ok t)) := by
  cases i <;> simp only [moveParts, Option.some.injEq, Prod.mk.injEq, reduceCtorEq] at hi
  all_goals obtain ⟨rfl, rfl, rfl⟩ := hi
  case movsif =>
    rcases settle_next h with h | ⟨x, _, rfl⟩
    · obtain ⟨_, _, h1, _, _, h2⟩ := moveToFp_cases h
      exact .inr ⟨(fpCommonChecks_ok h1).2.2.1, .inl ⟨_, _, h2⟩⟩
    · exact .inl ⟨x, rfl⟩
  case movxf =>
    rcases settle_next h with h | ⟨x, _, rfl⟩
    · obtain ⟨_, _, h1, _, _, h2⟩ := moveToFp_cases h
      exact .inr ⟨(fpCommonChecks_ok h1).2.2.1, .inl ⟨_, _, h2⟩⟩
    · exact .inl ⟨x, rfl⟩
  case movfsi =>
    rcases settle_next h with h | ⟨x, _, rfl⟩
    · repeat' split at h
      all_goals first
        | cases h
        | exact .inr ⟨(fpCommonChecks_ok (by assumption)).2.2.1, .inr ⟨_, _, h⟩⟩
    · exact .inl ⟨x, rfl⟩
  case movfx =>
    rcases settle_next h with h | ⟨x, _, rfl⟩
    · repeat' split at h
      all_goals first
        | cases h
        | exact .inr ⟨(fpCommonChecks_ok (by assumption)).2.2.1, .inr ⟨_, _, h⟩⟩
    · exact .inl ⟨x, rfl⟩
  case cvtf =>
    rcases settle_next h with h | ⟨x, _, rfl⟩
    · repeat' split at h
      all_goals first
        | cases h
        | exact .inr ⟨(fpCommonChecks_ok (by assumption)).2.2.1, .inl ⟨_, _, h⟩⟩
    · exact .inl ⟨x, rfl⟩

/-- An arithmetic instruction that ended in a next state. -/
theorem arithmetic_cases {i : Instr} {f : Bool} {d : Operand} {others : List Operand} {s t : State}
    (hi : arithParts i = some (f, d, others)) (h : exec i s = .next t) :
    (∃ x, t = s.raise x) ∨
    (arithConstraint d others = .admitted ∧ ∃ b e, s.finish e (commitArith f d b) = .ok t) := by
  have key : ∀ (rounds : Bool) (compute : RoundMode → List FpVal → ArithOut),
      s.settle (arith rounds compute f d others s) = .next t →
      (∃ x, t = s.raise x) ∨
      (arithConstraint d others = .admitted ∧ ∃ b e, s.finish e (commitArith f d b) = .ok t) := by
    intro rounds compute h
    rcases settle_next h with h | ⟨x, _, rfl⟩
    · obtain ⟨_, _, h1, _, _, h2⟩ := arith_cases h
      exact .inr ⟨(fpCommonChecks_ok h1).2.2.1, _, _, h2⟩
    · exact .inl ⟨x, rfl⟩
  cases i <;> simp only [arithParts, Option.some.injEq, Prod.mk.injEq, reduceCtorEq] at hi
  all_goals obtain ⟨rfl, rfl, rfl⟩ := hi
  all_goals exact key _ _ h

/-- A comparison that ended in a next state. -/
theorem fcmpz_cases {a : Operand} {s t : State} (h : exec (.fcmpz a) s = .next t) :
    (∃ x, t = s.raise x) ∨ ∃ o e, s.finish e (commitCmp o) = .ok t := by
  rcases settle_next h with h | ⟨x, _, rfl⟩
  · repeat' split at h
    all_goals first | cases h | exact .inr ⟨_, _, h⟩
  · exact .inl ⟨x, rfl⟩

theorem fcmp_cases {a b : Operand} {s t : State} (h : exec (.fcmp a b) s = .next t) :
    (∃ x, t = s.raise x) ∨ ∃ o e, s.finish e (commitCmp o) = .ok t := by
  rcases settle_next h with h | ⟨x, _, rfl⟩
  · repeat' split at h
    all_goals first | cases h | exact .inr ⟨_, _, h⟩
  · exact .inl ⟨x, rfl⟩

/-- What the two triggers can do: trap or go on. -/
theorem triggerExcept_cases {masked : State → FpExc → Bool} {s t : State}
    (h : s.settle (triggerExcept masked s) = .next t) : (∃ x, t = s.raise x) ∨ t = s.advance := by
  unfold triggerExcept at h
  repeat' split at h
  all_goals simp only [settle_raise, settle_ok, Host.Outcome.next.injEq] at h
  all_goals first | exact .inl ⟨_, h.symm⟩ | exact .inr h.symm

/-! Completion. -/

/-- Every operand's value can be read, in order. -/
inductive ReadsAll (s : State) : List Operand → List (Format × Word) → Prop where
  | nil : ReadsAll s [] []
  | cons {op : Operand} {ops : List Operand} {x : Word} {bs : List (Format × Word)} :
      s.readOp op = .ok x → ReadsAll s ops bs → ReadsAll s (op :: ops) ((formatOf (opSize op), x) :: bs)

theorem readOps_of_readsAll {s : State} {ops : List Operand} {bs : List (Format × Word)} (h : ReadsAll s ops bs) :
    s.readOps ops = .ok bs := by
  induction h with
  | nil => rfl
  | cons hx _ ih => simp [State.readOps, hx, ih]

theorem readsAll_passes {s : State} {ops : List Operand} {bs : List (Format × Word)} (h : ReadsAll s ops bs) :
    ∀ o ∈ ops, Passes s (o, [.read]) := by
  induction h with
  | nil => simp
  | cons hx _ ih =>
    intro o ho
    rcases List.mem_cons.1 ho with rfl | ho
    · exact passes_read hx
    · exact ih o ho

theorem roundMode_ok {s : State} {mode : RoundMode} (h : RoundMode.ofRnd s.rnd = some mode) :
    s.roundMode = .ok mode := by simp [State.roundMode, h]

theorem arithMode_ok {s : State} {mode : RoundMode} (rounds : Bool) (h : RoundMode.ofRnd s.rnd = some mode) :
    s.arithMode rounds = .ok mode := by cases rounds <;> simp [State.arithMode, State.roundMode, State.anyMode, h]

/-- In an arithmetic instruction the destination is no control register. -/
theorem arith_destination {d : Operand} {others : List Operand} (h : arithConstraint d others = .admitted) :
    isFpReg d = true ∨ isMem d = true := by
  simp only [arithConstraint, verdictOf] at h
  split at h
  · rename_i h'
    simp only [Bool.and_eq_true, Bool.or_eq_true] at h'
    exact h'.1.1.1
  · cases h

/-- The state an arithmetic commit leaves, when the destination is no control register. -/
theorem commitArith_next {s : State} {f : Bool} {d : Operand} {b : Word} {e : List FpExc}
    (hd : isFpReg d = true ∨ isMem d = true) (hw : Writable s d) :
    ∃ u, commitArith f d b (s.record e) = .ok u ∧ u.advance = arithNext s f d b e := by
  have h := writeOp_of_writable b (writable_record e hw)
  refine ⟨unlessF f (stored (s.record e) d b) ((stored (s.record e) d b).setFlagsNZP (formatOf (opSize d)) b),
    by simp only [commitArith, h], ?_⟩
  cases d with
  | reg n z =>
    have hn : 24 ≤ n ∧ n ≤ 31 := by simpa [isFpReg, isMem] using hd
    cases f <;>
      simp [arithNext, stored, State.writeReg, regClass_f hn, State.record, State.advance, unlessF,
        State.setFlagsNZP]
  | mem ea z =>
    obtain ⟨pa, ha, _⟩ := hw
    cases f <;>
      simp [arithNext, stored, ha, State.record, State.advance, unlessF, State.setFlagsNZP] <;>
      simp [← access_record s e, State.record] at ha <;> simp [ha]
  | imm v z l => simp [isFpReg, isMem] at hd

/-- The skeleton of the arithmetic instructions completes (rule R129). -/
theorem arith_completes {rounds : Bool} {compute : RoundMode → List FpVal → ArithOut} {f : Bool} {d : Operand}
    {others : List Operand} {s : State} {mode : RoundMode} {bs : List (Format × Word)}
    (h1 : Enabled s (d :: others)) (h2 : arithConstraint d others = .admitted)
    (h3 : s.arithMode rounds = .ok mode) (h4 : ReadsAll s (d :: others) bs) (h5 : Writable s d)
    (h6 : AllMasked s
      (arithOutcome s mode (formatOf (opSize d)) (intermediateOf s (d :: others)) (compute mode) bs).2) :
    s.settle (arith rounds compute f d others s) = .next (arithNext s f d
      (arithOutcome s mode (formatOf (opSize d)) (intermediateOf s (d :: others)) (compute mode) bs).1
      (arithOutcome s mode (formatOf (opSize d)) (intermediateOf s (d :: others)) (compute mode) bs).2) := by
  obtain ⟨hf, hx, hw⟩ := h1
  have hr := readsAll_passes h4
  have hc : fpCommonChecks s (arithConstraint d others) false (arithAccesses d others) = .ok () := by
    refine fpCommonChecks_pass hf ?_ h2 hx (by simp) (checkAccesses_pass ?_)
    · intro a ha
      rcases List.mem_cons.1 ha with rfl | ha
      · exact hw d (by simp)
      · obtain ⟨o, ho, rfl⟩ := List.mem_map.1 ha
        exact hw o (by simp [ho])
    · intro a ha
      rcases List.mem_cons.1 ha with rfl | ha
      · cases h4 with
        | cons hd _ => exact passes_readWrite hd h5
      · obtain ⟨o, ho, rfl⟩ := List.mem_map.1 ha
        exact hr o (by simp [ho])
  obtain ⟨u, hu, hadv⟩ := commitArith_next (f := f)
    (b := (arithOutcome s mode (formatOf (opSize d)) (intermediateOf s (d :: others)) (compute mode) bs).1)
    (e := (arithOutcome s mode (formatOf (opSize d)) (intermediateOf s (d :: others)) (compute mode) bs).2)
    (arith_destination h2) h5
  have hfin := finish_masked h6 hu
  rw [hadv] at hfin
  have : arith rounds compute f d others s = .ok (arithNext s f d
      (arithOutcome s mode (formatOf (opSize d)) (intermediateOf s (d :: others)) (compute mode) bs).1
      (arithOutcome s mode (formatOf (opSize d)) (intermediateOf s (d :: others)) (compute mode) bs).2) := by
    unfold arith
    simp only [hc, h3, readOps_of_readsAll h4]
    exact hfin
  rw [this]
  rfl

/-! Converting moves. -/

/-- An operand that is not `flags`. -/
def NotFlags (impl : Impl) (d : Operand) : Prop := ∀ n z, d = .reg n z → regClass impl n ≠ .flags

theorem stored_flags {s : State} {d : Operand} (v : Word) (h : NotFlags s.impl d) : (stored s d v).flags = s.flags := by
  cases d with
  | reg n z =>
    have hn := h n z rfl
    rcases writeReg_cases s n (z.truncate v) with ⟨_, e⟩ | ⟨k, _, e⟩ | ⟨c, _⟩ | ⟨_, e⟩ | ⟨_, e⟩
    · simp [stored, e]
    · simp [stored, e]
    · exact absurd c hn
    · simp [stored, e]
    · simp [stored, e]
  | mem ea z => simp only [stored]; split <;> rfl
  | imm v z l => rfl

/-- A converting move's operand constraint admits no destination `flags` and no immediate destination (rule R101). -/
theorem notFlags_of_convertCommon {s : State} {d src : Operand} (h : convertCommon s d src = true) :
    NotFlags s.impl d := by
  rintro n z rfl hc
  simp [convertCommon, isFlagsOrIp, hc] at h

theorem looseVerdict_admitted {strict loose : Bool} (h : looseVerdict strict loose = .admitted) : strict = true := by
  cases strict <;> cases loose <;> simp_all [looseVerdict]

theorem notFlags_of_move {s : State} {i : Instr} {f : Bool} {d src : Operand} (hi : moveParts i = some (f, d, src))
    (h : moveVerdict s i = .admitted) : NotFlags s.impl d := by
  apply notFlags_of_convertCommon (src := src)
  cases i <;> simp only [moveParts, Option.some.injEq, Prod.mk.injEq, reduceCtorEq] at hi
  all_goals
    obtain ⟨rfl, rfl, rfl⟩ := hi
    simp only [moveVerdict, toFpConstraint, fromFpConstraint, cvtfConstraint] at h
  case cvtf =>
    simp only [verdictOf] at h
    split at h
    · rename_i h'
      simp only [Bool.and_eq_true] at h'
      exact h'.2
    · cases h
  all_goals
    have h' := looseVerdict_admitted h
    simp only [Bool.and_eq_true] at h'
    exact h'.2

/-- The checks of a converting move pass under the conditions of the rules. -/
theorem move_checks {s : State} {i : Instr} {d src : Operand} {w : Word} {v : Verdict}
    (h : MoveReady s i d src w) (hv : v = .admitted) :
    fpCommonChecks s v true (moveAccesses d src) = .ok () := by
  obtain ⟨⟨hf, hx, hw⟩, hp, _, hr, hwr⟩ := h
  refine fpCommonChecks_pass hf ?_ hv hx (fun _ => ?_) (checkAccesses_pass ?_)
  · intro a ha
    rcases List.mem_cons.1 ha with rfl | ha
    · exact hw d (by simp)
    · rw [List.mem_singleton.1 ha]; exact hw src (by simp)
  · rcases hp with hp | hp
    · exact .inl hp
    · refine .inr fun a ha => ?_
      rcases List.mem_cons.1 ha with rfl | ha
      · exact hp d (by simp)
      · rw [List.mem_singleton.1 ha]; exact hp src (by simp)
  · intro a ha
    rcases List.mem_cons.1 ha with rfl | ha
    · exact passes_write hwr
    · rw [List.mem_singleton.1 ha]; exact passes_read hr

theorem commitFp_next {s : State} {f : Bool} {d : Operand} {b : Word} {e : List FpExc}
    (hd : NotFlags s.impl d) (hw : Writable s d) :
    ∃ u, commitFp f d b (s.record e) = .ok u ∧ u.advance = moveFpNext s f d b e := by
  have h := writeOp_of_writable b (writable_record e hw)
  refine ⟨unlessF f (stored (s.record e) d b) ((stored (s.record e) d b).setFlagsNZ (formatOf (opSize d)) b),
    by simp only [commitFp, h], ?_⟩
  have hfl : (stored (s.record e) d b).flags = s.flags := stored_flags b hd
  cases f <;> simp [moveFpNext, State.advance, unlessF, State.setFlagsNZ, hfl]

theorem commitInt_next {s : State} {f : Bool} {d : Operand} {r : Int} {e : List FpExc}
    (hd : NotFlags s.impl d) (hw : Writable s d) :
    ∃ u, commitInt f d r (s.record e) = .ok u ∧ u.advance = moveIntNext s f d r e := by
  have h := writeOp_of_writable ((opSize d).ofInt r) (writable_record e hw)
  refine ⟨unlessF f (stored (s.record e) d ((opSize d).ofInt r))
    ((stored (s.record e) d ((opSize d).ofInt r)).setFlagsInt r), by simp only [commitInt, h], ?_⟩
  have hfl : (stored (s.record e) d ((opSize d).ofInt r)).flags = s.flags := stored_flags _ hd
  cases f <;> simp [moveIntNext, State.advance, unlessF, State.setFlagsInt, hfl]

/-- Delivering a floating-point result with every exception masked. -/
theorem finish_fp {s : State} {f : Bool} {d : Operand} {b : Word} {e : List FpExc}
    (hd : NotFlags s.impl d) (hw : Writable s d) (he : AllMasked s e) :
    s.finish e (commitFp f d b) = .ok (moveFpNext s f d b e) := by
  obtain ⟨u, hu, hadv⟩ := commitFp_next (f := f) (b := b) (e := e) hd hw
  rw [finish_masked he hu, hadv]

/-- Delivering an integer result with every exception masked. -/
theorem finish_int {s : State} {f : Bool} {d : Operand} {r : Int} {e : List FpExc}
    (hd : NotFlags s.impl d) (hw : Writable s d) (he : AllMasked s e) :
    s.finish e (commitInt f d r) = .ok (moveIntNext s f d r e) := by
  obtain ⟨u, hu, hadv⟩ := commitInt_next (f := f) (r := r) (e := e) hd hw
  rw [finish_masked he hu, hadv]

/-- Recording a comparison with every exception masked. -/
theorem finish_cmp {s : State} {o : CmpOutcome} {e : List FpExc} (he : AllMasked s e) :
    s.finish e (commitCmp o) = .ok (cmpNext s (cmpFlags s.impl.fcmpMap o) e) := by
  rw [finish_masked (u := (s.record e).setFlagsCmp o) he rfl]
  rfl

/-! The checks of an instruction, from its operands. -/

/-- When the checks of an instruction fail, so does the instruction, with the same stop. -/
theorem exec_checks_error {i : Instr} {s : State} {stop : Stop} (c : Bool)
    (hi : i ≠ .fraiseexcept) (hi2 : i ≠ .ftriggerexcept) (hc : c = (moveParts i).isSome)
    (h : fpCommonChecks s (operandVerdict s i) c (accessesOf i) = .error stop) :
    exec i s = s.settle (.error stop) := by
  subst hc
  cases i <;> simp only [moveParts, Option.isSome, operandVerdict, accessesOf] at h <;>
    simp [exec, execMovsif, execMovxf, execMovfsi, execMovfx, execCvtf, execRound, execCeil, execFloor, execFabs,
      execFneg, execFinv, execFadd, execFsub, execFmul, execFdiv, execFrem, execFma, execFcmpz, execFcmp, moveToFp,
      arith, moveAccesses, arithAccesses, h] at *

/-- The accesses of an instruction are those of its operands, in order. -/
theorem accessesOf_fst (i : Instr) : (accessesOf i).map Prod.fst = i.operands := by
  cases i <;> rfl

/-- The first access of an operand that fails decides its checks. -/
theorem checkKinds_fail {s : State} {ea z} {kpre kpost : List AccessKind} {k stop}
    (hp : ∀ k', k' ∈ kpre → CanAccess s ea z k') (h : s.access ea z k = .error stop) :
   checkKinds s ea z (kpre ++ k :: kpost) = .error stop := by
  induction kpre with
  | nil => simp [checkKinds, h]
  | cons a t ih =>
    obtain ⟨pa, ha⟩ := hp a (by simp)
    simp [checkKinds, ha, ih (fun k' hk => hp k' (by simp [hk]))]

/-- The first memory operand that fails decides the checks of an instruction. -/
theorem checkAccesses_fail {s : State} {pre post : List Access} {ea z} {kpre kpost : List AccessKind} {k stop}
    (hpre : AllAccess s pre)
    (hp : ∀ k', k' ∈ kpre → CanAccess s ea z k') (h : s.access ea z k = .error stop) :
   checkAccesses s (pre ++ (.mem ea z, kpre ++ k :: kpost) :: post) = .error stop := by
  induction pre with
  | nil => simp [checkAccesses, checkKinds_fail hp h]
  | cons a t ih =>
    have ih := ih (fun ea' z' ks hm => hpre ea' z' ks (by simp [hm]))
    obtain ⟨op, ks⟩ := a
    cases op with
    | reg n z => simpa [checkAccesses] using ih
    | imm n z => simpa [checkAccesses] using ih
    | mem e' z' =>
      have := checkKinds_pass (s := s) (ea := e') (z := z') (ks := ks) (fun k hk => hpre e' z' ks (by simp) k hk)
      simp [checkAccesses, this, ih]

/-- The checks of an enabled instruction with admitted operands and permitted accesses pass. -/
theorem checks_pass_of_ready {i : Instr} {s : State} (he : Enabled s i.operands) (hv : operandVerdict s i = .admitted)
    (hp : (moveParts i).isSome = true → Permitted s i.operands) (ha : AllAccess s (accessesOf i)) :
   fpCommonChecks s (operandVerdict s i) (moveParts i).isSome (accessesOf i) = .ok () := by
  obtain ⟨hf, hx, hw⟩ := he
  refine fpCommonChecks_pass hf ?_ hv hx (fun h => ?_) (checkAccesses_pass ?_)
  · intro a hh; apply hw; rw [← accessesOf_fst]; exact List.mem_map_of_mem hh
  · rcases hp h with h | h
    · exact .inl h
    · exact .inr fun a hh => h _ (by rw [← accessesOf_fst]; exact List.mem_map_of_mem hh)
  · rintro ⟨op, ks⟩ hh
    cases op with
    | mem ea z => exact fun k hk => ha ea z ks hh k hk
    | _ => trivial

end Sys2Proof.Machine
end

