-- ==== Sys2Proof/Laws/Numerics.lean ====
section
/-! SUPPORT. Powers of two, the binary logarithm, rounding to an integer, and the exceptions a delivery can cause:
what later proofs cite instead of unfolding the numerics. -/

namespace Sys2Proof

/-! Powers of two. -/

theorem pow2_eq_zpow (k : Int) : pow2 k = (2 : Rat) ^ k := by
  unfold pow2
  split
  · rename_i h
    obtain ⟨n, rfl⟩ := Int.eq_ofNat_of_zero_le h
    simp
  · rename_i h
    obtain ⟨n, hn⟩ := Int.eq_ofNat_of_zero_le (by omega : 0 ≤ -k)
    obtain rfl : k = -(n : Int) := by omega
    simp

theorem pow2_pos (k : Int) : 0 < pow2 k := by
  rw [pow2_eq_zpow]; positivity

theorem pow2_ne_zero (k : Int) : pow2 k ≠ 0 := (pow2_pos k).ne'

theorem pow2_add (a b : Int) : pow2 (a + b) = pow2 a * pow2 b := by
  simp only [pow2_eq_zpow]; exact zpow_add₀ two_ne_zero a b

theorem pow2_sub (a b : Int) : pow2 (a - b) = pow2 a / pow2 b := by
  simp only [pow2_eq_zpow]; exact zpow_sub₀ two_ne_zero a b

theorem pow2_natCast (n : Nat) : pow2 (n : Int) = 2 ^ n := by
  rw [pow2_eq_zpow]; exact zpow_natCast 2 n

theorem pow2_le {a b : Int} (h : a ≤ b) : pow2 a ≤ pow2 b := by
  simp only [pow2_eq_zpow]; exact zpow_le_zpow_right₀ one_le_two h

theorem pow2_lt {a b : Int} (h : a < b) : pow2 a < pow2 b := by
  simp only [pow2_eq_zpow]; exact zpow_lt_zpow_right₀ one_lt_two h

/-- A magnitude lies between the powers of two that its binary logarithm names. -/
theorem floorLog2_bounds {m : Rat} (hm : 0 < m) : pow2 (floorLog2 m) ≤ m ∧ m < pow2 (floorLog2 m + 1) := by
  have hnum : 0 < m.num := Rat.num_pos.2 hm
  obtain ⟨p, hp⟩ := Int.eq_ofNat_of_zero_le hnum.le
  have hp0 : p ≠ 0 := by rintro rfl; omega
  have hd0 : m.den ≠ 0 := m.den_nz
  have hmq : m = (p : Rat) / (m.den : Rat) := by
    conv_lhs => rw [← Rat.num_div_den m, hp]
    simp
  have hdpos : (0 : Rat) < m.den := by exact_mod_cast Nat.pos_of_ne_zero hd0
  have a1 : (2 : Rat) ^ Nat.log2 p ≤ p := by exact_mod_cast Nat.log2_self_le hp0
  have a2 : (p : Rat) < 2 ^ (Nat.log2 p + 1) := by exact_mod_cast (Nat.log2_lt hp0).1 (Nat.lt_succ_self _)
  have b1 : (2 : Rat) ^ Nat.log2 m.den ≤ m.den := by exact_mod_cast Nat.log2_self_le hd0
  have b2 : (m.den : Rat) < 2 ^ (Nat.log2 m.den + 1) := by
    exact_mod_cast (Nat.log2_lt hd0).1 (Nat.lt_succ_self _)
  have hlow : pow2 ((Nat.log2 p : Int) - (Nat.log2 m.den : Int) - 1) ≤ m := by
    refine le_of_le_of_eq ?_ hmq.symm
    rw [le_div_iff₀ hdpos]
    have : pow2 ((Nat.log2 p : Int) - (Nat.log2 m.den : Int) - 1) * 2 ^ (Nat.log2 m.den + 1) = 2 ^ Nat.log2 p := by
      rw [← pow2_natCast, ← pow2_add, ← pow2_natCast]; congr 1; push_cast; ring
    calc _ ≤ pow2 ((Nat.log2 p : Int) - (Nat.log2 m.den : Int) - 1) * 2 ^ (Nat.log2 m.den + 1) :=
          mul_le_mul_of_nonneg_left b2.le (pow2_pos _).le
      _ ≤ p := by rw [this]; exact a1
  have hhigh : m < pow2 ((Nat.log2 p : Int) - (Nat.log2 m.den : Int) + 1) := by
    refine lt_of_eq_of_lt hmq ?_
    rw [div_lt_iff₀ hdpos]
    have : pow2 ((Nat.log2 p : Int) - (Nat.log2 m.den : Int) + 1) * 2 ^ Nat.log2 m.den = 2 ^ (Nat.log2 p + 1) := by
      rw [← pow2_natCast, ← pow2_add, ← pow2_natCast]; congr 1; push_cast; ring
    calc (p : Rat) < 2 ^ (Nat.log2 p + 1) := a2
      _ ≤ _ := by rw [← this]; exact mul_le_mul_of_nonneg_left b1 (pow2_pos _).le
  have hk : m.num.toNat = p := by rw [hp]; rfl
  unfold floorLog2
  simp only [hk]
  split
  · exact ⟨by assumption, hhigh⟩
  · refine ⟨hlow, ?_⟩
    rw [sub_add_cancel]; exact lt_of_not_ge (by assumption)

/-! Rounding to an integer. -/

/-- Rounding a magnitude keeps its floor or goes one up, and goes up only when there is a fraction. -/
theorem roundInt_cases {q : Rat} (s : Bool) (mode : RoundMode) :
    roundInt q s mode = q.floor.toNat ∨
      (q ≠ (q.floor.toNat : Rat) ∧ roundInt q s mode = q.floor.toNat + 1) := by
  unfold roundInt
  dsimp only
  split
  · exact .inl rfl
  · rename_i h
    have hq : q ≠ (q.floor.toNat : Rat) := fun hq => h (sub_eq_zero.2 hq)
    cases mode <;> dsimp only <;> (repeat' split) <;> simp [hq]

theorem floor_toNat_le {q : Rat} (hq : 0 ≤ q) : ((q.floor.toNat : Nat) : Rat) ≤ q := by
  have h0 : 0 ≤ q.floor := Rat.le_floor_iff.2 (by simpa using hq)
  have : ((q.floor.toNat : Nat) : Rat) = ((q.floor : Int) : Rat) := by
    rw [← Int.cast_natCast, Int.toNat_of_nonneg h0]
  rw [this]; exact Rat.floor_le q

theorem lt_floor_toNat_add_one {q : Rat} (hq : 0 ≤ q) : q < ((q.floor.toNat : Nat) : Rat) + 1 := by
  have h0 : 0 ≤ q.floor := Rat.le_floor_iff.2 (by simpa using hq)
  have : ((q.floor.toNat : Nat) : Rat) = ((q.floor : Int) : Rat) := by
    rw [← Int.cast_natCast, Int.toNat_of_nonneg h0]
  rw [this]; exact_mod_cast Rat.lt_floor_add_one q

/-- An integer is rounded to itself. -/
theorem roundInt_natCast (n : Nat) (s : Bool) (mode : RoundMode) : roundInt (n : Rat) s mode = n := by
  have hf : ((n : Rat).floor).toNat = n := by
    have : (n : Rat).floor = (n : Int) := by
      have := Rat.floor_intCast (n : Int)
      simpa using this
    rw [this]; rfl
  unfold roundInt
  simp [hf]

/-- Rounding moves a magnitude by less than one. -/
theorem roundInt_near {q : Rat} (hq : 0 ≤ q) (s : Bool) (mode : RoundMode) :
    |(roundInt q s mode : Rat) - q| < 1 := by
  have h1 := floor_toNat_le hq
  have h2 := lt_floor_toNat_add_one hq
  rcases roundInt_cases (q := q) s mode with h | ⟨hne, h⟩ <;> rw [h, abs_lt]
  · constructor <;> linarith
  · have : ((q.floor.toNat : Nat) : Rat) < q := lt_of_le_of_ne h1 (Ne.symm hne)
    push_cast
    constructor <;> linarith

/-! The exceptions of a delivery. -/

/-- The exceptions a delivery can cause (rules R90, R122). -/
def DeliveryExc (x : FpExc) : Prop := x = .overflow ∨ x = .underflow ∨ x = .inexact

theorem inexactIf_excs {r m : Rat} {x : FpExc} (h : x ∈ inexactIf r m) : x = .inexact := by
  unfold inexactIf at h
  split at h
  · simp at h
  · simpa using h

theorem overflow_excs {x : FpExc} (h : x ∈ [FpExc.overflow, .inexact]) : DeliveryExc x := by
  simp only [List.mem_cons, List.not_mem_nil, or_false] at h
  rcases h with rfl | rfl <;> simp [DeliveryExc]

theorem underflow_excs {x : FpExc} (h : x ∈ [FpExc.underflow, .inexact]) : DeliveryExc x := by
  simp only [List.mem_cons, List.not_mem_nil, or_false] at h
  rcases h with rfl | rfl <;> simp [DeliveryExc]

theorem roundFp_excs {rc : RangeCheck} {s : Bool} {m : Rat} {F : Format} {mode : RoundMode} {denorm : Bool}
    {x : FpExc} (h : x ∈ (roundFp rc s m F mode denorm).2) : DeliveryExc x := by
  cases rc
  · simp only [roundFp, roundFpExact] at h
    repeat' split at h
    all_goals first
      | exact overflow_excs h
      | exact underflow_excs h
      | exact .inr (.inr (inexactIf_excs h))
      | cases h
  · simp only [roundFp, roundFpRounded] at h
    repeat' split at h
    all_goals first
      | exact overflow_excs h
      | exact underflow_excs h
      | exact .inr (.inr (inexactIf_excs h))
      | cases h

theorem deliver_excs {rc : RangeCheck} {s : Bool} {m : Rat} {Fd I : Format} {mode : RoundMode} {denorm : Bool}
    {x : FpExc} (h : x ∈ (deliver rc s m Fd I mode denorm).2) : DeliveryExc x := by
  unfold deliver at h
  dsimp only at h
  repeat' split at h
  all_goals first
    | exact roundFp_excs h
    | exact overflow_excs h
    | exact underflow_excs h
    | exact (List.mem_append.1 h).elim roundFp_excs (fun h => roundFp_excs (List.mem_of_mem_filter h))

end Sys2Proof
end

