-- ==== Sys2Proof/Laws/PerInstr.lean ====
section
/-! SUPPORT. For every instruction: its opcode has a row in the opcode map, its control bits are four bits that the
row's layout admits, it has as many operands as the row says, and its three parts put together give it back. -/

set_option Elab.async false

namespace Sys2Proof.Laws

/-- The parts of an instruction's encoding fit its row of the opcode map (rules R51 to R56). -/
def EncodingFields.Statement (i : Instr) : Prop :=
  ∃ row, opcodeRow i.number = some row ∧ row.layout.admits i.h = true ∧ i.h < 16 ∧
    row.arity = i.operands.length ∧ assemble row.opcode i.h i.operands = some i

theorem packF_parts (f : Bool) : packF f / 2 = 0 ∧ packF f < 16 ∧ hF (packF f) = f := by cases f <;> decide

theorem packSsIF_parts (ss : Fin 4) (ib f : Bool) :
    packSsIF ss ib f < 16 ∧ hSs (packSsIF ss ib f) = ss ∧ hI (packSsIF ss ib f) = ib ∧ hF (packSsIF ss ib f) = f := by
  revert ss; cases ib <;> cases f <;> decide

theorem EncodingFields.movsif (f : Bool) (d s : Operand) :
    EncodingFields.Statement (.movsif f d s) :=
  ⟨_, rfl, by simp [HLayout.admits, Instr.h, packF_parts f], (packF_parts f).2.1, rfl, by
    simp [assemble, Instr.h, Instr.operands, packF_parts f]⟩

theorem EncodingFields.movxf (ss : Fin 4) (ib f : Bool) (d s : Operand) :
    EncodingFields.Statement (.movxf ss ib f d s) :=
  ⟨_, rfl, rfl, (packSsIF_parts ss ib f).1, rfl, by
    simp [assemble, Instr.h, Instr.operands, packSsIF_parts ss ib f]⟩

theorem EncodingFields.movfsi (f : Bool) (d s : Operand) :
    EncodingFields.Statement (.movfsi f d s) :=
  ⟨_, rfl, by simp [HLayout.admits, Instr.h, packF_parts f], (packF_parts f).2.1, rfl, by
    simp [assemble, Instr.h, Instr.operands, packF_parts f]⟩

theorem EncodingFields.movfx (ss : Fin 4) (ib f : Bool) (d s : Operand) :
    EncodingFields.Statement (.movfx ss ib f d s) :=
  ⟨_, rfl, rfl, (packSsIF_parts ss ib f).1, rfl, by
    simp [assemble, Instr.h, Instr.operands, packSsIF_parts ss ib f]⟩

theorem EncodingFields.cvtf (f : Bool) (d s : Operand) :
    EncodingFields.Statement (.cvtf f d s) :=
  ⟨_, rfl, by simp [HLayout.admits, Instr.h, packF_parts f], (packF_parts f).2.1, rfl, by
    simp [assemble, Instr.h, Instr.operands, packF_parts f]⟩

theorem EncodingFields.round (f : Bool) (d : Operand) :
    EncodingFields.Statement (.round f d) :=
  ⟨_, rfl, by simp [HLayout.admits, Instr.h, packF_parts f], (packF_parts f).2.1, rfl, by
    simp [assemble, Instr.h, Instr.operands, packF_parts f]⟩

theorem EncodingFields.ceil (f : Bool) (d : Operand) :
    EncodingFields.Statement (.ceil f d) :=
  ⟨_, rfl, by simp [HLayout.admits, Instr.h, packF_parts f], (packF_parts f).2.1, rfl, by
    simp [assemble, Instr.h, Instr.operands, packF_parts f]⟩

theorem EncodingFields.floor (f : Bool) (d : Operand) :
    EncodingFields.Statement (.floor f d) :=
  ⟨_, rfl, by simp [HLayout.admits, Instr.h, packF_parts f], (packF_parts f).2.1, rfl, by
    simp [assemble, Instr.h, Instr.operands, packF_parts f]⟩

theorem EncodingFields.fabs (f : Bool) (d : Operand) :
    EncodingFields.Statement (.fabs f d) :=
  ⟨_, rfl, by simp [HLayout.admits, Instr.h, packF_parts f], (packF_parts f).2.1, rfl, by
    simp [assemble, Instr.h, Instr.operands, packF_parts f]⟩

theorem EncodingFields.fneg (f : Bool) (d : Operand) :
    EncodingFields.Statement (.fneg f d) :=
  ⟨_, rfl, by simp [HLayout.admits, Instr.h, packF_parts f], (packF_parts f).2.1, rfl, by
    simp [assemble, Instr.h, Instr.operands, packF_parts f]⟩

theorem EncodingFields.finv (f : Bool) (d : Operand) :
    EncodingFields.Statement (.finv f d) :=
  ⟨_, rfl, by simp [HLayout.admits, Instr.h, packF_parts f], (packF_parts f).2.1, rfl, by
    simp [assemble, Instr.h, Instr.operands, packF_parts f]⟩

theorem EncodingFields.fadd (f : Bool) (d s : Operand) :
    EncodingFields.Statement (.fadd f d s) :=
  ⟨_, rfl, by simp [HLayout.admits, Instr.h, packF_parts f], (packF_parts f).2.1, rfl, by
    simp [assemble, Instr.h, Instr.operands, packF_parts f]⟩

theorem EncodingFields.fsub (f : Bool) (d s : Operand) :
    EncodingFields.Statement (.fsub f d s) :=
  ⟨_, rfl, by simp [HLayout.admits, Instr.h, packF_parts f], (packF_parts f).2.1, rfl, by
    simp [assemble, Instr.h, Instr.operands, packF_parts f]⟩

theorem EncodingFields.fmul (f : Bool) (d s : Operand) :
    EncodingFields.Statement (.fmul f d s) :=
  ⟨_, rfl, by simp [HLayout.admits, Instr.h, packF_parts f], (packF_parts f).2.1, rfl, by
    simp [assemble, Instr.h, Instr.operands, packF_parts f]⟩

theorem EncodingFields.fdiv (f : Bool) (d s : Operand) :
    EncodingFields.Statement (.fdiv f d s) :=
  ⟨_, rfl, by simp [HLayout.admits, Instr.h, packF_parts f], (packF_parts f).2.1, rfl, by
    simp [assemble, Instr.h, Instr.operands, packF_parts f]⟩

theorem EncodingFields.frem (f : Bool) (d s : Operand) :
    EncodingFields.Statement (.frem f d s) :=
  ⟨_, rfl, by simp [HLayout.admits, Instr.h, packF_parts f], (packF_parts f).2.1, rfl, by
    simp [assemble, Instr.h, Instr.operands, packF_parts f]⟩

theorem EncodingFields.fma (f : Bool) (d s t : Operand) :
    EncodingFields.Statement (.fma f d s t) :=
  ⟨_, rfl, by simp [HLayout.admits, Instr.h, packF_parts f], (packF_parts f).2.1, rfl, by
    simp [assemble, Instr.h, Instr.operands, packF_parts f]⟩

theorem EncodingFields.fcmpz (a : Operand) :
    EncodingFields.Statement (.fcmpz a) :=
  ⟨_, rfl, rfl, by simp [Instr.h], rfl, rfl⟩

theorem EncodingFields.fcmp (a b : Operand) :
    EncodingFields.Statement (.fcmp a b) :=
  ⟨_, rfl, rfl, by simp [Instr.h], rfl, rfl⟩

theorem EncodingFields.fraiseexcept : EncodingFields.Statement .fraiseexcept :=
  ⟨_, rfl, rfl, by simp [Instr.h], rfl, rfl⟩

theorem EncodingFields.ftriggerexcept : EncodingFields.Statement .ftriggerexcept :=
  ⟨_, rfl, rfl, by simp [Instr.h], rfl, rfl⟩

end Sys2Proof.Laws
end

