-- ==== Sys2Proof/Tests/Slice0.lean ====
section
/-! SUPPORT. Tests: ill-formed terms, words written out from the encoding, worked examples of the rules and rows of
`95_test_vectors.md`, and for each statement a witness of its hypotheses. Expected values are the spec's. -/

set_option Elab.async false

namespace Sys2Proof.Tests

open Sys2Proof Sys2Proof.Machine

/-! Well-formedness: an ill-formed term for each check (rule R58). -/

theorem test_short_immediate_is_ill_formed :
    (Instr.fadd false (.reg 24 .b4) (.imm 1 .b4 false)).wellFormed = false := by decide

theorem test_immediate_of_size_1_is_ill_formed :
    (Instr.fcmpz (.imm 1 .b1 true)).wellFormed = false := by decide

theorem test_long_immediate_is_well_formed :
    (Instr.fma false (.reg 24 .b4) (.reg 25 .b4) (.imm 1 .b4 true)).wellFormed = true := by decide

/-! Words: opcode in bits 15-4, `h` in bits 3-0 (rules R51 to R56). -/

theorem test_word_movsif : decode ⟨0x0220#16, [.reg 24 4, .reg 3 8]⟩ = .ok (.movsif false (.reg 24 .b4) (.reg 3 .b8)) :=
  by decide
theorem test_word_movxf_ss1_f :
    decode ⟨0x0235#16, [.reg 24 4, .mem 16 2]⟩ = .ok (.movxf 1 false true (.reg 24 .b4) (.mem 16 .b2)) := by decide
theorem test_word_movfsi : decode ⟨0x0241#16, [.reg 3 1, .reg 31 2]⟩ = .ok (.movfsi true (.reg 3 .b1) (.reg 31 .b2)) :=
  by decide
theorem test_word_movfx_ss3_i :
    decode ⟨0x025e#16, [.reg 3 8, .reg 24 8]⟩ = .ok (.movfx 3 true false (.reg 3 .b8) (.reg 24 .b8)) := by decide
theorem test_word_cvtf : decode ⟨0x0260#16, [.reg 24 2, .reg 25 8]⟩ = .ok (.cvtf false (.reg 24 .b2) (.reg 25 .b8)) :=
  by decide
theorem test_word_round : decode ⟨0x1000#16, [.reg 24 4]⟩ = .ok (.round false (.reg 24 .b4)) := by decide
theorem test_word_ceil : decode ⟨0x1011#16, [.reg 24 4]⟩ = .ok (.ceil true (.reg 24 .b4)) := by decide
theorem test_word_floor : decode ⟨0x1020#16, [.reg 24 4]⟩ = .ok (.floor false (.reg 24 .b4)) := by decide
theorem test_word_fabs : decode ⟨0x1030#16, [.reg 24 4]⟩ = .ok (.fabs false (.reg 24 .b4)) := by decide
theorem test_word_fneg : decode ⟨0x1040#16, [.reg 24 4]⟩ = .ok (.fneg false (.reg 24 .b4)) := by decide
theorem test_word_finv : decode ⟨0x1050#16, [.reg 24 4]⟩ = .ok (.finv false (.reg 24 .b4)) := by decide
theorem test_word_fadd : decode ⟨0x1060#16, [.reg 24 4, .reg 25 4]⟩ = .ok (.fadd false (.reg 24 .b4) (.reg 25 .b4)) :=
  by decide
theorem test_word_fsub : decode ⟨0x1071#16, [.reg 24 4, .reg 25 4]⟩ = .ok (.fsub true (.reg 24 .b4) (.reg 25 .b4)) :=
  by decide
theorem test_word_fmul : decode ⟨0x1080#16, [.mem 8 8, .reg 25 4]⟩ = .ok (.fmul false (.mem 8 .b8) (.reg 25 .b4)) :=
  by decide
theorem test_word_fdiv : decode ⟨0x1090#16, [.reg 24 4, .imm 7 4 true]⟩ =
    .ok (.fdiv false (.reg 24 .b4) (.imm 7 .b4 true)) := by decide
theorem test_word_frem : decode ⟨0x10a0#16, [.reg 24 4, .reg 25 4]⟩ = .ok (.frem false (.reg 24 .b4) (.reg 25 .b4)) :=
  by decide
theorem test_word_fma : decode ⟨0x10b0#16, [.reg 24 4, .reg 25 4, .reg 26 4]⟩ =
    .ok (.fma false (.reg 24 .b4) (.reg 25 .b4) (.reg 26 .b4)) := by decide
theorem test_word_fcmpz : decode ⟨0x1180#16, [.reg 24 4]⟩ = .ok (.fcmpz (.reg 24 .b4)) := by decide
theorem test_word_fcmp : decode ⟨0x1190#16, [.reg 24 4, .reg 25 8]⟩ = .ok (.fcmp (.reg 24 .b4) (.reg 25 .b8)) :=
  by decide
theorem test_word_fraiseexcept : decode ⟨0x1300#16, []⟩ = .ok .fraiseexcept := by decide
theorem test_word_ftriggerexcept : decode ⟨0x1310#16, []⟩ = .ok .ftriggerexcept := by decide

/-! Rejections by name. -/

theorem test_reserved_h : decode ⟨0x1062#16, [.reg 24 4, .reg 25 4]⟩ = .error .reservedH := by decide
theorem test_reserved_h_comparison : decode ⟨0x1181#16, [.reg 24 4]⟩ = .error .reservedH := by decide
theorem test_undefined_opcode : decode ⟨0x10c0#16, []⟩ = .error (.undefinedOpcode 0x10c) := by decide
theorem test_outside_extension : decode ⟨0x11a0#16, []⟩ = .error (.outsideExtension 0x11a) := by decide
theorem test_base_opcode : decode ⟨0x0010#16, [.reg 24 8]⟩ = .error (.baseOpcode 1) := by decide
theorem test_operand_size : decode ⟨0x1000#16, [.reg 24 16]⟩ = .error .operandSize := by decide
theorem test_operand_count : decode ⟨0x1000#16, [.reg 24 4, .reg 25 4]⟩ = .error .operandCount := by decide
theorem test_short_immediate : decode ⟨0x1060#16, [.reg 24 4, .imm 1 4 false]⟩ = .error .immediateForm := by decide

/-! The table's own words reach the decoder and the step. -/

theorem test_table_word : decodeTableWord 16 0x0237 = some (.movxf 1 true true (.reg 0 .b1) (.reg 0 .b1)) := by decide

theorem test_fetch_word : step (State.reset.withFetchWord 16 0x1300) =
    .next ((State.reset.withFetchWord 16 0x1300).raise .und) := rfl

/-! Small states: the extension enabled, every exception masked, round half to even, denormals on. -/

/-- The machine after startup with `cr0.FPEN` set and three floating-point registers given values (rule R202). -/
def three (a b c : Word) : State :=
  { State.reset with cr0 := 0x40, f := ((State.reset.f.set 0 a).set 1 b).set 2 c }

/-- The same with another control word. -/
def withWord (s : State) (w : Word) : State := { s with fpcrw := w }

/-- The same with general register 3 holding a value. -/
def withGpr3 (s : State) (v : Word) : State := { s with gpr := cellSet s.gpr 3 v }

/-- The next state, if there is one. -/
def after : Host.Outcome State Fault Refusal → Option State
  | .next t => some t
  | .fault _ => none
  | .refused _ => none

/-- `f0`, the `EXCEPT` field, `N` and `Z` of a next state. -/
def seen (o : Host.Outcome State Fault Refusal) : Option (Word × Nat × Bool × Bool) :=
  (after o).map (fun t => (t.f[0], t.fpcrw.toNat / 256 % 256, t.flags.n, t.flags.z))

/-- General register 3, the `EXCEPT` field, `N` and `Z` of a next state. -/
def seenInt (o : Host.Outcome State Fault Refusal) : Option (Word × Nat × Bool × Bool) :=
  (after o).map (fun t => (t.readReg 3, t.fpcrw.toNat / 256 % 256, t.flags.n, t.flags.z))

/-! Worked examples of the rules. -/

/-- The example of rule R104 under `RND = 4`. -/
theorem test_movsif_rounds : seen (exec (.movsif false (.reg 24 .b4) (.reg 3 .b4))
    (withGpr3 (three 0 0 0) 0x01000001)) = some (0x4B800000, 16, false, false) := by decide +kernel

/-- The second example of rule R105: -0.5. -/
theorem test_movxf_negative : seen (exec (.movxf 2 false false (.reg 24 .b4) (.reg 3 .b2))
    (withGpr3 (three 0 0 0) 0xFF80)) = some (0xBF000000, 0, true, false) := by decide +kernel

/-- The example of rule R106: -3.75 to 16 bits. -/
theorem test_movfsi_truncates : seenInt (exec (.movfsi false (.reg 3 .b2) (.reg 24 .b4)) (three 0xC0700000 0 0)) =
    some (0xFFFD, 0, true, false) := by decide +kernel

/-- The example of rule R107: -2.5 with no fraction bits under `RND = 3` and under `RND = 1`. -/
theorem test_movfx_half_up : seenInt (exec (.movfx 3 true false (.reg 3 .b2) (.reg 24 .b4))
    (withWord (three 0xC0200000 0 0) 0x01FF0013)) = some (0xFFFE, 16, true, false) := by decide +kernel
theorem test_movfx_down : seenInt (exec (.movfx 3 true false (.reg 3 .b2) (.reg 24 .b4))
    (withWord (three 0xC0200000 0 0) 0x01FF0011)) = some (0xFFFD, 16, true, false) := by decide +kernel

/-- The examples of rule R108. -/
theorem test_cvtf_rounds : seen (exec (.cvtf false (.reg 24 .b4) (.reg 25 .b8)) (three 0 0x3FB999999999999A 0)) =
    some (0x3DCCCCCD, 16, false, false) := by decide +kernel
theorem test_cvtf_overflows : seen (exec (.cvtf false (.reg 24 .b4) (.reg 25 .b8)) (three 0 0x483D6329F1C35CA5 0)) =
    some (0x7F800000, 20, false, false) := by decide +kernel

/-- The example of rule R130: -2.5 rounds half up to -2. -/
theorem test_round_half_up : seen (exec (.round false (.reg 24 .b4)) (three 0xC0200000 0 0)) =
    some (0xC0000000, 0, true, false) := by decide +kernel

/-- A corner case of rule R131: -0.25 goes to -0.0. -/
theorem test_ceil_negative_zero : seen (exec (.ceil false (.reg 24 .b4)) (three 0xBE800000 0 0)) =
    some (0x80000000, 0, true, true) := by decide +kernel

/-- The example of rule R132. -/
theorem test_floor : seen (exec (.floor false (.reg 24 .b4)) (three 0xBFA00000 0 0)) =
    some (0xC0000000, 0, true, false) := by decide +kernel

/-- The examples of rules R133 and R134. -/
theorem test_fabs : seen (exec (.fabs false (.reg 24 .b4)) (three 0xC0400000 0 0)) =
    some (0x40400000, 0, false, false) := by decide +kernel
theorem test_fneg : seen (exec (.fneg false (.reg 24 .b4)) (three 0x3FC00000 0 0)) =
    some (0xBFC00000, 0, true, false) := by decide +kernel

/-- The examples of rule R135, and its division by zero (rule R126). -/
theorem test_finv : seen (exec (.finv false (.reg 24 .b4)) (three 0x40400000 0 0)) =
    some (0x3EAAAAAB, 16, false, false) := by decide +kernel
theorem test_finv_of_negative_zero : seen (exec (.finv false (.reg 24 .b4)) (three 0x80000000 0 0)) =
    some (0xFF800000, 2, true, false) := by decide +kernel

/-- The binary64 example of rule R136, and `f` keeping the flags. -/
theorem test_fadd : seen (exec (.fadd false (.reg 24 .b8) (.reg 25 .b8))
    (three 0x3FB999999999999A 0x3FC999999999999A 0)) = some (0x3FD3333333333334, 16, false, false) := by decide +kernel
theorem test_fadd_keeps_flags : seen (exec (.fadd true (.reg 24 .b4) (.reg 25 .b4))
    (three 0xBF800000 0x3F800000 0)) = some (0, 0, false, false) := by decide +kernel

/-- The example of rule R137 under `RND = 1`: -0.0. -/
theorem test_fsub_zero_down : seen (exec (.fsub false (.reg 24 .b4) (.reg 25 .b4))
    (withWord (three 0x3F800000 0x3F800000 0) 0x01FF0011)) = some (0x80000000, 0, true, true) := by decide +kernel

/-- A corner case of rule R138: the least normal halved is a denormal, exactly. -/
theorem test_fmul_denormal : seen (exec (.fmul false (.reg 24 .b4) (.reg 25 .b4)) (three 0x00800000 0x3F000000 0)) =
    some (0x00400000, 0, false, false) := by decide +kernel

/-- The example of rule R139 under `RND = 2`. -/
theorem test_fdiv_truncates : seen (exec (.fdiv false (.reg 24 .b4) (.reg 25 .b4))
    (withWord (three 0x3F800000 0x40400000 0) 0x01FF0012)) = some (0x3EAAAAAA, 16, false, false) := by decide +kernel

/-- Corner cases of rule R140: `frem(5.0, 3.0)` is 2.0, `frem(-8.0, 4.0)` is -0.0. -/
theorem test_frem : seen (exec (.frem false (.reg 24 .b4) (.reg 25 .b4)) (three 0x40A00000 0x40400000 0)) =
    some (0x40000000, 0, false, false) := by decide +kernel
theorem test_frem_negative_zero : seen (exec (.frem false (.reg 24 .b4) (.reg 25 .b4)) (three 0xC1000000 0x40800000 0)) =
    some (0x80000000, 0, true, true) := by decide +kernel

/-- The corner case of rule R141: one rounding only. -/
theorem test_fma_rounds_once : seen (exec (.fma false (.reg 24 .b4) (.reg 25 .b4) (.reg 26 .b4))
    (three 0x3F800800 0x3F800800 0xBF801000)) = some (0x33800000, 0, false, false) := by decide +kernel

/-- The example of rule R153: 1.0 is above zero, so zero is less. -/
theorem test_fcmpz : (after (exec (.fcmpz (.reg 24 .b4)) (three 0x3F800000 0 0))).map (fun t => t.flags) =
    some ⟨true, false, false, true, false, false, 0⟩ := by decide +kernel

/-- The corner case of rule R154: operands of two sizes, compared exactly. -/
theorem test_fcmp_sizes : (after (exec (.fcmp (.reg 24 .b4) (.reg 25 .b8))
    (three 0x3DCCCCCD 0x3FB999999999999A 0))).map (fun t => t.flags) =
    some ⟨false, false, false, false, false, false, 0⟩ := by decide +kernel

/-- The examples of rule R161, with the two settings of `EMASKALL`. -/
theorem test_fraiseexcept_raises : exec .fraiseexcept (withWord ((three 0 0 0).setFpexcpt true) 0x00EF1014) =
    .next ((withWord ((three 0 0 0).setFpexcpt true) 0x00EF1014).raise .fpe) := rfl
theorem test_ftriggerexcept_ignores_emaskall :
    exec .ftriggerexcept (withWord (three 0 0 0) 0x01EF1014) =
      .next ((withWord (three 0 0 0) 0x01EF1014).raise .prot) := rfl

/-! Witnesses: for each statement with hypotheses, states and operands that meet them together, at the boundaries of
its clauses. -/

/-- A state whose next entry is a given one. -/
def at0 (s : State) (e : Encoded) : State := { s with program := [.word e], ip := 0 }

/-- The same machine with other parameters. -/
def withImpl (s : State) (p : Impl) : State := { s with impl := p }

/-- `flags.XM` set, and register 5 a supervisor register. -/
def userMode (s : State) : State :=
  { s with flags := { s.flags with xm := true }, impl := { s.impl with supervisorRegs := [5] } }

theorem witness_DecodeOfEncode : (Instr.fcmp (.imm 0 .b2 true) (.reg 31 .b8)).wellFormed = true := by decide

theorem witness_EncodeOfDecode : decode ⟨0x025f#16, [.reg 3 1, .reg 24 8]⟩ =
    .ok (.movfx 3 true true (.reg 3 .b1) (.reg 24 .b8)) := by decide

theorem witness_UndefinedOpcodesAndForms :
    (at0 (three 0 0 0) ⟨0x10c0#16, []⟩).program[0]? = some (.word ⟨0x10c0#16, []⟩) ∧
    opcodeField 0x10c0#16 = 0x10c ∧ opcodeField 0x10ff#16 = 0x10f ∧
    (opcodeRow (opcodeField 0x1002#16)).map OpcodeRow.layout = some .h00f ∧ hField 0x1002#16 = 2 ∧
    (opcodeRow (opcodeField 0x1301#16)).map OpcodeRow.layout = some .h0 ∧ hField 0x1301#16 = 1 ∧
    (three 0 0 0).fpen = true ∧ State.reset.fpen = false ∧ State.reset.trapped = none ∧
    opcodeRow (opcodeField 0x0070#16) = none ∧ opcodeField 0x0070#16 = 7 ∧ opcodeRow (opcodeField 0x0080#16) = none ∧
    RawOperand.reg 19 8 ∈ [RawOperand.reg 19 8] ∧ RawOperand.reg 31 8 ∈ [RawOperand.reg 31 8] := by decide

/-- Naming register 19 while `cr0.FPEN = 0` raises UND in a base opcode and outside the extension (rules R12, R201). -/
theorem test_disabled_fpcrw :
    step (at0 State.reset ⟨0x0010#16, [.reg 19 8]⟩) = .next ((at0 State.reset ⟨0x0010#16, [.reg 19 8]⟩).raise .und) ∧
    step (at0 State.reset ⟨0x11a0#16, [.reg 19 8]⟩) = .next ((at0 State.reset ⟨0x11a0#16, [.reg 19 8]⟩).raise .und) ∧
    step (at0 (three 0 0 0) ⟨0x0010#16, [.reg 19 8]⟩) = .refused .baseSemantics := ⟨rfl, rfl, rfl⟩

theorem witness_BaseOpcodesRefuseFpRegisters :
    opcodeField 0x0010#16 = 1 ∧ opcodeField 0x007f#16 = 7 ∧ RawOperand.reg 24 8 ∈ [RawOperand.reg 24 8] ∧
    RawOperand.reg 31 1 ∈ [RawOperand.mem 0 1, .reg 31 1] := by decide

theorem witness_StepRunsDecodedInstruction :
    (at0 (three 0 0 0) ⟨0x1300#16, []⟩).trapped = none ∧
    (at0 (three 0 0 0) ⟨0x1300#16, []⟩).program[(at0 (three 0 0 0) ⟨0x1300#16, []⟩).ip]? =
      some (.word ⟨0x1300#16, []⟩) ∧ decode ⟨0x1300#16, []⟩ = .ok .fraiseexcept := by decide

theorem witness_EndedRunsStay :
    (State.reset.raise .pf).trapped = some .pf ∧ State.reset.trapped = none ∧
      State.reset.program.length ≤ State.reset.ip := by decide

theorem witness_PlacedInstructionRuns : decode ⟨0x1310#16, []⟩ = .ok .ftriggerexcept := by decide

theorem witness_StepKeepsInvariant :
    (at0 (three 0 0 0) ⟨0x1300#16, []⟩).Inv ∧
    step (at0 (three 0 0 0) ⟨0x1300#16, []⟩) = .next (at0 (three 0 0 0) ⟨0x1300#16, []⟩).advance :=
  ⟨by unfold State.Inv; decide, rfl⟩


theorem witness_DisabledOrReservedXopssRaisesUnd :
    State.reset.fpen = false ∧
    (withWord (three 0 0 0) 0x07FF0014).fpen = true ∧ (withWord (three 0 0 0) 0x07FF0014).xopss = 3 ∧
    operandVerdict (withWord (three 0 0 0) 0x07FF0014) (.fabs false (.reg 24 .b4)) ≠ .refused := by decide

theorem witness_ArithmeticForms :
    arithParts (.fadd false (.mem 8 .b4) (.reg 31 .b2)) = some (false, .mem 8 .b4, [.reg 31 .b2]) ∧
    ArithLegal (.mem 8 .b4) [.reg 31 .b2] ∧
    arithParts (.fabs false (.mem 8 .b4)) = some (false, .mem 8 .b4, []) ∧ ¬ ArithLegal (.mem 8 .b4) [] := by
  refine ⟨rfl, ⟨.inr ⟨8, .b4, rfl, by decide⟩, ?_, ?_⟩, rfl, ?_⟩
  · intro o ho
    rw [List.mem_singleton.1 ho]
    exact .inl ⟨31, .b2, rfl, by decide, by decide, by decide⟩
  · exact ⟨.reg 31 .b2, by simp, 31, .b2, rfl, by decide, by decide, by decide⟩
  · rintro ⟨_, _, o, ho, n, z, rfl, _⟩
    simp at ho

theorem witness_ConvertingMoveForms :
    MoveLegal (three 0 0 0) (.movfsi false (.mem 1 .b1) (.reg 24 .b2)) ∧
    MoveLoose (three 0 0 0) (.movfsi false (.mem 1 .b1) (.imm 0 .b2 true)) ∧
    MoveLoose (three 0 0 0) (.movxf 0 false false (.mem 8 .b8) (.reg 3 .b1)) ∧
    ¬ MoveLegal (three 0 0 0) (.movfsi false (.reg 17 .b8) (.mem 8 .b2)) ∧
    ¬ MoveLoose (three 0 0 0) (.movfsi false (.reg 17 .b8) (.mem 8 .b2)) := by
  have h : ¬ IntTarget (three 0 0 0) (.reg 17 .b8) := by
    rintro (⟨n, z, h, _, h17, _⟩ | ⟨ea, z, h⟩)
    · cases h; exact h17 (by decide)
    · cases h
  exact ⟨⟨⟨24, .b2, rfl, by decide, by decide, by decide⟩, .inr ⟨1, .b1, rfl⟩⟩,
    ⟨.inr ⟨0, .b2, rfl, by decide⟩, .inr ⟨1, .b1, rfl⟩⟩, ⟨⟨8, .b8, rfl, by decide⟩, .inl ⟨3, .b1, rfl, by decide⟩⟩,
    fun x => h x.2, fun x => h x.2⟩

/-- A form that only the loose reading admits is refused, not UND (decision D18, U13). -/
theorem test_loose_form_is_refused :
    exec (.movsif false (.mem 8 .b8) (.reg 3 .b8)) (three 0 0 0) = .refused .looseForm := rfl

theorem witness_ComparisonForms :
    (three 0 0 0).fpen = true ∧ FpOperand (.imm 0 .b2 true) ∧ ¬ FpOperand (.reg 23 .b4) ∧
    FpMem (.mem 8 .b4) ∧ Operand.wellFormed (.imm 0 .b2 true) = true := by
  refine ⟨by decide, .inr (.inr ⟨0, .b2, rfl, by decide⟩), ?_, ⟨8, .b4, rfl, by decide⟩, by decide⟩
  rintro (⟨n, z, h, h1, _⟩ | ⟨ea, z, h, _⟩ | ⟨v, z, h, _⟩)
  · cases h; omega
  · cases h
  · cases h

theorem enabled_three (a b c : Word) (ops : List Operand) (h : ∀ o, o ∈ ops → o.wellFormed = true) :
    Enabled (three a b c) ops :=
  ⟨(by decide : (0x40#64).getLsbD 6 = true), (by decide : startupFpcrw.toNat / 2 ^ 25 % 4 ≠ 3), h⟩

theorem witness_SupervisorRegisterRaisesProt :
    Enabled (userMode (three 0 0 0)) [.reg 24 .b4, .reg 5 .b4] ∧
    moveVerdict (userMode (three 0 0 0)) (.movsif false (.reg 24 .b4) (.reg 5 .b4)) = .admitted ∧
    (userMode (three 0 0 0)).flags.xm = true ∧ isSuper (userMode (three 0 0 0)).impl (.reg 5 .b4) = true :=
  ⟨⟨rfl, by decide, by decide⟩, by decide, rfl, by decide⟩

theorem witness_FirstFailingAccessDecides :
    accessesOf (.fadd false (.mem 2 .b4) (.reg 24 .b4)) =
      [] ++ (.mem 2 .b4, [] ++ AccessKind.read :: [.write]) :: [(.reg 24 .b4, [.read])] ∧
    Enabled (three 0 0 0) [.mem 2 .b4, .reg 24 .b4] ∧
    operandVerdict (three 0 0 0) (.fadd false (.mem 2 .b4) (.reg 24 .b4)) = .admitted ∧
    (moveParts (.fadd false (.mem 2 .b4) (.reg 24 .b4))).isSome = false ∧ AllAccess (three 0 0 0) [] ∧
    (three 0 0 0).access 2 .b4 .read = .error (.refuse .misaligned) ∧
    (withImpl (three 0 0 0) { Impl.default with addrWidth := 4 }).access 16 .b4 .read = .error (.raise .pf) :=
  ⟨rfl, ⟨rfl, by decide, by decide⟩, by decide, rfl, fun _ _ _ h => by simp at h, by decide, by decide⟩

/-- Two stretches of virtual memory, the second readable only. -/
def paged : State :=
  withImpl (three 0 0 0) { Impl.default with
    translation := .ranges 48 [⟨0, 16, 64, true, true, true, true⟩, ⟨16, 16, 128, true, false, true, false⟩] }

/-- Program text in the bytes 4 to 7. -/
def withText : State := withImpl (three 0 0 0) { Impl.default with textBase := 4, textLen := 4 }

theorem witness_AccessOutcomes :
    (12#64).toNat % OpSize.b4.bytes = 0 ∧ (13#64).toNat % OpSize.b4.bytes ≠ 0 ∧
    (three 0 0 0).impl.translation = .flat ∧ (three 0 0 0).impl.alignment = .naturalOnly ∧
    (withImpl (three 0 0 0) { Impl.default with translation := .ranges 16 [] }).impl.translation = .ranges 16 [] ∧
    (12#64).toNat + OpSize.b4.bytes ≤ 16 ∧ 15 < (12#64).toNat + OpSize.b4.bytes ∧
    (withImpl (three 0 0 0) { Impl.default with alignment := .anyAddress }).access 13 .b4 .read = .ok 13 ∧
    (withImpl (three 0 0 0) { Impl.default with alignment := .traps .prot }).access 13 .b4 .read =
      .error (.raise .prot) ∧
    (withImpl (three 0 0 0) { Impl.default with alignment := .platform }).impl.alignment = .platform ∧
    paged.access 28 .b4 .read = .ok 140 ∧ paged.access 28 .b4 .write = .error (.raise .pf) ∧
    paged.access 14 .b2 .write = .ok 78 ∧
    withText.access 0 .b8 .write = .ok 0 ∧ withText.access 0 .b4 .write = .ok 0 ∧ withText.access 8 .b4 .write = .ok 8 ∧
    withText.writeOp (.mem 0 .b8) 1 = .error (.refuse .storeIntoText) ∧
    arithParts (.fadd false (.mem 0 .b8) (.reg 24 .b8)) = some (false, .mem 0 .b8, [.reg 24 .b8]) ∧
    arithConstraint (.mem 0 .b8) [.reg 24 .b8] = .admitted ∧
    withText.readOps [.mem 0 .b8, .reg 24 .b8] = .ok [(binary64, 0), (binary64, 0)] := by decide

/-- Where there is no text, no store falls inside it (rule R48). -/
theorem test_empty_text : inText { Impl.default with textBase := 4, textLen := 0 } 0 8 = false := by decide

theorem witness_StoredBytePlacement : (7 : Nat) < 8 ∧ (8 : Nat) ≤ 8 := by decide

theorem witness_NarrowRegisterAccess :
    regClass Impl.default 19 ≠ .flags ∧ regClass Impl.default 19 ≠ .ip ∧ regClass Impl.default 24 ≠ .flags ∧
    regClass Impl.default 31 ≠ .ip ∧ regClass Impl.default 0 ≠ .flags ∧ regClass Impl.default 0 ≠ .ip := by decide

theorem witness_FlagsBit17FollowsFpen :
    step (at0 (three 0 0 0) ⟨0x1300#16, []⟩) = .next (at0 (three 0 0 0) ⟨0x1300#16, []⟩).advance := rfl

theorem witness_RoundIntModes : (0 : Rat) ≤ 5 / 2 := by decide +kernel

theorem witness_EncodingInvertsDecoding :
    isFormat binary32 ∧ (0x7F800001#64).toNat < 2 ^ binary32.width ∧
    decodeFp binary32 0xBFC00000 = .fin true (3 / 2) ∧ decodeFp binary32 0x80000000 = .fin true 0 ∧
    decodeFp binary32 0xFF800000 = .inf true ∧ decodeFp binary32 0x7F800001 = .nan false 1 :=
  ⟨.inr (.inl rfl), by decide, by decide +kernel, by decide +kernel, by decide +kernel, by decide +kernel⟩

theorem witness_DeliveryIsCorrectlyRounded :
    isFormat binary16 ∧ (0 : Rat) < minSub binary16 ∧ leastKept binary16 true ≤ minSub binary16 ∧
    leastKept binary16 false ≤ maxFinite binary16 ∧ minSub binary16 ≤ maxFinite binary16 :=
  ⟨.inl rfl, by decide +kernel, by decide +kernel, by decide +kernel, by decide +kernel⟩

theorem witness_OverflowAndUnderflow :
    isFormat binary16 ∧ maxFinite binary16 < 65505 ∧ (0 : Rat) < minSub binary16 / 2 ∧
    minSub binary16 / 2 < minSub binary16 ∧ minSub binary16 < minNorm binary16 :=
  ⟨.inl rfl, by decide +kernel, by decide +kernel, by decide +kernel, by decide +kernel⟩

theorem witness_DeliveryByIntermediateFormat :
    binary64 ≠ binary32 ∧ binary16 ≠ binary32 ∧
    (∃ b e, roundFp .exactValue false (1 / 3) binary64 .halfEven true = (b, e) ∧
      ∃ m, decodeFp binary64 b = .fin false m ∧ m ≠ 0) ∧
    (∃ b e, roundFp .exactValue false (1 / 2 ^ 30) binary16 .halfEven true = (b, e) ∧
      decodeFp binary16 b = .fin false 0) ∧
    (∃ b e, roundFp .exactValue false (2 ^ 20) binary16 .halfEven true = (b, e) ∧ decodeFp binary16 b = .inf false) ∧
    [Operand.reg 24 .b4] ≠ [] ∧ Impl.default.intermediate = [] :=
  ⟨by decide, by decide, ⟨_, _, rfl, 6004799503160661 * pow2 (-54), by decide +kernel, by decide +kernel⟩,
    ⟨_, _, rfl, by decide +kernel⟩, ⟨_, _, rfl, by decide +kernel⟩, by decide, rfl⟩

theorem witness_RangeReadingsAgree :
    isFormat binary16 ∧ leastKept binary16 false ≤ minNorm binary16 ∧ minNorm binary16 ≤ maxFinite binary16 ∧
    pow2 ((binary16.bias : Int) + 1) ≤ 65536 :=
  ⟨.inl rfl, by decide +kernel, by decide +kernel, by decide +kernel⟩

theorem witness_ProducedNaNs : isFormat binary64 ∧ (decodeFp binary64 0).isNaN = false :=
  ⟨.inr (.inr rfl), by decide +kernel⟩

theorem witness_StoredIntegers : OpSize.b1.minInt ≤ -128 ∧ (-128 : Int) ≤ OpSize.b1.maxInt ∧
    (127 : Int) ≤ OpSize.b1.maxInt := by decide

theorem witness_IntegerConversionValues :
    decodeFp binary32 0x7FC00001 = .nan false 0x400001 ∧ decodeFp binary32 0xFF800000 = .inf true ∧
    decodeFp binary32 0x43000000 = .fin false 128 ∧ decodeFp binary32 0xC3000000 = .fin true 128 ∧
    decodeFp binary32 0x00000000 = .fin false 0 :=
  ⟨by decide +kernel, by decide +kernel, by decide +kernel, by decide +kernel, by decide +kernel⟩

theorem witness_ExceptBitsAreSticky :
    exec .fraiseexcept (withWord (three 0 0 0) 0x01FFFF14) =
      .next ((withWord (three 0 0 0) 0x01FFFF14).raise .und) ∧
    exec .fraiseexcept (withWord (three 0 0 0) 0x01FF3F14) =
      .next ((withWord (three 0 0 0) 0x01FF3F14).advance) ∧
    (withWord (three 0 0 0) 0x01FFFF14).fpcrw.getLsbD 8 = true ∧
    (withWord (three 0 0 0) 0x01FFFF14).fpcrw.getLsbD 15 = true ∧
    (after (execBase .mov [.reg 24 .b8, .reg 19 .b8] (three 1 2 3))).isSome = true ∧
    Operand.reg 19 .b8 ∉ baseDestinations .mov [.reg 24 .b8, .reg 19 .b8] ∧
    (three 0 0 0).finish [.inexact] (fun u => .ok u) = .ok ((three 0 0 0).record [.inexact]).advance ∧
    FpExc.inexact ∈ [FpExc.inexact] :=
  ⟨rfl, rfl, by decide, by decide, rfl, by decide, rfl, by decide⟩

theorem witness_RaisingFpExceptions :
    (three 0 0 0).masked .inexact = true ∧ (withWord (three 0 0 0) 0x4).masked .inexact = false ∧
    (withWord (three 0 0 0) 0x4).finish [.overflow, .inexact] (fun u => .ok u) =
      .ok (((withWord (three 0 0 0) 0x4).record [.overflow, .inexact]).raise .prot) ∧
    ((withWord (three 0 0 0) 0x4).setFpexcpt true).cr0.getLsbD 7 = true :=
  ⟨by decide, by decide, rfl, by decide⟩

theorem witness_ExceptionTable :
    seen (exec (.round false (.reg 24 .b4)) (three 0xC0200000 0 0)) = some (0xC0000000, 0, true, false) ∧
    FpExc.inexact ∈ neverCauses (three 0 0 0).impl (.round false (.reg 24 .b4)) ∧
    moveParts (.round false (.reg 24 .b4)) = none ∧
    seen (exec (.movsif false (.reg 24 .b4) (.reg 3 .b4)) (withGpr3 (three 0 0 0) 0x01000001)) =
      some (0x4B800000, 16, false, false) ∧
    FpExc.signal ∈ neverCauses (three 0 0 0).impl (.movsif false (.reg 24 .b4) (.reg 3 .b4)) ∧
    seen (exec (.frem false (.reg 24 .b4) (.reg 25 .b4)) (three 0x40A00000 0x40400000 0)) =
      some (0x40000000, 0, false, false) ∧
    FpExc.overflow ∈ neverCauses (three 0 0 0).impl (.frem false (.reg 24 .b4) (.reg 25 .b4)) :=
  ⟨by decide +kernel, by decide, rfl, by decide +kernel, by decide, by decide +kernel, by decide⟩

theorem witness_TrapsArePrecise :
    (three 0 0 0).trapped = none ∧ (three 0 0 0).impl.trapWritesResult = false ∧
    exec .fraiseexcept (three 0 0 0) = .next (three 0 0 0).advance ∧
    exec .fraiseexcept (withWord (three 0 0 0) 0x4014) = .next ((withWord (three 0 0 0) 0x4014).raise .und) :=
  ⟨rfl, rfl, rfl, rfl⟩

theorem witness_TriggersAsSpecified :
    (three 0 0 0).fpen = true ∧ State.reset.fpen = false ∧
    (withWord (three 0 0 0) 0x8014).fpcrw.getLsbD 15 = true ∧
    ((withWord (three 0 0 0) 0x2014).fpcrw.getLsbD 24 = false ∧
      (withWord (three 0 0 0) 0x2014).fpcrw.getLsbD (8 + 5) = true ∧
      (withWord (three 0 0 0) 0x2014).fpcrw.getLsbD (16 + 5) = false) ∧
    (three 0 0 0).fpcrw.getLsbD 24 = true ∧
    ∀ n, n ≤ 5 → (three 0 0 0).fpcrw.getLsbD (8 + n) = true → (three 0 0 0).fpcrw.getLsbD (16 + n) = true := by decide

/-! Unmasked exceptions trap, with the `EXCEPT` bits set and nothing else written (rules R172 to R174). -/

/-- Everything unmasked, round half to even, denormals on. -/
def unmasked (a b c : Word) : State := withWord (three a b c) 0x14

theorem test_fadd_traps_inexact :
    (after (exec (.fadd false (.reg 24 .b8) (.reg 25 .b8)) (unmasked 0x3FB999999999999A 0x3FC999999999999A 0))) =
      some { unmasked 0x3FB999999999999A 0x3FC999999999999A 0 with fpcrw := 0x1014, trapped := some .prot } := by
  decide +kernel

theorem test_fcmpz_traps_signal :
    (after (exec (.fcmpz (.reg 24 .b4)) ((unmasked 0x7F800001 0 0).setFpexcpt true))) =
      some { (unmasked 0x7F800001 0 0).setFpexcpt true with fpcrw := 0x2014, trapped := some .fpe } := by
  decide +kernel

theorem witness_ResultFlags :
    decodeFp binary32 0x80000000 = .fin true 0 ∧ decodeFp binary32 0x00000001 ≠ .fin false 0 ∧
    decodeFp binary32 0xFF800000 = .inf true ∧ decodeFp binary32 0x7F800001 = .nan false 1 ∧
    (three 0 0 0).impl.parity = .oddOnes ∧ OpSize.b1.minInt ≤ -128 ∧ (-128 : Int) ≤ OpSize.b1.maxInt :=
  ⟨by decide +kernel, by decide +kernel, by decide +kernel, by decide +kernel, rfl, by decide, by decide⟩

/-! Conditions of the instructions with results, on operands of any value. -/

/-- At startup every floating-point exception is masked. -/
theorem masked_three (a b c : Word) (x : FpExc) : (three a b c).masked x = true := by
  have h : startupFpcrw.getLsbD 24 = true := by decide
  change (startupFpcrw.getLsbD 24 || _) = true
  rw [h, Bool.true_or]

/-- What a statement by `EndsIn` asks: an exception set that is all masked, and one that is not. -/
theorem witness_EndsIn : AllMasked (three 0 0 0) [.inexact] ∧ ¬ AllMasked (unmasked 0 0 0) [.inexact] :=
  ⟨fun _ _ => masked_three 0 0 0 _, fun h => absurd (h .inexact (by simp)) (by decide)⟩

theorem mode_three (a b c : Word) : RoundMode.ofRnd (three a b c).rnd = some .halfEven :=
  (by decide : RoundMode.ofRnd (startupFpcrw.toNat % 8) = some .halfEven)

theorem ready_one (a b c : Word) :
    ArithReady (three a b c) (.reg 24 .b4) [] [(binary32, OpSize.b4.truncate a)] :=
  ⟨enabled_three a b c _ (by decide), by decide, rfl, trivial⟩

theorem ready_two (a b c : Word) :
    ArithReady (three a b c) (.reg 24 .b4) [.reg 25 .b4]
      [(binary32, OpSize.b4.truncate a), (binary32, OpSize.b4.truncate b)] :=
  ⟨enabled_three a b c _ (by decide), by decide, rfl, trivial⟩

theorem ready_three (a b c : Word) :
    ArithReady (three a b c) (.reg 24 .b4) [.reg 25 .b4, .reg 26 .b4]
      [(binary32, OpSize.b4.truncate a), (binary32, OpSize.b4.truncate b), (binary32, OpSize.b4.truncate c)] :=
  ⟨enabled_three a b c _ (by decide), by decide, rfl, trivial⟩

/-- The values of binary32 operands. -/
def vals (l : List Word) : List FpVal := operandValues (l.map (fun a => (binary32, OpSize.b4.truncate a)))

theorem witness_IntegerToFloat :
    MoveReady (three 0 0 0) (.movsif false (.reg 24 .b4) (.reg 3 .b8)) (.reg 24 .b4) (.reg 3 .b8) 0 ∧
    MoveReady (three 0 0 0) (.movxf 2 true false (.reg 24 .b4) (.reg 3 .b8)) (.reg 24 .b4) (.reg 3 .b8) 0 ∧
    RoundMode.ofRnd (three 0 0 0).rnd = some .halfEven ∧ ∀ x, (three 0 0 0).masked x = true :=
  ⟨⟨enabled_three _ _ _ _ (by decide), .inl rfl, by decide, rfl, trivial⟩,
    ⟨enabled_three _ _ _ _ (by decide), .inl rfl,
      (by decide : toFpConstraint (three 0 0 0) (.reg 24 .b4) (.reg 3 .b8) = .admitted), rfl, trivial⟩,
    mode_three 0 0 0, masked_three 0 0 0⟩

theorem witness_FloatToInteger :
    MoveReady (three 0 0 0) (.movfsi false (.mem 5 .b1) (.reg 24 .b4)) (.mem 5 .b1) (.reg 24 .b4) 0 ∧
    ∀ x, (three 0 0 0).masked x = true :=
  ⟨⟨enabled_three _ _ _ _ (by decide), .inl rfl, by decide, rfl, 5, by decide, by decide⟩, masked_three 0 0 0⟩

theorem witness_FloatToFixed :
    MoveReady (three 0 0 0) (.movfx 2 true false (.reg 19 .b8) (.reg 24 .b4)) (.reg 19 .b8) (.reg 24 .b4) 0 ∧
    RoundMode.ofRnd (three 0 0 0).rnd = some .halfEven ∧ ∀ x, (three 0 0 0).masked x = true :=
  ⟨⟨enabled_three _ _ _ _ (by decide), .inl rfl,
      (by decide : fromFpConstraint (three 0 0 0) (.reg 19 .b8) (.reg 24 .b4) = .admitted), rfl, trivial⟩,
    mode_three 0 0 0, masked_three 0 0 0⟩

theorem witness_FloatToFloat :
    MoveReady (three 0 0x7F800001 0) (.cvtf false (.reg 24 .b8) (.reg 25 .b4)) (.reg 24 .b8) (.reg 25 .b4)
      0x7F800001 ∧
    RoundMode.ofRnd (three 0 0 0).rnd = some .halfEven ∧
    vals [0x80000000, 0x7F800000, 0x7F800001] = [.fin true 0, .inf false, .nan false 1] :=
  ⟨⟨enabled_three _ _ _ _ (by decide), .inl rfl, by decide, rfl, trivial⟩, mode_three 0 0 0, by decide +kernel⟩

theorem witness_ArithmeticCompletes :
    ArithReady (three 0 0 0) (.mem 8 .b4) [.reg 24 .b2] [(binary32, 0), (binary16, 0)] ∧
    (three 0 0 0).rnd < 5 ∧ (∀ x, (three 0 0 0).masked x = true) ∧
    arithParts (.fmul false (.mem 8 .b4) (.reg 24 .b2)) = some (false, .mem 8 .b4, [.reg 24 .b2]) :=
  ⟨⟨enabled_three _ _ _ _ (by decide), by decide, rfl, 8, by decide, by decide⟩, by decide, masked_three 0 0 0, rfl⟩

theorem witness_IntegralRounding :
    ArithReady (three 0xBF000000 0 0) (.reg 24 .b4) [] [(binary32, 0xBF000000)] ∧
    vals [0xBF000000, 0x80000000, 0xFF800000] = [.fin true (1 / 2), .fin true 0, .inf true] :=
  ⟨ready_one _ 0 0, by decide +kernel⟩

theorem witness_AbsoluteValueAndNegation :
    ArithReady (three 0x807FFFFF 0 0) (.reg 24 .b4) [] [(binary32, 0x807FFFFF)] ∧
    (∃ m, vals [0x807FFFFF] = [.fin true m] ∧ 0 < m ∧ m < leastKept binary32 false) ∧
    (∃ m, vals [0x80800000] = [.fin true m] ∧ leastKept binary32 false ≤ m) ∧
    vals [0x00000000, 0x7F800000] = [.fin false 0, .inf false] :=
  ⟨ready_one _ 0 0, ⟨8388607 * pow2 (-149), by decide +kernel, by decide +kernel, by decide +kernel⟩,
    ⟨minNorm binary32, by decide +kernel, by decide +kernel⟩, by decide +kernel⟩

theorem witness_Inverse :
    ArithReady (three 0x80000000 0 0) (.reg 24 .b4) [] [(binary32, 0x80000000)] ∧
    RoundMode.ofRnd (three 0x80000000 0 0).rnd = some .halfEven ∧ (three 0 0 0).impl.divZero = .divByZero ∧
    (withImpl (three 0 0 0) { Impl.default with divZero := .invalid }).impl.divZero = .invalid ∧
    vals [0x80000000, 0x40800000, 0xFF800000] = [.fin true 0, .fin false 4, .inf true] :=
  ⟨ready_one _ 0 0, rfl, rfl, rfl, by decide +kernel⟩

theorem witness_SumAndDifference :
    (∀ a b, ArithReady (three a b 0) (.reg 24 .b4) [.reg 25 .b4]
      [(binary32, OpSize.b4.truncate a), (binary32, OpSize.b4.truncate b)]) ∧
    (∀ a b, RoundMode.ofRnd (three a b 0).rnd = some .halfEven) ∧
    vals [0x3F800000, 0xBF800000] = [.fin false 1, .fin true 1] ∧
    vals [0x3F800000, 0x40000000] = [.fin false 1, .fin false 2] ∧
    vals [0x7F800000, 0xFF800000] = [.inf false, .inf true] ∧
    vals [0x7F800000, 0x00000000] = [.inf false, .fin false 0] :=
  ⟨fun a b => ready_two a b 0, fun a b => mode_three a b 0, by decide +kernel, by decide +kernel, by decide +kernel,
    by decide +kernel⟩

theorem witness_Product :
    (∀ a b, ArithReady (three a b 0) (.reg 24 .b4) [.reg 25 .b4]
      [(binary32, OpSize.b4.truncate a), (binary32, OpSize.b4.truncate b)]) ∧
    vals [0x40400000, 0xC0000000] = [.fin false 3, .fin true 2] ∧ vals [0x80000000, 0x40000000] = [.fin true 0, .fin false 2] ∧
    vals [0x7F800000, 0xC0000000] = [.inf false, .fin true 2] ∧ InfiniteProduct true (.inf false) (.fin true 2) :=
  ⟨fun a b => ready_two a b 0, by decide +kernel, by decide +kernel, by decide +kernel, by norm_num, rfl⟩

theorem witness_Quotient :
    (∀ a b, ArithReady (three a b 0) (.reg 24 .b4) [.reg 25 .b4]
      [(binary32, OpSize.b4.truncate a), (binary32, OpSize.b4.truncate b)]) ∧
    vals [0x3F800000, 0x40400000] = [.fin false 1, .fin false 3] ∧
    vals [0x00000000, 0x40400000] = [.fin false 0, .fin false 3] ∧
    vals [0x3F800000, 0x80000000] = [.fin false 1, .fin true 0] ∧
    vals [0x7F800000, 0x80000000] = [.inf false, .fin true 0] ∧ vals [0x3F800000, 0x7F800000] = [.fin false 1, .inf false] :=
  ⟨fun a b => ready_two a b 0, by decide +kernel, by decide +kernel, by decide +kernel, by decide +kernel,
    by decide +kernel⟩

theorem witness_Remainder :
    (∀ a b, ArithReady (three a b 0) (.reg 24 .b4) [.reg 25 .b4]
      [(binary32, OpSize.b4.truncate a), (binary32, OpSize.b4.truncate b)]) ∧
    vals [0x40A00000, 0x40400000] = [.fin false 5, .fin false 3] ∧
    roundInt (5 / 3) false .towardZero = 1 ∧ roundInt (5 / 3) false .halfEven = 2 ∧
    vals [0x41000000, 0x40800000] = [.fin false 8, .fin false 4] ∧ roundInt (8 / 4) false .towardZero = 2 ∧
    vals [0x3F800000, 0x7F800000] = [.fin false 1, .inf false] ∧ vals [0x80000000, 0x7F800000] = [.fin true 0, .inf false] ∧
    (three 0 0 0).impl.fremKind = .truncating ∧
    (withImpl (three 0 0 0) { Impl.default with fremKind := .nearestEven }).impl.fremKind = .nearestEven :=
  ⟨fun a b => ready_two a b 0, by decide +kernel, by decide +kernel, by decide +kernel, by decide +kernel,
    by decide +kernel, by decide +kernel, by decide +kernel, rfl, rfl⟩

theorem witness_FusedMultiplyAdd :
    (∀ a b c, ArithReady (three a b c) (.reg 24 .b4) [.reg 25 .b4, .reg 26 .b4]
      [(binary32, OpSize.b4.truncate a), (binary32, OpSize.b4.truncate b), (binary32, OpSize.b4.truncate c)]) ∧
    vals [0x40000000, 0x40400000, 0x3F800000] = [.fin false 2, .fin false 3, .fin false 1] ∧
    vals [0x40000000, 0x40400000, 0xC0C00000] = [.fin false 2, .fin false 3, .fin true 6] ∧
    vals [0x40000000, 0x00000000, 0x7F800000] = [.fin false 2, .fin false 0, .inf false] ∧
    vals [0x7F800000, 0x40000000, 0x7F800000] = [.inf false, .fin false 2, .inf false] ∧
    InfiniteProduct false (.inf false) (.fin false 2) ∧ FpVal.inf false ≠ .inf (!false) :=
  ⟨ready_three, by decide +kernel, by decide +kernel, by decide +kernel, by decide +kernel, ⟨by norm_num, rfl⟩,
    by decide⟩

theorem witness_ArithmeticOnNaN :
    ArithReady (three 0xFF800001 0 0) (.reg 24 .b4) [] [(binary32, 0xFF800001)] ∧ (three 0 0 0).rnd < 5 ∧
    vals [0xFF800001] = [.nan true 1] ∧ FpVal.isNaN (.nan true 1) = true ∧
    arithParts (.fabs false (.reg 24 .b4)) = some (false, .reg 24 .b4, []) ∧
    (three 0xFF800001 0 0).masked .signal = true :=
  ⟨ready_one _ 0 0, by decide, by decide +kernel, rfl, rfl, rfl⟩

theorem witness_InvalidOperations :
    (∀ a b, ArithReady (three a b 0) (.reg 24 .b4) [.reg 25 .b4]
      [(binary32, OpSize.b4.truncate a), (binary32, OpSize.b4.truncate b)]) ∧ (three 0 0 0).rnd < 5 ∧
    InvalidOperands (.fmul false (.reg 24 .b4) (.reg 25 .b4)) (vals [0x00000000, 0x7F800000]) ∧
    InvalidOperands (.fadd false (.reg 24 .b4) (.reg 25 .b4)) (vals [0x7F800000, 0xFF800000]) ∧
    InvalidOperands (.frem false (.reg 24 .b4) (.reg 25 .b4)) (vals [0x3F800000, 0x80000000]) := by
  have h1 : vals [0x00000000, 0x7F800000] = [.fin false 0, .inf false] := by decide +kernel
  have h2 : vals [0x7F800000, 0xFF800000] = [.inf false, .inf true] := by decide +kernel
  have h3 : vals [0x3F800000, 0x80000000] = [.fin false 1, .fin true 0] := by decide +kernel
  rw [h1, h2, h3]
  exact ⟨fun a b => ready_two a b 0, by decide, rfl, Bool.noConfusion, rfl⟩

theorem witness_Comparisons :
    Enabled (three 0x7F800001 0 0) [.reg 24 .b4, .imm 0 .b8 true] ∧
    fcmpzConstraint (.reg 24 .b4) = .admitted ∧ fcmpConstraint (.reg 24 .b4) (.imm 0 .b8 true) = .admitted ∧
    (three 0x7F800001 0 0).readOp (.reg 24 .b4) = .ok 0x7F800001 ∧
    (three 0x7F800001 0 0).readOp (.imm 0 .b8 true) = .ok 0 ∧ (three 0x7F800001 0 0).masked .signal = true :=
  ⟨enabled_three _ _ _ _ (by decide), by decide, by decide, rfl, rfl, rfl⟩

theorem witness_ArithmeticFrame :
    arithParts (.fneg true (.reg 24 .b4)) = some (true, .reg 24 .b4, []) ∧
    (after (exec (.fneg true (.reg 24 .b4)) (three 0x3F800000 0 0))).isSome = true ∧
    (three 0 0 0).access 8 .b4 .write = .ok 8 ∧ (three 0 0 0).access 9 .b4 .write = .error (.refuse .misaligned) :=
  ⟨rfl, by decide +kernel, by decide, by decide⟩

theorem witness_ConvertingMoveFrame :
    moveParts (.movfsi true (.reg 3 .b8) (.reg 24 .b4)) = some (true, .reg 3 .b8, .reg 24 .b4) ∧
    (after (exec (.movfsi true (.reg 3 .b8) (.reg 24 .b4)) (three 0x3F800000 0 0))).isSome = true :=
  ⟨rfl, by decide +kernel⟩

theorem witness_ComparisonAndTriggerFrame :
    (after (exec (.fcmpz (.reg 24 .b4)) (three 0x3F800000 0 0))).isSome = true ∧
    exec .ftriggerexcept (three 0 0 0) = .next (three 0 0 0).advance := ⟨by decide +kernel, rfl⟩

theorem witness_BaseMovesAreBitwise :
    BaseReady (three 0 0 0) [.reg 24 .b8, .mem 8 .b4] ∧ baseDestination (three 0 0 0).impl (.reg 24 .b8) = true ∧
    (three 0 0 0).readOp (.mem 8 .b4) = .ok 0 ∧ Writable (three 0 0 0) (.reg 24 .b8) ∧
    isFlagsReg (three 0 0 0).impl (.reg 17 .b8) = true ∧ isFlagsReg (three 0 0 0).impl (.reg 24 .b8) = false ∧
    State.reset.fpen = false ∧ Operand.reg 19 .b8 ∈ [Operand.reg 0 .b8, .reg 19 .b8] :=
  ⟨⟨by decide, .inl rfl⟩, by decide, by decide, trivial, by decide, by decide, by decide, by decide⟩

/-- The example of rule R71: the binary32 signalling NaN is moved as it is. -/
theorem test_mov_signalling_nan :
    (after (execBase .mov [.reg 24 .b4, .reg 25 .b4] (three 0 0x7FA00000 0))).map (fun t => (t.f[0], t.fpcrw)) =
      some (0x7FA00000, 0x01FF0014) := rfl

/-- Rule R71 (b): `+0.0` and `-0.0` differ, and the patterns of two negative values stand in the reverse of their numeric order. -/
theorem test_cmp_orders_patterns :
    (after (execBase .cmp [.reg 24 .b4, .reg 25 .b4] (three 0 0x80000000 0))).map
      (fun t => (t.flags.z, xor t.flags.n t.flags.v)) = some (false, false) ∧
    (after (execBase .cmp [.reg 24 .b4, .reg 25 .b4] (three 0xBF800000 0xC0000000 0))).map
      (fun t => (t.flags.z, xor t.flags.n t.flags.v)) = some (false, true) := ⟨rfl, rfl⟩

theorem test_xchg_memory :
    (after (execBase .xchg [.reg 24 .b8, .mem 8 .b8] (three 5 0 0))).map (fun t => (t.f[0], t.readOp (.mem 8 .b8))) =
      some (0, .ok 5) := rfl

theorem test_cmpxchg :
    (after (execBase .cmpxchg [.reg 24 .b8, .reg 25 .b8, .reg 26 .b8] (three 1 1 3))).map (fun t => t.f.toList) =
      some [3, 1, 3, 0, 0, 0, 0, 0] ∧
    (after (execBase .cmpxchg [.reg 24 .b8, .reg 25 .b8, .reg 26 .b8] (three 1 2 3))).map (fun t => t.f.toList) =
      some [1, 1, 3, 0, 0, 0, 0, 0] := by decide +kernel

/-- A narrower destination takes the low bits, and `flags` as an operand holds what was written, `XM` (position 16) included. -/
theorem test_xchg_unequal_and_flags :
    (after (execBase .xchg [.reg 24 .b2, .reg 25 .b8] (three 5 0x12345 0))).map (fun t => t.f[0]) = some 0x2345 ∧
    (after (execBase .xchg [.reg 17 .b8, .reg 24 .b8] (three 0x10002 0 0))).map
      (fun t => (t.flags.xm, t.flags.z, t.flags.n)) = some (true, true, false) := by decide +kernel

theorem witness_BaseComparesAndExchanges :
    BaseReady (three 1 1 3) [.reg 24 .b8, .mem 8 .b4, .reg 17 .b8, .reg 25 .b8] ∧
    (∀ o, o ∈ [Operand.reg 24 .b8, .mem 8 .b4, .reg 17 .b8] → baseDestination (three 1 1 3).impl o = true) ∧
    isFlagsReg (three 1 1 3).impl (.mem 8 .b4) = false ∧ isFlagsReg (three 1 1 3).impl (.reg 17 .b8) = true ∧
    (three 1 1 3).readOp (.mem 8 .b4) = .ok 0 ∧ (three 1 1 3).readOp (.reg 17 .b8) = .ok 0x20000 ∧
    (three 1 1 3).readOp (.reg 24 .b8) = .ok 1 ∧ (three 1 1 3).readOp (.reg 25 .b8) = .ok 1 ∧
    widen .b8 .b8 0x20000 ≠ widen .b8 .b8 1 ∧
    Writable (three 1 1 3) (.reg 17 .b8) ∧ Writable (three 1 1 3) (.mem 8 .b4) :=
  ⟨⟨by decide, .inl rfl⟩, by decide, by decide, by decide, by decide, rfl, rfl, rfl, by decide, trivial,
    ⟨8, by decide, by decide⟩⟩

theorem witness_ReservedRoundingIsRefused :
    5 ≤ (withWord (three 0 0 0) 0x01FF0015).rnd ∧ roundsByRnd (.finv false (.reg 24 .b4)) = true ∧
    Enabled (withWord (three 0 0 0) 0x01FF0015) [.reg 24 .b4] ∧
    operandVerdict (withWord (three 0 0 0) 0x01FF0015) (.finv false (.reg 24 .b4)) = .admitted ∧
    AllAccess (withWord (three 0 0 0) 0x01FF0015) [(.reg 24 .b4, [.read, .write])] :=
  ⟨by decide, rfl, ⟨rfl, by decide, by decide⟩, by decide, fun _ _ _ h => by simp at h⟩

end Sys2Proof.Tests
end

section
/-! The invariant of `Sys2Proof/Safety.lean` and the common checks: startup meets the invariant, every step keeps it, and
a disabled extension or the reserved `XOPSS` raises UND. What a step can do is said once, by the `_cases` lemmas of the
first part; the second part keeps the invariant through each thing they name. -/

namespace Sys2Proof.Machine

/-! What a step can do. -/

/-- The ways an instruction of the extension commits its result: a floating-point pattern of a converting move, an
integer, a pattern of an arithmetic instruction, or the outcome of a comparison. -/
inductive IsCommit : (State → Except Stop State) → Prop where
  | fp (f : Bool) (d : Operand) (b : Word) : IsCommit (commitFp f d b)
  | int (f : Bool) (d : Operand) (r : Int) : IsCommit (commitInt f d r)
  | arith (f : Bool) (d : Operand) (b : Word) : IsCommit (commitArith f d b)
  | cmp (o : CmpOutcome) : IsCommit (commitCmp o)

/-- Every instruction is a converting move, an arithmetic instruction, a comparison or a trigger (rule R52). -/
theorem instr_families (i : Instr) :
    (∃ f d src, moveParts i = some (f, d, src)) ∨ (∃ f d others, arithParts i = some (f, d, others)) ∨
    (∃ a, i = .fcmpz a) ∨ (∃ a b, i = .fcmp a b) ∨ i = .fraiseexcept ∨ i = .ftriggerexcept := by
  cases i <;> simp [moveParts, arithParts]

/-- What an instruction of the extension can do when it has a next state: raise, go on without a result (a trigger), or
end an operation by one of the four commits. -/
theorem exec_cases {i : Instr} {s t : State} (h : exec i s = .next t) :
    (∃ x, t = s.raise x) ∨ t = s.advance ∨ ∃ e commit, IsCommit commit ∧ s.finish e commit = .ok t := by
  rcases instr_families i with
    ⟨f, d, src, hi⟩ | ⟨f, d, others, hi⟩ | ⟨a, rfl⟩ | ⟨a, b, rfl⟩ | rfl | rfl
  · rcases move_cases hi h with hx | ⟨_, ⟨b, e, hf⟩ | ⟨r, e, hf⟩⟩
    · exact .inl hx
    · exact .inr (.inr ⟨e, _, .fp f d b, hf⟩)
    · exact .inr (.inr ⟨e, _, .int f d r, hf⟩)
  · rcases arithmetic_cases hi h with hx | ⟨_, b, e, hf⟩
    · exact .inl hx
    · exact .inr (.inr ⟨e, _, .arith f d b, hf⟩)
  · rcases fcmpz_cases h with hx | ⟨o, e, hf⟩
    · exact .inl hx
    · exact .inr (.inr ⟨e, _, .cmp o, hf⟩)
  · rcases fcmp_cases h with hx | ⟨o, e, hf⟩
    · exact .inl hx
    · exact .inr (.inr ⟨e, _, .cmp o, hf⟩)
  · exact (triggerExcept_cases h).imp_right .inl
  · exact (triggerExcept_cases h).imp_right .inl

/-- What a base instruction can do when it has a next state: raise, or make its writes and set condition flags at
most (rule R71). -/
theorem execBase_cases {m : BaseMnemonic} {operands : List Operand} {s t : State}
    (h : execBase m operands s = .next t) :
    (∃ x, t = s.raise x) ∨
      ∃ writes u, s.writeAll writes = .ok u ∧ (t = u.advance ∨ ∃ k, t = (u.setCond k).advance) := by
  have settled : ∀ {accesses effect cond}, s.settle (baseRun m accesses effect cond s) = .next t →
      (∃ x, t = s.raise x) ∨
        ∃ writes u, s.writeAll writes = .ok u ∧ (t = u.advance ∨ ∃ k, t = (u.setCond k).advance) := by
    intro accesses effect cond h
    rcases settle_next h with hr | ⟨x, _, hx⟩
    · obtain ⟨ws, u, hu, ht⟩ := baseRun_cases hr
      exact .inr ⟨_, u, hu, ht⟩
    · exact .inl ⟨x, hx⟩
  unfold execBase at h
  split at h
  · exact .inl ⟨.und, (Host.Outcome.next.inj h).symm⟩
  · split at h
    all_goals first | exact settled h | cases h

/-- An entry that the decoder rejects has a next state only by raising UND (rules R57, R70). -/
theorem rejected_cases {s t : State} {operands : List RawOperand} {err : DecodeError}
    (h : rejected s operands err = .next t) : t = s.raise .und := by
  cases err <;> simp only [rejected, refusedForm] at h
  case undefinedOpcode => cases h; rfl
  all_goals
    split at h
    all_goals cases h
    rfl

/-- What a step that has a next state did: raise UND on a rejected entry, run an instruction of the extension, or run a
base instruction. -/
theorem step_cases {s t : State} (h : step s = .next t) :
    t = s.raise .und ∨ (∃ i, exec i s = .next t) ∨ ∃ m operands, execBase m operands s = .next t := by
  unfold step stepOnce at h
  split at h
  · cases h
  split at h
  · cases h
  unfold runEntry at h
  split at h
  · split at h
    · exact .inr (.inl ⟨_, h⟩)
    · exact .inl (rejected_cases h)
  · exact .inr (.inr ⟨_, _, h⟩)

/-! What keeps the invariant. -/

/-- The invariant speaks of memory, the general registers, `cpuex2` and the parameters only. -/
theorem inv_congr {s t : State} (hm : t.mem = s.mem) (hg : t.gpr = s.gpr) (hc : t.cpuex2 = s.cpuex2)
    (hi : t.impl = s.impl) : t.Inv ↔ s.Inv := by
  simp only [State.Inv, memInSpace, State.conforms, hm, hg, hc, hi]

@[simp] theorem raise_inv (s : State) (x : Trap) : (s.raise x).Inv ↔ s.Inv := inv_congr rfl rfl rfl rfl
@[simp] theorem record_inv (s : State) (e : List FpExc) : (s.record e).Inv ↔ s.Inv := inv_congr rfl rfl rfl rfl
@[simp] theorem advance_inv (s : State) : s.advance.Inv ↔ s.Inv := inv_congr rfl rfl rfl rfl
@[simp] theorem setCond_inv (s : State) (k : CondFlags) : (s.setCond k).Inv ↔ s.Inv := inv_congr rfl rfl rfl rfl
@[simp] theorem setFlagsNZ_inv (s : State) (F : Format) (b : Word) : (s.setFlagsNZ F b).Inv ↔ s.Inv :=
  inv_congr rfl rfl rfl rfl
@[simp] theorem setFlagsNZP_inv (s : State) (F : Format) (b : Word) : (s.setFlagsNZP F b).Inv ↔ s.Inv :=
  inv_congr rfl rfl rfl rfl
@[simp] theorem setFlagsInt_inv (s : State) (r : Int) : (s.setFlagsInt r).Inv ↔ s.Inv := inv_congr rfl rfl rfl rfl
@[simp] theorem setFlagsCmp_inv (s : State) (o : CmpOutcome) : (s.setFlagsCmp o).Inv ↔ s.Inv :=
  inv_congr rfl rfl rfl rfl

theorem unlessF_inv {s t : State} (f : Bool) (hs : s.Inv) (ht : t.Inv) : (unlessF f s t).Inv := by
  cases f
  · exact ht
  · exact hs

/-- A register write keeps the invariant: the general registers stay canonical. -/
theorem writeReg_inv {s : State} (n : Nat) (v : Word) (h : s.Inv) : (s.writeReg n v).Inv := by
  rcases writeReg_cases s n v with ⟨_, e⟩ | ⟨k, _, e⟩ | ⟨_, e⟩ | ⟨_, e⟩ | ⟨_, e⟩ <;> rw [e]
  · exact h
  · exact h
  · exact h
  · exact h
  · obtain ⟨hmem, hgpr, hspace, hconf⟩ := h
    exact ⟨hmem, cellSet_wf _ _ _ hgpr, hspace, hconf⟩

/-- A store to bytes of the physical address space keeps the invariant. -/
theorem storeBytes_inv {s : State} (o : ByteOrder) {pa n : Nat} (v : Word) (h : s.Inv)
    (hpa : pa + n ≤ 2 ^ s.impl.addrWidth) : { s with mem := storeBytes o s.mem pa n v }.Inv := by
  obtain ⟨hmem, hgpr, hspace, hconf⟩ := h
  refine ⟨storeBytes_wf _ _ _ _ _ hmem, hgpr, ?_, hconf⟩
  simp only [memInSpace, List.all_eq_true, decide_eq_true_eq] at hspace ⊢
  intro c hc
  rcases storeBytes_mem _ _ _ _ _ c hc with hold | ⟨_, hlt⟩
  · exact hspace c hold
  · omega

theorem writeOp_inv {s t : State} {d : Operand} {v : Word} (h : s.Inv) (hw : s.writeOp d v = .ok t) : t.Inv := by
  rcases writeOp_cases hw with ⟨n, z, _, rfl⟩ | ⟨ea, z, pa, _, ha, _, rfl⟩
  · exact writeReg_inv n _ h
  · exact storeBytes_inv _ v h (access_inSpace ha)

theorem writeAll_inv {s t : State} {writes : List (Operand × Word)} (h : s.Inv) (hw : s.writeAll writes = .ok t) :
    t.Inv := by
  induction writes generalizing s with
  | nil => cases hw; exact h
  | cons x writes ih =>
    simp only [State.writeAll] at hw
    split at hw
    · cases hw
    · rename_i u hu
      exact ih (writeOp_inv h hu) hw

theorem commit_inv {commit : State → Except Stop State} {s t : State} (hc : IsCommit commit) (h : s.Inv)
    (ht : commit s = .ok t) : t.Inv := by
  cases hc with
  | fp f d b =>
    obtain ⟨u, hu, rfl⟩ := commitFp_cases ht
    have hu := writeOp_inv h hu
    exact unlessF_inv f hu (by simpa using hu)
  | int f d r =>
    obtain ⟨u, hu, rfl⟩ := commitInt_cases ht
    have hu := writeOp_inv h hu
    exact unlessF_inv f hu (by simpa using hu)
  | arith f d b =>
    obtain ⟨u, hu, rfl⟩ := commitArith_cases ht
    have hu := writeOp_inv h hu
    exact unlessF_inv f hu (by simpa using hu)
  | cmp o =>
    cases ht
    simpa using h

/-- The end of an operation keeps the invariant, whether it completes or traps, before its result is written or
after. -/
theorem finish_inv {commit : State → Except Stop State} {s t : State} {e : List FpExc} (hc : IsCommit commit)
    (h : s.Inv) (ht : s.finish e commit = .ok t) : t.Inv := by
  have hr : (s.record e).Inv := by simpa using h
  rcases finish_cases ht with ⟨_, u, hu, rfl⟩ | ⟨_, _, rfl⟩ | ⟨_, _, u, hu, rfl⟩
  · simpa using commit_inv hc hr hu
  · simpa using h
  · simpa using commit_inv hc hr hu

theorem exec_inv {i : Instr} {s t : State} (h : s.Inv) (ht : exec i s = .next t) : t.Inv := by
  rcases exec_cases ht with ⟨x, rfl⟩ | rfl | ⟨e, commit, hc, hf⟩
  · simpa using h
  · simpa using h
  · exact finish_inv hc h hf

theorem execBase_inv {m : BaseMnemonic} {operands : List Operand} {s t : State} (h : s.Inv)
    (ht : execBase m operands s = .next t) : t.Inv := by
  rcases execBase_cases ht with ⟨x, rfl⟩ | ⟨writes, u, hu, rfl | ⟨k, rfl⟩⟩
  · simpa using h
  · simpa using writeAll_inv h hu
  · simpa using writeAll_inv h hu

/-- Settles O11: a step raises, runs an instruction of the extension or runs a base instruction, and each of the three
keeps the invariant. -/
theorem stepKeepsInvariant : Obligations.StepKeepsInvariant := by
  intro s t h ht
  rcases step_cases ht with rfl | ⟨i, hi⟩ | ⟨m, operands, hb⟩
  · simpa using h
  · exact exec_inv h hi
  · exact execBase_inv h hb

/-- Settles O10: nothing is listed in memory or among the general registers, and bit 9 of `cpuex2` is set. -/
theorem resetMeetsInvariant : Obligations.ResetMeetsInvariant := by
  refine ⟨?_, ?_, ?_, ?_⟩
  · exact (cellsWf_iff _).2 ⟨.nil, nofun⟩
  · exact (cellsWf_iff _).2 ⟨.nil, nofun⟩
  · simp [memInSpace, State.reset]
  · decide

/-! The checks that raise UND whatever the operands (rule R80 steps 1 and 4). -/

theorem fpCommonChecks_disabled {s : State} (v : Verdict) (c : Bool) (l : List Access) (h : s.fpen = false) :
    fpCommonChecks s v c l = .error (.raise .und) := by
  simp [fpCommonChecks, h]

/-- The reserved `XOPSS` raises UND, and so does a form the constraint turns away before it; only a refused form
does not. -/
theorem fpCommonChecks_reservedXopss {s : State} {v : Verdict} (c : Bool) {l : List Access} (hf : s.fpen = true)
    (hl : l.all (fun a => a.1.wellFormed) = true) (hv : v ≠ .refused) (hx : s.xopss = 3) :
    fpCommonChecks s v c l = .error (.raise .und) := by
  cases v with
  | admitted => simp [fpCommonChecks, hf, hl, hx]
  | und => simp [fpCommonChecks, hf, hl]
  | refused => exact absurd rfl hv

theorem triggerExcept_disabled (masked : State → FpExc → Bool) {s : State} (h : s.fpen = false) :
    triggerExcept masked s = .error (.raise .und) := by
  simp [triggerExcept, h]

/-- The operands of a well-formed instruction pass the test of their immediates (rule R58). -/
theorem accessesOf_wellFormed {i : Instr} (h : i.wellFormed = true) :
    (accessesOf i).all (fun a => a.1.wellFormed) = true := by
  have h : i.operands.all Operand.wellFormed = true := h
  rw [← accessesOf_fst, List.all_map] at h
  exact h

theorem exec_disabled (i : Instr) {s : State} (h : s.fpen = false) : exec i s = .next (s.raise .und) := by
  by_cases hr : i = .fraiseexcept
  · subst hr
    exact congrArg s.settle (triggerExcept_disabled _ h)
  by_cases ht : i = .ftriggerexcept
  · subst ht
    exact congrArg s.settle (triggerExcept_disabled _ h)
  exact exec_checks_error _ hr ht rfl (fpCommonChecks_disabled _ _ _ h)

/-- Settles O12: the first check raises UND where `FPEN` is clear; where it is set, the checks before that of `XOPSS`
let a well-formed form pass or raise UND themselves. -/
theorem disabledOrReservedXopssRaisesUnd : Obligations.DisabledOrReservedXopssRaisesUnd := by
  refine ⟨fun i s h => exec_disabled i h, fun i s hr ht hwf hf hx hv => ?_⟩
  exact exec_checks_error _ hr ht rfl (fpCommonChecks_reservedXopss _ hf (accessesOf_wellFormed hwf) hv hx)

end Sys2Proof.Machine
end

section
/-! The fields of a packed pattern, the order of a format's extreme magnitudes, and the results out of range. -/

namespace Sys2Proof

open Machine

/-! Fields of a packed pattern (rules R86 to R88). -/

/-- A format of the extension has two exponent bits at least and fits a register. -/
theorem isFormat_sizes {F : Format} (hF : isFormat F) : 2 ≤ F.expBits ∧ F.width ≤ 64 := by
  rcases hF with rfl | rfl | rfl <;> decide

section
variable {F : Format} (hF : isFormat F) (s : Bool) {e t : Nat} (he : e < 2 ^ F.expBits) (ht : t < 2 ^ F.fracBits)
include hF he ht

/-- A packed pattern as a number: sign and exponent field above the fraction field. -/
theorem toNat_packFp : (packFp F s e t).toNat = 2 ^ F.fracBits * (2 ^ F.expBits * s.toNat + e) + t := by
  have hw : F.width - 1 = F.fracBits + F.expBits := by simp only [Format.width]; omega
  have hsum : s.toNat * 2 ^ (F.width - 1) + e * 2 ^ F.fracBits + t =
      2 ^ F.fracBits * (2 ^ F.expBits * s.toNat + e) + t := by
    rw [hw, pow_add]; ring
  have hs : s.toNat ≤ 1 := Bool.toNat_le s
  have hhigh : 2 ^ F.expBits * s.toNat + e + 1 ≤ 2 ^ F.expBits * 2 := by
    have := Nat.mul_le_mul_left (2 ^ F.expBits) hs
    omega
  have hlt : 2 ^ F.fracBits * (2 ^ F.expBits * s.toNat + e) + t < 2 ^ 64 :=
    calc 2 ^ F.fracBits * (2 ^ F.expBits * s.toNat + e) + t
        < 2 ^ F.fracBits * (2 ^ F.expBits * s.toNat + e + 1) := by rw [Nat.mul_succ]; omega
      _ ≤ 2 ^ F.fracBits * (2 ^ F.expBits * 2) := Nat.mul_le_mul_left _ hhigh
      _ = 2 ^ F.width := by simp only [Format.width, pow_add]; ring
      _ ≤ 2 ^ 64 := Nat.pow_le_pow_right two_pos (isFormat_sizes hF).2
  rw [packFp, BitVec.toNat_ofNat, hsum, Nat.mod_eq_of_lt hlt]

theorem fracField_packFp : fracField F (packFp F s e t) = t := by
  rw [fracField, toNat_packFp hF s he ht, Nat.mul_add_mod, Nat.mod_eq_of_lt ht]

theorem expField_packFp : expField F (packFp F s e t) = e := by
  rw [expField, toNat_packFp hF s he ht, Nat.mul_add_div (Nat.two_pow_pos _), Nat.div_eq_of_lt ht, Nat.add_zero,
    Nat.mul_add_mod, Nat.mod_eq_of_lt he]

theorem signField_packFp : signField F (packFp F s e t) = s := by
  have hw : F.width - 1 = F.fracBits + F.expBits := by simp only [Format.width]; omega
  rw [signField, hw, BitVec.getLsbD, Nat.testBit_eq_decide_div_mod_eq, toNat_packFp hF s he ht, pow_add,
    ← Nat.div_div_eq_div_mul, Nat.mul_add_div (Nat.two_pow_pos _), Nat.div_eq_of_lt ht, Nat.add_zero,
    Nat.mul_add_div (Nat.two_pow_pos _), Nat.div_eq_of_lt he, Nat.add_zero]
  cases s <;> rfl

end

theorem decodeFp_encInf {F : Format} (hF : isFormat F) (s : Bool) : decodeFp F (encInf F s) = .inf s := by
  have he : 2 ^ F.expBits - 1 < 2 ^ F.expBits := Nat.sub_lt (Nat.two_pow_pos _) one_pos
  have ht : 0 < 2 ^ F.fracBits := Nat.two_pow_pos _
  simp only [decodeFp, encInf, signField_packFp hF s he ht, expField_packFp hF s he ht, fracField_packFp hF s he ht,
    if_true]

theorem decodeFp_encZero {F : Format} (hF : isFormat F) (s : Bool) : decodeFp F (encZero F s) = .fin s 0 := by
  have he : 0 < 2 ^ F.expBits := Nat.two_pow_pos _
  have ht : 0 < 2 ^ F.fracBits := Nat.two_pow_pos _
  have hne : 0 ≠ 2 ^ F.expBits - 1 := by
    have : 2 ^ 1 < 2 ^ F.expBits := Nat.pow_lt_pow_right one_lt_two (isFormat_sizes hF).1
    omega
  simp only [decodeFp, encZero, signField_packFp hF s he ht, expField_packFp hF s he ht, fracField_packFp hF s he ht,
    hne, if_false, if_true, Nat.cast_zero, zero_mul]

/-! The extreme magnitudes of a format (rule R86). -/

theorem minSub_le_minNorm (F : Format) : minSub F ≤ minNorm F := pow2_le (by omega)

theorem minNorm_le_maxFinite {F : Format} (hF : isFormat F) : minNorm F ≤ maxFinite F := by
  have hb : 1 ≤ F.bias := by rcases hF with rfl | rfl | rfl <;> decide
  have hfrac : pow2 (-(F.fracBits : Int)) ≤ 1 :=
    calc pow2 (-(F.fracBits : Int)) ≤ pow2 0 := pow2_le (by omega)
      _ = 1 := by rw [pow2_eq_zpow, zpow_zero]
  calc minNorm F ≤ pow2 F.bias := pow2_le (by simp only [Format.emin]; omega)
    _ = 1 * pow2 F.bias := (one_mul _).symm
    _ ≤ maxFinite F := mul_le_mul_of_nonneg_right (by linarith) (pow2_pos _).le

theorem maxFinite_pos {F : Format} (hF : isFormat F) : 0 < maxFinite F :=
  (pow2_pos _).trans_le (minNorm_le_maxFinite hF)

theorem leastKept_le_maxFinite {F : Format} (hF : isFormat F) (denorm : Bool) : leastKept F denorm ≤ maxFinite F := by
  cases denorm
  · exact minNorm_le_maxFinite hF
  · exact (minSub_le_minNorm F).trans (minNorm_le_maxFinite hF)

/-! The branches of `RoundFP` out of range (rule R90). -/

theorem roundFpExact_zero (s : Bool) (F : Format) (mode : RoundMode) (denorm : Bool) :
    roundFpExact s 0 F mode denorm = (encZero F s, []) := by
  simp [roundFpExact]

theorem roundFpExact_overflow {F : Format} (hF : isFormat F) (s : Bool) {m : Rat} (mode : RoundMode) (denorm : Bool)
    (h : maxFinite F < m) : roundFpExact s m F mode denorm = (encInf F s, [.overflow, .inexact]) := by
  have hm : m ≠ 0 := ((maxFinite_pos hF).trans h).ne'
  simp only [roundFpExact, hm, h, if_false, if_true]

theorem roundFpExact_underflow {F : Format} (hF : isFormat F) (s : Bool) {m : Rat} (mode : RoundMode) {denorm : Bool}
    (h0 : 0 < m) (h : m < leastKept F denorm) :
    roundFpExact s m F mode denorm = (encZero F s, [.underflow, .inexact]) := by
  have hmax : ¬ maxFinite F < m := (h.le.trans (leastKept_le_maxFinite hF denorm)).not_gt
  simp only [roundFpExact, h0.ne', hmax, h, if_false, if_true]

/-- Settles O26, by the branches of `RoundFP` out of range and the decoding of the patterns they deliver. -/
theorem overflowAndUnderflow : Obligations.OverflowAndUnderflow := by
  intro F sg m mode denorm hF
  exact ⟨roundFpExact_overflow hF sg mode denorm, roundFpExact_underflow hF sg mode,
    roundFpExact_zero sg F mode denorm, decodeFp_encInf hF sg, decodeFp_encZero hF sg⟩

end Sys2Proof
end

section
/-! The decoder and the encoder as inverses (rules R51 to R59). Each half of an entry is taken by itself: the first word
is its two fields, the raw operands are those of the operand list, and the rows of the opcode map tell which
instruction a row, the control bits and the operands make. `decode_eq_ok_iff` puts them together, and its two directions
are the two round trips. -/

namespace Sys2Proof

open Laws

/-! The first word (rule R51). -/

theorem opcodeField_ofNat {n h : Nat} (hn : n < 4096) (hh : h < 16) :
    opcodeField (BitVec.ofNat 16 (n * 16 + h)) = n := by
  rw [opcodeField, BitVec.toNat_ofNat]
  omega

theorem hField_ofNat {n h : Nat} (hh : h < 16) : hField (BitVec.ofNat 16 (n * 16 + h)) = h := by
  rw [hField, BitVec.toNat_ofNat]
  omega

theorem hField_lt (w : BitVec 16) : hField w < 16 := Nat.mod_lt _ (by decide)

/-- A first word has no bits beside its two fields. -/
theorem ofNat_fields (w : BitVec 16) : BitVec.ofNat 16 (opcodeField w * 16 + hField w) = w := by
  rw [opcodeField, hField, Nat.div_add_mod', BitVec.ofNat_toNat, BitVec.setWidth_eq]

/-! The operands (rules R58, R59). -/

theorem ofBytes_eq_some_iff {n : Nat} {z : OpSize} : OpSize.ofBytes n = some z ↔ z.bytes = n := by
  constructor
  · intro h
    unfold OpSize.ofBytes at h
    split at h <;> cases h <;> rfl
  · rintro rfl
    cases z <;> rfl

theorem rawDecode_eq_ok_iff {r : RawOperand} {o : Operand} : r.decode = .ok o ↔ o.encode = r := by
  constructor
  · intro h
    cases r <;> simp only [RawOperand.decode] at h <;> split at h <;> cases h
    all_goals
      rename_i hz
      rw [Operand.encode, ofBytes_eq_some_iff.1 hz]
  · rintro rfl
    cases o <;> simp only [Operand.encode, RawOperand.decode, ofBytes_eq_some_iff.2 rfl]

theorem decodeOperands_eq_ok_iff {rs : List RawOperand} {os : List Operand} :
    decodeOperands rs = .ok os ↔ os.map Operand.encode = rs := by
  constructor
  · intro h
    induction rs generalizing os with
    | nil => cases h; rfl
    | cons r rs ih =>
      simp only [decodeOperands] at h
      split at h
      · cases h
      rename_i o ho
      split at h <;> cases h
      rename_i os hos
      rw [List.map_cons, rawDecode_eq_ok_iff.1 ho, ih hos]
  · rintro rfl
    induction os with
    | nil => rfl
    | cons o os ih => simp only [List.map_cons, decodeOperands, rawDecode_eq_ok_iff.2 rfl, ih]

/-! The opcode map and the control bits (rules R52 to R56). -/

theorem opcodeRow_eq_some {n : Nat} {row : OpcodeRow} (h : opcodeRow n = some row) :
    row ∈ opcodeTable ∧ row.number = n :=
  ⟨List.mem_of_find?_eq_some h, by simpa using List.find?_some h⟩

theorem opcodeTable_number_lt : ∀ row ∈ opcodeTable, row.number < 4096 := by decide

/-- No opcode has two rows. -/
theorem opcodeTable_opcode_inj : ∀ row ∈ opcodeTable, ∀ row' ∈ opcodeTable, row.opcode = row'.opcode → row = row' := by
  decide

/-- The control bits that the fields of a layout make; the reserved bits are zero. -/
def HLayout.pack : HLayout → Nat → Nat
  | .h00f, h => packF (hF h)
  | .hssif, h => packSsIF (hSs h) (hI h) (hF h)
  | .h0, _ => 0

/-- Control bits that a layout admits are made of its fields alone. -/
theorem pack_of_admits {layout : HLayout} {h : Nat} (hh : h < 16) (ha : layout.admits h = true) :
    layout.pack h = h := by
  revert h
  cases layout <;> decide

/-- What the parts of an instruction are, when it was put together from an opcode, control bits and operands. -/
theorem assemble_eq_some {op : Opcode} {h : Nat} {os : List Operand} {i : Instr} (hi : assemble op h os = some i) :
    i.operands = os ∧ ∃ row, opcodeRow i.number = some row ∧ row.opcode = op ∧ i.h = row.layout.pack h := by
  unfold assemble at hi
  split at hi <;> cases hi
  all_goals exact ⟨rfl, _, rfl, rfl, rfl⟩

/-- The parts of every instruction fit its row of the opcode map. -/
theorem encodingFields : ∀ i : Instr, EncodingFields.Statement i
  | .movsif .. => EncodingFields.movsif ..
  | .movxf .. => EncodingFields.movxf ..
  | .movfsi .. => EncodingFields.movfsi ..
  | .movfx .. => EncodingFields.movfx ..
  | .cvtf .. => EncodingFields.cvtf ..
  | .round .. => EncodingFields.round ..
  | .ceil .. => EncodingFields.ceil ..
  | .floor .. => EncodingFields.floor ..
  | .fabs .. => EncodingFields.fabs ..
  | .fneg .. => EncodingFields.fneg ..
  | .finv .. => EncodingFields.finv ..
  | .fadd .. => EncodingFields.fadd ..
  | .fsub .. => EncodingFields.fsub ..
  | .fmul .. => EncodingFields.fmul ..
  | .fdiv .. => EncodingFields.fdiv ..
  | .frem .. => EncodingFields.frem ..
  | .fma .. => EncodingFields.fma ..
  | .fcmpz .. => EncodingFields.fcmpz ..
  | .fcmp .. => EncodingFields.fcmp ..
  | .fraiseexcept => EncodingFields.fraiseexcept
  | .ftriggerexcept => EncodingFields.ftriggerexcept

/-- A row, control bits it admits and operands make an instruction exactly when they are the instruction's own. -/
theorem assemble_row_iff {n h : Nat} {row : OpcodeRow} {os : List Operand} {i : Instr}
    (hrow : opcodeRow n = some row) (hh : h < 16) (ha : row.layout.admits h = true) :
    assemble row.opcode h os = some i ↔ i.number = n ∧ i.h = h ∧ i.operands = os := by
  constructor
  · intro hi
    obtain ⟨hos, row', hrow', hop, hih⟩ := assemble_eq_some hi
    obtain ⟨hmem, hn⟩ := opcodeRow_eq_some hrow
    obtain ⟨hmem', hn'⟩ := opcodeRow_eq_some hrow'
    obtain rfl := opcodeTable_opcode_inj _ hmem' _ hmem hop
    exact ⟨hn'.symm.trans hn, hih.trans (pack_of_admits hh ha), hos⟩
  · rintro ⟨rfl, rfl, rfl⟩
    obtain ⟨row', hrow', _, _, _, hi⟩ := encodingFields i
    obtain rfl := Option.some.inj (hrow.symm.trans hrow')
    exact hi

/-! The decoder. -/

/-- What an entry that decodes went through: every stage of the decoder, none of which gave an error. -/
theorem decode_stages_iff {e : Encoded} {i : Instr} : decode e = .ok i ↔
    ∃ row os, opcodeRow (opcodeField e.first) = some row ∧ row.layout.admits (hField e.first) = true ∧
      decodeOperands e.operands = .ok os ∧ assemble row.opcode (hField e.first) os = some i ∧
      i.wellFormed = true := by
  constructor
  · intro h
    unfold decode at h
    repeat' split at h
    all_goals cases h
    exact ⟨_, _, by assumption, by assumption, by assumption, by assumption, by assumption⟩
  · rintro ⟨row, os, hrow, ha, hos, hi, hwf⟩
    simp only [decode, hrow, ha, hos, hi, hwf, if_true]

/-- An entry decodes to an instruction exactly when it is the encoding of that instruction, which is well formed. -/
theorem decode_eq_ok_iff {e : Encoded} {i : Instr} : decode e = .ok i ↔ i.wellFormed = true ∧ encode i = e := by
  rw [decode_stages_iff]
  constructor
  · rintro ⟨row, os, hrow, ha, hos, hi, hwf⟩
    obtain ⟨hn, hh, rfl⟩ := (assemble_row_iff hrow (hField_lt _) ha).1 hi
    refine ⟨hwf, ?_⟩
    rw [encode, hn, hh, ofNat_fields, decodeOperands_eq_ok_iff.1 hos]
  · rintro ⟨hwf, rfl⟩
    obtain ⟨row, hrow, ha, hh, _, hi⟩ := encodingFields i
    obtain ⟨hmem, hn⟩ := opcodeRow_eq_some hrow
    have hlt : i.number < 4096 := hn ▸ opcodeTable_number_lt row hmem
    simp only [encode, opcodeField_ofNat hlt hh, hField_ofNat hh]
    exact ⟨row, i.operands, hrow, ha, decodeOperands_eq_ok_iff.2 rfl, hi, hwf⟩

/-- Settles O1: the encoding of a well-formed instruction goes through every stage of the decoder. -/
theorem decodeOfEncode : Obligations.DecodeOfEncode :=
  fun _ hwf => decode_eq_ok_iff.2 ⟨hwf, rfl⟩

/-- Settles O2: each stage of the decoder gives back what the encoder writes for it. -/
theorem encodeOfDecode : Obligations.EncodeOfDecode :=
  fun _ _ h => decode_eq_ok_iff.1 h

end Sys2Proof
end

section
/-! Register operands (rules R13, R14, R60, R61): what a register reads as after a write to it or to another register,
and what a narrow write leaves of the word. -/

namespace Sys2Proof.Machine

theorem regClass_eq_flags {impl : Impl} {n : Nat} (h : regClass impl n = .flags) : n = 17 := by
  unfold regClass at h
  repeat' split at h
  all_goals first | assumption | cases h

/-- A register reads as what was written to it; `flags` and `ip` have rules of their own (rules R23, R26). -/
theorem readReg_writeReg_same {s : State} {n : Nat} (v : Word) (hflags : regClass s.impl n ≠ .flags)
    (hip : regClass s.impl n ≠ .ip) : (s.writeReg n v).readReg n = v := by
  rcases writeReg_cases s n v with ⟨hc, e⟩ | ⟨k, hc, e⟩ | ⟨hc, _⟩ | ⟨hc, _⟩ | ⟨hc, e⟩
  · simp [e, State.readReg, hc]
  · simp [e, State.readReg, hc]
  · exact absurd hc hflags
  · exact absurd hc hip
  · simp [e, State.readReg, hc]

/-! What a write leaves of the registers of other numbers, kind by kind. -/

section
variable (s : State) {n : Nat} (v : Word)

theorem writeReg_fpcrw_of_ne (h : n ≠ 19) : (s.writeReg n v).fpcrw = s.fpcrw := by
  unfold State.writeReg
  split
  case h_1 hc => exact absurd (regClass_eq_fpcrw hc) h
  all_goals rfl

theorem writeReg_f_of_ne {k : Fin 8} (h : n ≠ 24 + k.val) : (s.writeReg n v).f[k.val] = s.f[k.val] := by
  unfold State.writeReg
  split
  case h_2 j hc =>
    have hjk : j.val ≠ k.val := fun e => h (by rw [regClass_eq_f hc, e])
    exact Vector.getElem_set_ne j.isLt k.isLt hjk
  all_goals rfl

theorem writeReg_flags_of_ne (h : n ≠ 17) : (s.writeReg n v).flags = s.flags := by
  unfold State.writeReg
  split
  case h_3 hc => exact absurd (regClass_eq_flags hc) h
  all_goals rfl

theorem writeReg_flagsWord_of_ne (h : n ≠ 17) : (s.writeReg n v).flagsWord = s.flagsWord := by
  simp only [State.flagsWord, writeReg_flags_of_ne s v h, writeReg_impl, writeReg_fpen]

theorem writeReg_gpr_of_ne {n' : Nat} (h : n' ≠ n) : cellGet (s.writeReg n v).gpr n' = cellGet s.gpr n' := by
  unfold State.writeReg
  split
  case h_5 => exact cellGet_set_other s.gpr v h
  all_goals rfl

/-- Writing a register leaves every register of another number as it reads. -/
theorem readReg_writeReg_other {n' : Nat} (h : n' ≠ n) : (s.writeReg n v).readReg n' = s.readReg n' := by
  simp only [State.readReg, writeReg_impl, writeReg_ip]
  cases hc : regClass s.impl n' with
  | fpcrw => exact writeReg_fpcrw_of_ne s v (regClass_eq_fpcrw hc ▸ h.symm)
  | f k => exact writeReg_f_of_ne s v (regClass_eq_f hc ▸ h.symm)
  | flags => exact writeReg_flagsWord_of_ne s v (regClass_eq_flags hc ▸ h.symm)
  | ip => rfl
  | general => exact writeReg_gpr_of_ne s v h

end

/-- A write at an operand size keeps the low bits of the word and clears those above. -/
theorem toNat_truncate (z : OpSize) (w : Word) : (z.truncate w).toNat = w.toNat % 2 ^ (8 * z.bytes) := by
  have hlt : w.toNat % 2 ^ z.bits < 2 ^ 64 := (Nat.mod_le _ _).trans_lt w.isLt
  rw [OpSize.truncate, BitVec.toNat_ofNat, Nat.mod_eq_of_lt hlt, OpSize.bits]

/-- Settles O21: the register holds the low bits of the value after the write, and a read takes its low bits. -/
theorem narrowRegisterAccess : Obligations.NarrowRegisterAccess := by
  intro s n z z' v hflags hip
  have hread : (s.writeReg n (z.truncate v)).readReg n = z.truncate v := readReg_writeReg_same _ hflags hip
  refine ⟨s.writeReg n (z.truncate v), rfl, ?_, ?_, fun n' h => readReg_writeReg_other s _ h, writeReg_mem s n _⟩
  · rw [hread, toNat_truncate]
  · rw [State.readOp, hread, OpSize.truncate, toNat_truncate, OpSize.bits]

end Sys2Proof.Machine
end

section
/-! The operand forms of the converting moves (rules R62, R101). The operand predicates of the rules are tied to the
tests of the model one by one; each constraint's strict and loose test is then the form of the rule, and the verdict of
a constraint decides the outcome of the instruction. -/

namespace Sys2Proof.Machine

/-! The operand predicates (rule R62). -/

theorem fpReg_iff {o : Operand} : FpReg o ↔ isFpReg o = true ∧ fpSize o = true := by
  cases o <;> simp [FpReg, isFpReg, fpSize, opSize, and_assoc]

theorem fpMem_iff {o : Operand} : FpMem o ↔ isMem o = true ∧ fpSize o = true := by
  cases o <;> simp [FpMem, isMem, fpSize, opSize]

theorem fpImm_iff {o : Operand} : FpImm o ↔ isLongImm o = true ∧ fpSize o = true := by
  cases o <;> simp [FpImm, isLongImm, fpSize, opSize]

/-- A well-formed immediate is a long one (rule R58). -/
theorem long_of_wellFormed {v : Word} {z : OpSize} {long : Bool} (h : (Operand.imm v z long).wellFormed = true) :
    long = true := by
  simp only [Operand.wellFormed, Bool.and_eq_true] at h
  exact h.1

/-- A well-formed operand can be read as a floating-point value unless it is another register or has size 1. -/
theorem fpOperand_iff {o : Operand} (hwf : o.wellFormed = true) :
    FpOperand o ↔ isOtherReg o = false ∧ fpSize o = true := by
  simp only [FpOperand, fpReg_iff, fpMem_iff, fpImm_iff]
  cases o with
  | reg n z => simp [isFpReg, isMem, isLongImm, isOtherReg]
  | mem ea z => simp [isFpReg, isMem, isLongImm, isOtherReg]
  | imm v z long =>
    simp [isFpReg, isMem, isLongImm, isOtherReg, long_of_wellFormed hwf]

theorem intSource_iff {s : State} {o : Operand} (hwf : o.wellFormed = true) :
    IntSource s o ↔ isReserved s o = false := by
  cases o with
  | reg n z => simp [IntSource]
  | mem ea z => simp [IntSource, isReserved]
  | imm v z long =>
    simp [IntSource, isReserved, long_of_wellFormed hwf]

theorem intTarget_iff {s : State} {o : Operand} :
    IntTarget s o ↔ isImm o = false ∧ isFlagsOrIp s.impl o = false ∧ isReserved s o = false := by
  cases o with
  | reg n z => simp [IntTarget, isImm, isFlagsOrIp, and_comm, and_assoc]
  | mem ea z => simp [IntTarget, isImm, isFlagsOrIp, isReserved]
  | imm v z long => simp [IntTarget, isImm]

/-- What every converting move asks of its operands, in the predicates of rule R101. -/
theorem convertCommon_iff {s : State} {d src : Operand} :
    convertCommon s d src = true ↔ IntTarget s d ∧ isReserved s src = false := by
  simp [convertCommon, intTarget_iff, and_assoc]

/-- The extension's registers are not reserved while it is enabled (rule R12). -/
theorem FpReg.notReserved {s : State} {o : Operand} (hf : s.fpen = true) (h : FpReg o) : isReserved s o = false := by
  obtain ⟨n, z, rfl, h24, h31, _⟩ := h
  simp [isReserved, isReservedNumber, isExtensionReg, h24, h31, hf]

theorem FpReg.intTarget {s : State} {o : Operand} (hf : s.fpen = true) (h : FpReg o) : IntTarget s o := by
  have hres := h.notReserved hf
  obtain ⟨n, z, rfl, h24, h31, _⟩ := h
  exact .inl ⟨n, z, rfl, hres, by simp [regClass_f ⟨h24, h31⟩], by simp [regClass_f ⟨h24, h31⟩]⟩

theorem FpMem.intTarget {s : State} {o : Operand} (h : FpMem o) : IntTarget s o := by
  obtain ⟨ea, z, rfl, _⟩ := h
  exact .inr ⟨ea, z, rfl⟩

/-- No converting move writes an immediate. -/
theorem FpImm.not_intTarget {s : State} {o : Operand} (h : FpImm o) : ¬ IntTarget s o := by
  obtain ⟨v, z, rfl, _⟩ := h
  simp [IntTarget]

theorem FpOperand.notReserved {s : State} {o : Operand} (hf : s.fpen = true) (h : FpOperand o) :
    isReserved s o = false := by
  rcases h with h | ⟨ea, z, rfl, _⟩ | ⟨v, z, rfl, _⟩
  · exact h.notReserved hf
  · rfl
  · rfl

theorem FpReg.not_fpMem {o : Operand} (h : FpReg o) : ¬ FpMem o := by
  rintro ⟨ea, z, rfl, _⟩
  obtain ⟨n, z', h', _⟩ := h
  cases h'

theorem FpReg.not_fpImm {o : Operand} (h : FpReg o) : ¬ FpImm o := by
  rintro ⟨v, z, rfl, _⟩
  obtain ⟨n, z', h', _⟩ := h
  cases h'

/-! The constraints (rule R101). -/

/-- A verdict that admits the strict forms, refuses those that only the loose reading admits, and raises UND for the
others (rule R101, decision D18). -/
def VerdictOfForms (v : Verdict) (strict loose : Prop) : Prop :=
  (strict → v = .admitted) ∧ (loose → v = .refused) ∧ (¬ strict → ¬ loose → v = .und)

theorem looseVerdict_ofForms {strict loose : Bool} {P Q : Prop} (hP : strict = true ↔ P) (hQ : loose = true ↔ Q)
    (hPQ : P → ¬ Q) : VerdictOfForms (looseVerdict strict loose) P Q := by
  rw [← hP, ← hQ] at hPQ
  simp only [VerdictOfForms, ← hP, ← hQ, looseVerdict]
  cases strict with
  | true => simpa using hPQ
  | false => cases loose <;> simp

theorem verdictOf_ofForms {ok : Bool} {P : Prop} (hP : ok = true ↔ P) : VerdictOfForms (verdictOf ok) P False := by
  have h : verdictOf ok = looseVerdict ok false := by cases ok <;> rfl
  rw [h]
  exact looseVerdict_ofForms hP (by simp) (by simp)

theorem toFpConstraint_ofForms {s : State} {d src : Operand} (hf : s.fpen = true) (hsrc : src.wellFormed = true) :
    VerdictOfForms (toFpConstraint s d src) (FpReg d ∧ IntSource s src) (FpMem d ∧ IntSource s src) := by
  refine looseVerdict_ofForms ?_ ?_ fun hreg hmem => hreg.1.not_fpMem hmem.1
  · rw [Bool.and_eq_true, Bool.and_eq_true, ← fpReg_iff, convertCommon_iff, ← intSource_iff hsrc]
    exact and_congr_right fun h => and_iff_right (h.intTarget hf)
  · rw [Bool.and_eq_true, Bool.and_eq_true, ← fpMem_iff, convertCommon_iff, ← intSource_iff hsrc]
    exact and_congr_right fun h => and_iff_right h.intTarget

theorem fromFpConstraint_ofForms {s : State} {d src : Operand} (hf : s.fpen = true) :
    VerdictOfForms (fromFpConstraint s d src) (FpReg src ∧ IntTarget s d)
      ((FpMem src ∨ FpImm src) ∧ IntTarget s d) := by
  refine looseVerdict_ofForms ?_ ?_ fun hreg hloose => hloose.1.elim hreg.1.not_fpMem hreg.1.not_fpImm
  · rw [Bool.and_eq_true, Bool.and_eq_true, ← fpReg_iff, convertCommon_iff]
    exact and_congr_right fun h => and_iff_left (h.notReserved hf)
  · rw [Bool.and_eq_true, Bool.and_eq_true, Bool.or_eq_true, or_and_right, ← fpMem_iff, ← fpImm_iff, convertCommon_iff]
    exact and_congr_right fun h => and_iff_left (FpOperand.notReserved hf (.inr h))

theorem cvtfConstraint_ofForms {s : State} {d src : Operand} (hf : s.fpen = true) (hd : d.wellFormed = true)
    (hsrc : src.wellFormed = true) :
    VerdictOfForms (cvtfConstraint s d src) ((FpReg d ∧ FpOperand src) ∨ (FpMem d ∧ FpReg src)) False := by
  refine verdictOf_ofForms ?_
  have htest : ((isFpReg d || isFpReg src) && !isOtherReg d && !isOtherReg src && fpSize d && fpSize src &&
      convertCommon s d src) = true ↔
      (isFpReg d = true ∨ isFpReg src = true) ∧ FpOperand d ∧ FpOperand src ∧
        IntTarget s d ∧ isReserved s src = false := by
    simp only [fpOperand_iff hd, fpOperand_iff hsrc, ← convertCommon_iff, Bool.and_eq_true, Bool.or_eq_true,
      Bool.not_eq_true']
    tauto
  rw [htest]
  constructor
  · rintro ⟨hreg | hreg, hod, hosrc, htarget, _⟩
    · exact .inl ⟨fpReg_iff.2 ⟨hreg, ((fpOperand_iff hd).1 hod).2⟩, hosrc⟩
    · have hsrcReg : FpReg src := fpReg_iff.2 ⟨hreg, ((fpOperand_iff hsrc).1 hosrc).2⟩
      rcases hod with hdReg | hdMem | hdImm
      · exact .inl ⟨hdReg, hosrc⟩
      · exact .inr ⟨hdMem, hsrcReg⟩
      · exact absurd htarget hdImm.not_intTarget
  · rintro (⟨hdReg, hosrc⟩ | ⟨hdMem, hsrcReg⟩)
    · exact ⟨.inl (fpReg_iff.1 hdReg).1, .inl hdReg, hosrc, hdReg.intTarget hf, hosrc.notReserved hf⟩
    · exact ⟨.inr (fpReg_iff.1 hsrcReg).1, .inr (.inl hdMem), .inl hsrcReg, hdMem.intTarget, hsrcReg.notReserved hf⟩

/-- The constraint of every converting move, in the forms of rule R101. -/
theorem moveVerdict_ofForms {i : Instr} {f : Bool} {d src : Operand} {s : State} (hi : moveParts i = some (f, d, src))
    (hwf : i.wellFormed = true) (hf : s.fpen = true) :
    VerdictOfForms (moveVerdict s i) (MoveLegal s i) (MoveLoose s i) := by
  have hops : ∀ {a b : Operand}, [a, b].all Operand.wellFormed = true → a.wellFormed = true ∧ b.wellFormed = true := by
    simp
  cases i <;> simp only [moveParts, reduceCtorEq] at hi
  case movsif => exact toFpConstraint_ofForms hf (hops hwf).2
  case movxf => exact toFpConstraint_ofForms hf (hops hwf).2
  case movfsi => exact fromFpConstraint_ofForms hf
  case movfx => exact fromFpConstraint_ofForms hf
  case cvtf => exact cvtfConstraint_ofForms hf (hops hwf).1 (hops hwf).2

/-! The outcome of a form that is turned away (rule R80 step 3). -/

theorem fpCommonChecks_und {s : State} (c : Bool) {l : List Access} (hf : s.fpen = true)
    (hl : l.all (fun a => a.1.wellFormed) = true) : fpCommonChecks s .und c l = .error (.raise .und) := by
  simp [fpCommonChecks, hf, hl]

theorem fpCommonChecks_refused {s : State} (c : Bool) {l : List Access} (hf : s.fpen = true)
    (hl : l.all (fun a => a.1.wellFormed) = true) :
    fpCommonChecks s .refused c l = .error (.refuse .looseForm) := by
  simp [fpCommonChecks, hf, hl]

/-- A converting move whose checks end short ends with the same stop. -/
theorem exec_move_error {i : Instr} {f : Bool} {d src : Operand} {s : State} {stop : Stop}
    (hi : moveParts i = some (f, d, src))
    (h : fpCommonChecks s (moveVerdict s i) true (accessesOf i) = .error stop) : exec i s = s.settle (.error stop) := by
  have hv : operandVerdict s i = moveVerdict s i := by
    cases i <;> first | rfl | cases hi
  refine exec_checks_error true ?_ ?_ (by rw [hi]; rfl) (hv ▸ h)
  · rintro rfl; cases hi
  · rintro rfl; cases hi

/-- Settles O14: the verdict follows the forms of rule R101, and a form that is not admitted ends with the stop of its
verdict. -/
theorem convertingMoveForms : Obligations.ConvertingMoveForms := by
  intro i f d src s hi hwf hf
  obtain ⟨hlegal, hloose, hother⟩ := moveVerdict_ofForms hi hwf hf
  have hl := accessesOf_wellFormed hwf
  refine ⟨hlegal, fun h => ?_, fun hn hm => ?_⟩
  · exact exec_move_error hi (hloose h ▸ fpCommonChecks_refused true hf hl)
  · exact exec_move_error hi (hother hn hm ▸ fpCommonChecks_und true hf hl)

end Sys2Proof.Machine
end

section
/-! Base opcodes on floating-point registers (rule R70). The opcode map starts above the seven base opcodes, so the
decoder rejects each of them as one; the fetch then tells by the raw operands what the rejected entry does. -/

namespace Sys2Proof

theorem opcodeTable_number_ge : ∀ row ∈ opcodeTable, 0x022 ≤ row.number := by decide

theorem opcodeRow_eq_none_of_lt {n : Nat} (h : n < 0x022) : opcodeRow n = none := by
  cases hrow : opcodeRow n with
  | none => rfl
  | some row =>
    obtain ⟨hmem, hn⟩ := opcodeRow_eq_some hrow
    have hge := opcodeTable_number_ge row hmem
    omega

theorem decode_of_opcodeRow_eq_none {e : Encoded} (h : opcodeRow (opcodeField e.first) = none) :
    decode e = .error (otherOpcode (opcodeField e.first)) := by
  simp only [decode, h]

theorem otherOpcode_base {n : Nat} (h1 : 1 ≤ n) (h7 : n ≤ 7) : otherOpcode n = .baseOpcode n :=
  if_pos ⟨h1, h7⟩

theorem any_isFpReg_iff {operands : List RawOperand} :
    operands.any RawOperand.isFpReg = true ↔ ∃ n z, RawOperand.reg n z ∈ operands ∧ 24 ≤ n ∧ n ≤ 31 := by
  rw [List.any_eq_true]
  constructor
  · rintro ⟨o, ho, hfp⟩
    cases o with
    | reg n z => exact ⟨n, z, ho, of_decide_eq_true hfp⟩
    | mem | imm => cases hfp
  · rintro ⟨n, z, ho, hn⟩
    exact ⟨_, ho, decide_eq_true hn⟩

namespace Machine

/-- A step at an entry that the decoder rejects does what the fetch gives the error. -/
theorem step_of_decode_error {s : State} {e : Encoded} {err : DecodeError} (ht : s.trapped = none)
    (hp : s.program[s.ip]? = some (.word e)) (he : decode e = .error err) :
    step s = rejected s e.operands err := by
  simp only [step, stepOnce, runEntry, ht, hp, he]

theorem rejected_baseOpcode_of_fpReg (s : State) {operands : List RawOperand} (n : Nat)
    (h : operands.any RawOperand.isFpReg = true) : rejected s operands (.baseOpcode n) = .next (s.raise .und) := by
  simp only [rejected, h, Bool.true_or, if_true]

/-- Settles O5: the decoder rejects the entry as a base opcode, and the floating-point register among its operands
decides what the rejected entry does before the reserved registers, and so `cr0.FPEN`, are asked for. -/
theorem baseOpcodesRefuseFpRegisters : Obligations.BaseOpcodesRefuseFpRegisters := by
  intro s e ht hp h1 h7 hfp
  have hrow : opcodeRow (opcodeField e.first) = none := opcodeRow_eq_none_of_lt (by omega)
  have hdecode : decode e = .error (.baseOpcode (opcodeField e.first)) := by
    rw [decode_of_opcodeRow_eq_none hrow, otherOpcode_base h1 h7]
  rw [step_of_decode_error ht hp hdecode]
  exact rejected_baseOpcode_of_fpReg s _ (any_isFpReg_iff.2 hfp)

end Machine

end Sys2Proof
end

section
/-! Correct rounding (rules R16, R89, R90). What a rounding mode asks for is said once of any set of magnitudes. Rounding
to an integer does it among the integers, so rounding to a multiple of the spacing does it among the multiples; and among
the values of a format because each of them that is no multiple of the spacing at `m` lies below a multiple that is not
above `m`. -/

namespace Sys2Proof

open Machine

/-! Signed values (rule R87). -/

theorem signed_mul (s : Bool) (x u : Rat) : signed s (x * u) = signed s x * u := by
  cases s
  · rfl
  · exact (neg_mul x u).symm

theorem signed_signed (s : Bool) (x : Rat) : signed s (signed s x) = x := by
  cases s
  · rfl
  · exact neg_neg x

theorem abs_signed_sub (s : Bool) (x y : Rat) : |signed s x - signed s y| = |x - y| := by
  cases s
  · rfl
  · exact neg_sub_neg x y ▸ abs_sub_comm y x

/-- A magnitude that is an integer, of either sign. -/
def IsInteger (x : Rat) : Prop := ∃ k : Int, x = k

theorem isInteger_signed (s : Bool) (k : Int) : IsInteger (signed s k) := by
  cases s
  · exact ⟨k, rfl⟩
  · exact ⟨-k, (Int.cast_neg k).symm⟩

/-! What a rounding mode asks for (rule R16). -/

/-- `r` is what a mode makes of the magnitude `m` of a value of sign `sg` among the magnitudes `S`; `even` is what
ties to even ask of `r`. -/
def RoundsIn (S : Rat → Prop) (even : Prop) (sg : Bool) (mode : RoundMode) (m r : Rat) : Prop :=
  match mode with
  | .up => signed sg m ≤ signed sg r ∧ ∀ x, S x → signed sg m ≤ signed sg x → signed sg r ≤ signed sg x
  | .down => signed sg r ≤ signed sg m ∧ ∀ x, S x → signed sg x ≤ signed sg m → signed sg x ≤ signed sg r
  | .towardZero => r ≤ m ∧ ∀ x, S x → x ≤ m → x ≤ r
  | .halfUp => ∀ x, S x → |m - r| ≤ |m - x| ∧ (|m - r| = |m - x| → signed sg x ≤ signed sg r)
  | .halfEven => ∀ x, S x → |m - r| ≤ |m - x| ∧ (|m - r| = |m - x| → x = r ∨ even)

theorem correctlyRounded_iff {F : Format} {sg : Bool} {mode : RoundMode} {m r : Rat} {b : Word} :
    CorrectlyRounded F sg mode m r b ↔ RoundsIn (Representable F) (fracField F b % 2 = 0) sg mode m r := by
  cases mode <;> rfl

section
variable {S T : Rat → Prop} {even even' : Prop} {sg : Bool} {mode : RoundMode} {m r : Rat}

theorem RoundsIn.mono_even (h : RoundsIn S even sg mode m r) (he : even → even') : RoundsIn S even' sg mode m r := by
  cases mode
  case halfEven => exact fun x hx => ⟨(h x hx).1, fun heq => ((h x hx).2 heq).imp_right he⟩
  all_goals exact h

/-- Rounding does not depend on the unit of measure. -/
theorem RoundsIn.scale (h : RoundsIn S even sg mode m r) {u : Rat} (hu : 0 < u) :
    RoundsIn (fun x => ∃ y, S y ∧ x = y * u) even sg mode (m * u) (r * u) := by
  have hle : ∀ {a b : Rat}, signed sg (a * u) ≤ signed sg (b * u) ↔ signed sg a ≤ signed sg b := by
    intro a b
    rw [signed_mul, signed_mul, mul_le_mul_iff_left₀ hu]
  have habs : ∀ a b : Rat, |a * u - b * u| = |a - b| * u := by
    intro a b
    rw [← sub_mul, abs_mul, abs_of_pos hu]
  cases mode
  case up =>
    refine ⟨hle.2 h.1, ?_⟩
    rintro _ ⟨y, hy, rfl⟩ hmy
    exact hle.2 (h.2 y hy (hle.1 hmy))
  case down =>
    refine ⟨hle.2 h.1, ?_⟩
    rintro _ ⟨y, hy, rfl⟩ hym
    exact hle.2 (h.2 y hy (hle.1 hym))
  case towardZero =>
    refine ⟨mul_le_mul_of_nonneg_right h.1 hu.le, ?_⟩
    rintro _ ⟨y, hy, rfl⟩ hym
    exact mul_le_mul_of_nonneg_right (h.2 y hy (le_of_mul_le_mul_right hym hu)) hu.le
  case halfUp =>
    rintro _ ⟨y, hy, rfl⟩
    rw [habs, habs, mul_le_mul_iff_left₀ hu, mul_left_inj' hu.ne', hle]
    exact h y hy
  case halfEven =>
    rintro _ ⟨y, hy, rfl⟩
    rw [habs, habs, mul_le_mul_iff_left₀ hu, mul_left_inj' hu.ne', mul_left_inj' hu.ne']
    exact h y hy

/-- Further magnitudes change no rounding of `m` where each lies below an old one that is not above `m`. -/
theorem RoundsIn.extend (h : RoundsIn T even sg mode m r)
    (hST : ∀ x, S x → T x ∨ ∃ y, T y ∧ x < y ∧ y ≤ m) : RoundsIn S even sg mode m r := by
  have hfar : ∀ {x y : Rat}, x < y → y ≤ m → |m - y| < |m - x| := by
    intro x y hxy hym
    rw [abs_of_nonneg (by linarith), abs_of_nonneg (by linarith)]
    linarith
  cases mode
  case up =>
    refine ⟨h.1, fun x hx hmx => ?_⟩
    rcases hST x hx with hT | ⟨y, hT, hxy, hym⟩
    · exact h.2 x hT hmx
    · cases sg
      · exact absurd hmx (hxy.trans_le hym).not_ge
      · exact (h.2 y hT (neg_le_neg hym)).trans (neg_le_neg hxy.le)
  case down =>
    refine ⟨h.1, fun x hx hxm => ?_⟩
    rcases hST x hx with hT | ⟨y, hT, hxy, hym⟩
    · exact h.2 x hT hxm
    · cases sg
      · exact hxy.le.trans (h.2 y hT hym)
      · exact absurd (neg_le_neg_iff.1 hxm) (hxy.trans_le hym).not_ge
  case towardZero =>
    refine ⟨h.1, fun x hx hxm => ?_⟩
    rcases hST x hx with hT | ⟨y, hT, hxy, hym⟩
    · exact h.2 x hT hxm
    · exact hxy.le.trans (h.2 y hT hym)
  case halfUp | halfEven =>
    intro x hx
    rcases hST x hx with hT | ⟨y, hT, hxy, hym⟩
    · exact h x hT
    · have hlt : |m - r| < |m - x| := (h y hT).1.trans_lt (hfar hxy hym)
      exact ⟨hlt.le, fun heq => absurd heq hlt.ne⟩

end

/-! Rounding to an integer (rule R89). -/

section
variable {q : Rat} (hq : 0 ≤ q) (sg : Bool)
include hq

/-- Rounding passes no integer. -/
theorem roundInt_le_of_le (mode : RoundMode) {k : Int} (h : q ≤ k) : (roundInt q sg mode : Rat) ≤ k := by
  have hnear := (abs_lt.1 (roundInt_near hq sg mode)).2
  have hlt : ((roundInt q sg mode : Int) : Rat) < ((k + 1 : Int) : Rat) := by push_cast; linarith
  exact_mod_cast Int.lt_add_one_iff.1 (Int.cast_lt.1 hlt)

theorem le_roundInt_of_le (mode : RoundMode) {k : Int} (h : (k : Rat) ≤ q) : (k : Rat) ≤ roundInt q sg mode := by
  have hnear := (abs_lt.1 (roundInt_near hq sg mode)).1
  have hlt : (k : Rat) < ((roundInt q sg mode + 1 : Int) : Rat) := by push_cast; linarith
  exact_mod_cast Int.lt_add_one_iff.1 (Int.cast_lt.1 hlt)

theorem signed_le_roundInt_up : signed sg q ≤ signed sg (roundInt q sg .up : Rat) := by
  have hlo := floor_toNat_le hq
  have hhi := lt_floor_toNat_add_one hq
  unfold roundInt
  dsimp only
  split_ifs with h0 hs
  · rw [← sub_eq_zero.1 h0]
  · subst hs
    exact neg_le_neg hlo
  · rw [Bool.eq_false_of_not_eq_true hs, Nat.cast_add_one]
    exact hhi.le

theorem roundInt_down_signed_le : signed sg (roundInt q sg .down : Rat) ≤ signed sg q := by
  have hlo := floor_toNat_le hq
  have hhi := lt_floor_toNat_add_one hq
  unfold roundInt
  dsimp only
  split_ifs with h0 hs
  · rw [← sub_eq_zero.1 h0]
  · subst hs
    rw [Nat.cast_add_one]
    exact neg_le_neg hhi.le
  · rw [Bool.eq_false_of_not_eq_true hs]
    exact hlo

theorem roundInt_towardZero_le : (roundInt q sg .towardZero : Rat) ≤ q := by
  simpa [roundInt] using floor_toNat_le hq

theorem abs_sub_floor : |q - (q.floor.toNat : Rat)| = q - (q.floor.toNat : Rat) :=
  abs_of_nonneg (sub_nonneg.2 (floor_toNat_le hq))

theorem abs_sub_floor_add_one :
    |q - ((q.floor.toNat + 1 : Nat) : Rat)| = 1 - (q - (q.floor.toNat : Rat)) := by
  have hhi := lt_floor_toNat_add_one hq
  rw [Nat.cast_add_one, abs_of_nonpos (by linarith)]
  ring

/-- Half Up keeps within a half, and a tie goes up (decision D21). -/
theorem roundInt_halfUp_near : |q - (roundInt q sg .halfUp : Rat)| ≤ 1 / 2 ∧
    (|q - (roundInt q sg .halfUp : Rat)| = 1 / 2 → signed sg q ≤ signed sg (roundInt q sg .halfUp : Rat)) := by
  have hlo := floor_toNat_le hq
  have hhi := lt_floor_toNat_add_one hq
  unfold roundInt
  dsimp only
  split_ifs with h0 habove hbelow hs
  · rw [h0]
    norm_num
  · rw [abs_sub_floor_add_one hq]
    exact ⟨by linarith, fun heq => by linarith⟩
  · rw [abs_sub_floor hq]
    exact ⟨hbelow.le, fun heq => absurd heq hbelow.ne⟩
  · subst hs
    rw [abs_sub_floor hq]
    exact ⟨not_lt.1 habove, fun _ => neg_le_neg hlo⟩
  · rw [abs_sub_floor_add_one hq, Bool.eq_false_of_not_eq_true hs, Nat.cast_add_one]
    exact ⟨by linarith, fun _ => hhi.le⟩

/-- Half Even keeps within a half, and a tie goes to the even integer. -/
theorem roundInt_halfEven_near : |q - (roundInt q sg .halfEven : Rat)| ≤ 1 / 2 ∧
    (|q - (roundInt q sg .halfEven : Rat)| = 1 / 2 → roundInt q sg .halfEven % 2 = 0) := by
  unfold roundInt
  dsimp only
  split_ifs with h0 habove hbelow heven
  · rw [h0]
    norm_num
  · rw [abs_sub_floor_add_one hq]
    exact ⟨by linarith, fun heq => by linarith⟩
  · rw [abs_sub_floor hq]
    exact ⟨hbelow.le, fun heq => absurd heq hbelow.ne⟩
  · rw [abs_sub_floor hq]
    exact ⟨not_lt.1 habove, fun _ => heven⟩
  · rw [abs_sub_floor_add_one hq]
    exact ⟨by linarith, fun _ => by omega⟩

end

/-- No integer is nearer than one within a half, and one as near is it itself or across a tie. -/
theorem nearest_of_half {q : Rat} {n : Nat} (h : |q - n| ≤ 1 / 2) (k : Int) :
    |q - n| ≤ |q - k| ∧ (|q - n| = |q - k| → (k : Rat) = n ∨ |q - n| = 1 / 2) := by
  by_cases hk : k = n
  · subst hk
    exact ⟨le_rfl, fun _ => .inl rfl⟩
  · have hone : (1 : Rat) ≤ |(n : Rat) - k| := by
      exact_mod_cast Int.one_le_abs (sub_ne_zero.2 (Ne.symm hk))
    have htri : |(n : Rat) - k| ≤ |q - n| + |q - k| := by
      rw [abs_sub_comm q n]
      exact abs_sub_le _ _ _
    exact ⟨by linarith, fun heq => .inr (by linarith)⟩

/-- Each mode rounds to an integer as rule R16 asks, among the integers. -/
theorem roundInt_roundsIn {q : Rat} (hq : 0 ≤ q) (sg : Bool) (mode : RoundMode) :
    RoundsIn IsInteger (roundInt q sg mode % 2 = 0) sg mode q (roundInt q sg mode) := by
  cases mode
  case up =>
    refine ⟨signed_le_roundInt_up hq sg, ?_⟩
    rintro _ ⟨k, rfl⟩ hk
    cases sg
    · exact roundInt_le_of_le hq _ _ hk
    · exact neg_le_neg (le_roundInt_of_le hq _ _ (neg_le_neg_iff.1 hk))
  case down =>
    refine ⟨roundInt_down_signed_le hq sg, ?_⟩
    rintro _ ⟨k, rfl⟩ hk
    cases sg
    · exact le_roundInt_of_le hq _ _ hk
    · exact neg_le_neg (roundInt_le_of_le hq _ _ (neg_le_neg_iff.1 hk))
  case towardZero =>
    refine ⟨roundInt_towardZero_le hq sg, ?_⟩
    rintro _ ⟨k, rfl⟩ hk
    exact le_roundInt_of_le hq _ _ hk
  case halfUp =>
    obtain ⟨hhalf, htie⟩ := roundInt_halfUp_near hq sg
    rintro _ ⟨k, rfl⟩
    refine ⟨(nearest_of_half hhalf k).1, fun heq => ?_⟩
    rcases (nearest_of_half hhalf k).2 heq with hk | hk
    · rw [hk]
    · have hsk : |signed sg q - signed sg k| = 1 / 2 := by rw [abs_signed_sub, ← heq, hk]
      have hsr : |signed sg q - signed sg (roundInt q sg .halfUp : Rat)| = 1 / 2 := by rw [abs_signed_sub, hk]
      rw [abs_of_nonpos (sub_nonpos.2 (htie hk))] at hsr
      have hlow := (abs_le.1 hsk.le).1
      linarith
  case halfEven =>
    obtain ⟨hhalf, htie⟩ := roundInt_halfEven_near hq sg
    rintro _ ⟨k, rfl⟩
    exact ⟨(nearest_of_half hhalf k).1, fun heq => ((nearest_of_half hhalf k).2 heq).imp_right htie⟩

/-- Settles O23: an integer is the signed value of an integer magnitude, so the modes read among the integer magnitudes
are the modes read among the integers. -/
theorem roundIntModes : Obligations.RoundIntModes := by
  intro q sg hq
  have hround := roundInt_roundsIn hq sg
  refine ⟨⟨(hround .up).1, fun k hk => ?_⟩, ⟨(hround .down).1, fun k hk => ?_⟩,
    ⟨(hround .towardZero).1, fun n hn => ?_⟩, fun k => ?_, fun k => ?_⟩
  · simpa [signed_signed] using (hround .up).2 _ (isInteger_signed sg k) (by rwa [signed_signed])
  · simpa [signed_signed] using (hround .down).2 _ (isInteger_signed sg k) (by rwa [signed_signed])
  · exact_mod_cast (hround .towardZero).2 n ⟨n, rfl⟩ hn
  · have h := hround .halfUp _ (isInteger_signed sg k)
    rwa [signed_signed, ← abs_signed_sub sg q, ← abs_signed_sub sg q, signed_signed] at h
  · obtain ⟨hle, htie⟩ := hround .halfEven _ (isInteger_signed sg k)
    rw [← abs_signed_sub sg q, ← abs_signed_sub sg q, signed_signed] at hle htie
    exact ⟨hle, fun heq => (htie heq).imp_left fun hk => by rw [← hk, signed_signed]⟩

end Sys2Proof
end

section
/-! The patterns of a format and the spacing of its values (rules R86 to R88, R90). A value of the format is a
significand below `2 ^ (p + 1)` times a power of two from the least spacing on, `p` the number of fraction bits; a
multiple of the spacing at `m` on which a rounding of `m` falls is one of them, and its pattern is the encoder's. -/

namespace Sys2Proof

open Machine

section
variable {F : Format} (hF : isFormat F)
include hF

theorem fracBits_pos : 0 < F.fracBits := by
  rcases hF with rfl | rfl | rfl <;> decide

theorem bias_pos : 0 < F.bias := by
  rcases hF with rfl | rfl | rfl <;> decide

/-- The exponent field of infinities and NaNs is one above that of the largest exponent. -/
theorem two_pow_expBits : 2 ^ F.expBits = 2 * F.bias + 2 := by
  rcases hF with rfl | rfl | rfl <;> decide

end

/-! Binary logarithms. -/

theorem lt_of_pow2_lt {a b : Int} (h : pow2 a < pow2 b) : a < b :=
  not_le.1 fun hle => (pow2_le hle).not_gt h

theorem floorLog2_eq {m : Rat} {e : Int} (hlo : pow2 e ≤ m) (hhi : m < pow2 (e + 1)) : floorLog2 m = e := by
  obtain ⟨hlo', hhi'⟩ := floorLog2_bounds ((pow2_pos e).trans_le hlo)
  have h1 := lt_of_pow2_lt (hlo.trans_lt hhi')
  have h2 := lt_of_pow2_lt (hlo'.trans_lt hhi)
  omega

theorem two_pow_mul_pow2 (n : Nat) (k : Int) : ((2 ^ n : Nat) : Rat) * pow2 k = pow2 (k + n) := by
  rw [Nat.cast_pow, Nat.cast_ofNat, ← pow2_natCast, ← pow2_add, add_comm]

theorem floor_toNat_natCast (n : Nat) : ((n : Rat).floor).toNat = n := by
  rw [← Int.cast_natCast, Rat.floor_intCast, Int.toNat_natCast]

/-! The values of a format and their patterns (rules R87, R88). -/

/-- A normal value, with its significand as an integer. -/
theorem normal_value (F : Format) (t : Nat) (e : Int) :
    (1 + (t : Rat) * pow2 (-(F.fracBits : Int))) * pow2 e =
      ((2 ^ F.fracBits + t : Nat) : Rat) * pow2 (e - F.fracBits) := by
  have hp := pow2_natCast F.fracBits
  rw [sub_eq_add_neg, pow2_add]
  have hone : pow2 F.fracBits * pow2 (-(F.fracBits : Int)) = 1 := by
    rw [← pow2_add, add_neg_cancel, pow2_eq_zpow, zpow_zero]
  push_cast
  rw [← hp]
  linear_combination (-pow2 e) * hone

section
variable {F : Format} (hF : isFormat F) (s : Bool) {t : Nat} (ht : t < 2 ^ F.fracBits)
include hF ht

theorem decodeFp_packFp_denormal : decodeFp F (packFp F s 0 t) = .fin s (t * minSub F) := by
  have he : 0 < 2 ^ F.expBits := Nat.two_pow_pos _
  have hne : 0 ≠ 2 ^ F.expBits - 1 := by
    have := two_pow_expBits hF
    omega
  simp only [decodeFp, signField_packFp hF s he ht, expField_packFp hF s he ht, fracField_packFp hF s he ht, hne,
    if_false, if_true, minSub]

theorem decodeFp_packFp_normal {e : Int} (hlo : F.emin ≤ e) (hhi : e ≤ F.bias) :
    decodeFp F (packFp F s (e + F.bias).toNat t) = .fin s ((2 ^ F.fracBits + t : Nat) * pow2 (e - F.fracBits)) := by
  have hexp := two_pow_expBits hF
  simp only [Format.emin] at hlo
  have he : (e + F.bias).toNat < 2 ^ F.expBits := by omega
  have hmax : (e + F.bias).toNat ≠ 2 ^ F.expBits - 1 := by omega
  have hmin : (e + F.bias).toNat ≠ 0 := by omega
  have hval : ((e + F.bias).toNat : Int) - F.bias = e := by omega
  simp only [decodeFp, signField_packFp hF s he ht, expField_packFp hF s he ht, fracField_packFp hF s he ht, hmax,
    hmin, if_false, hval, normal_value]

end

section
variable (F : Format) (s : Bool) {t : Nat} (ht : t < 2 ^ F.fracBits)
include ht

theorem encFin_denormal : encFin F s (t * minSub F) = packFp F s 0 t := by
  have hlt : (t : Rat) * minSub F < minNorm F :=
    calc (t : Rat) * minSub F < ((2 ^ F.fracBits : Nat) : Rat) * minSub F :=
          mul_lt_mul_of_pos_right (Nat.cast_lt.2 ht) (pow2_pos _)
      _ = minNorm F := by rw [minSub, two_pow_mul_pow2, sub_add_cancel, minNorm]
  have hfloor : ((t : Rat) * minSub F / minSub F).floor.toNat = t := by
    rw [minSub, mul_div_cancel_right₀ _ (pow2_ne_zero _), floor_toNat_natCast]
  rw [encFin, if_pos hlt, hfloor]

theorem normal_bounds (e : Int) :
    pow2 e ≤ ((2 ^ F.fracBits + t : Nat) : Rat) * pow2 (e - F.fracBits) ∧
    ((2 ^ F.fracBits + t : Nat) : Rat) * pow2 (e - F.fracBits) < pow2 (e + 1) := by
  have hlow : ((2 ^ F.fracBits : Nat) : Rat) * pow2 (e - F.fracBits) = pow2 e := by
    rw [two_pow_mul_pow2, sub_add_cancel]
  have hhigh : ((2 ^ (F.fracBits + 1) : Nat) : Rat) * pow2 (e - F.fracBits) = pow2 (e + 1) := by
    rw [two_pow_mul_pow2]
    congr 1
    omega
  have hlt : 2 ^ F.fracBits + t < 2 ^ (F.fracBits + 1) := by
    rw [pow_succ]
    omega
  rw [← hlow, ← hhigh]
  exact ⟨mul_le_mul_of_nonneg_right (Nat.cast_le.2 (Nat.le_add_right _ _)) (pow2_pos _).le,
    mul_lt_mul_of_pos_right (Nat.cast_lt.2 hlt) (pow2_pos _)⟩

theorem encFin_normal {e : Int} (he : F.emin ≤ e) :
    encFin F s ((2 ^ F.fracBits + t : Nat) * pow2 (e - F.fracBits)) = packFp F s (e + F.bias).toNat t := by
  obtain ⟨hlo, hhi⟩ := normal_bounds F ht e
  have hge : ¬ ((2 ^ F.fracBits + t : Nat) : Rat) * pow2 (e - F.fracBits) < minNorm F :=
    ((pow2_le he).trans hlo).not_gt
  have hsig : (((2 ^ F.fracBits + t : Nat) : Rat) * pow2 (e - F.fracBits) / pow2 (e - F.fracBits)).floor.toNat =
      2 ^ F.fracBits + t := by
    rw [mul_div_cancel_right₀ _ (pow2_ne_zero _), floor_toNat_natCast]
  simp only [encFin, hge, if_false, floorLog2_eq hlo hhi, hsig, Nat.add_sub_cancel_left]

end

/-- A value of a format is a significand of `p + 1` bits times a power of two from the least spacing on. -/
theorem representable_significand {F : Format} {x : Rat} (h : Representable F x) :
    ∃ (n : Nat) (k : Int), n < 2 ^ (F.fracBits + 1) ∧ F.emin - F.fracBits ≤ k ∧ x = n * pow2 k := by
  obtain ⟨b, sg, hb⟩ := h
  have ht : fracField F b < 2 ^ F.fracBits := Nat.mod_lt _ (Nat.two_pow_pos _)
  rw [pow_succ]
  unfold decodeFp at hb
  dsimp only at hb
  split_ifs at hb with hinf hzero hsub
  · cases hb
    exact ⟨fracField F b, _, by omega, le_rfl, rfl⟩
  · cases hb
    refine ⟨2 ^ F.fracBits + fracField F b, _, by omega, ?_, normal_value F _ _⟩
    simp only [Format.emin]
    omega

/-! The spacing of the values at a magnitude (rule R90). -/

/-- The exponent of the spacing at a magnitude. -/
def gridExp (F : Format) (m : Rat) : Int := max (floorLog2 m) F.emin - F.fracBits

section
variable (F : Format) {m : Rat} (hm : 0 < m)
include hm

theorem minNorm_le_iff : minNorm F ≤ m ↔ F.emin ≤ floorLog2 m := by
  obtain ⟨hlo, hhi⟩ := floorLog2_bounds hm
  constructor
  · intro h
    have := lt_of_pow2_lt (h.trans_lt hhi)
    omega
  · exact fun h => (pow2_le h).trans hlo

theorem ulpAt_eq_pow2 : ulpAt F m = pow2 (gridExp F m) := by
  unfold ulpAt gridExp
  split_ifs with h
  · rw [max_eq_left ((minNorm_le_iff F hm).1 h)]
  · rw [max_eq_right (not_le.1 (mt (minNorm_le_iff F hm).2 h)).le, minSub]

/-- In units of the spacing, a magnitude has at most the `p + 1` bits of a significand. -/
theorem div_ulpAt_lt : m / ulpAt F m < ((2 ^ (F.fracBits + 1) : Nat) : Rat) := by
  rw [ulpAt_eq_pow2 F hm, div_lt_iff₀ (pow2_pos _), two_pow_mul_pow2]
  refine (floorLog2_bounds hm).2.trans_le (pow2_le ?_)
  unfold gridExp
  omega

/-- Where the spacing is not the least one, the significand of a magnitude has `p + 1` bits. -/
theorem le_div_ulpAt (h : F.emin - F.fracBits < gridExp F m) : ((2 ^ F.fracBits : Nat) : Rat) ≤ m / ulpAt F m := by
  rw [ulpAt_eq_pow2 F hm, le_div_iff₀ (pow2_pos _), two_pow_mul_pow2]
  refine le_trans (pow2_le ?_) (floorLog2_bounds hm).1
  unfold gridExp at h ⊢
  omega

/-- A value of the format is a multiple of the spacing at `m`, or below a multiple that is not above `m`. -/
theorem representable_grid {x : Rat} (h : Representable F x) :
    (∃ n : Nat, x = n * ulpAt F m) ∨ ∃ n : Nat, x < n * ulpAt F m ∧ n * ulpAt F m ≤ m := by
  obtain ⟨n, k, hn, hk, rfl⟩ := representable_significand h
  by_cases hle : gridExp F m ≤ k
  · obtain ⟨j, hj⟩ := Int.eq_ofNat_of_zero_le (sub_nonneg.2 hle)
    refine .inl ⟨n * 2 ^ j, ?_⟩
    rw [ulpAt_eq_pow2 F hm, Nat.cast_mul, mul_assoc, two_pow_mul_pow2]
    congr 2
    omega
  · refine .inr ⟨2 ^ F.fracBits, ?_, (le_div_iff₀ ?_).1 (le_div_ulpAt F hm (by omega))⟩
    · calc (n : Rat) * pow2 k < ((2 ^ (F.fracBits + 1) : Nat) : Rat) * pow2 k :=
            mul_lt_mul_of_pos_right (Nat.cast_lt.2 hn) (pow2_pos _)
        _ ≤ ((2 ^ F.fracBits : Nat) : Rat) * ulpAt F m := by
            rw [ulpAt_eq_pow2 F hm, two_pow_mul_pow2, two_pow_mul_pow2]
            exact pow2_le (by omega)
    · rw [ulpAt_eq_pow2 F hm]
      exact pow2_pos _

end

/-! The largest finite magnitude (rule R86). -/

theorem maxFinite_eq_normal (F : Format) :
    maxFinite F = ((2 ^ F.fracBits + (2 ^ F.fracBits - 1) : Nat) : Rat) * pow2 (F.bias - F.fracBits) := by
  have hone : ((2 ^ F.fracBits : Nat) : Rat) * pow2 (-(F.fracBits : Int)) = 1 := by
    rw [two_pow_mul_pow2, neg_add_cancel, pow2_eq_zpow, zpow_zero]
  rw [← normal_value, Nat.cast_sub Nat.one_le_two_pow, sub_mul, hone, maxFinite, Nat.cast_one]
  ring

theorem maxFinite_lt (F : Format) : maxFinite F < pow2 (F.bias + 1) := by
  rw [maxFinite_eq_normal]
  exact (normal_bounds F (Nat.sub_lt (Nat.two_pow_pos _) one_pos) F.bias).2

theorem representable_maxFinite {F : Format} (hF : isFormat F) : Representable F (maxFinite F) := by
  have hmin : F.emin ≤ F.bias := by
    have := bias_pos hF
    simp only [Format.emin]
    omega
  rw [maxFinite_eq_normal]
  exact ⟨_, false, decodeFp_packFp_normal hF false (Nat.sub_lt (Nat.two_pow_pos _) one_pos) hmin le_rfl⟩

/-! The encoder on the multiples of a spacing (rule R88). -/

section
variable {F : Format} (hF : isFormat F) (s : Bool)
include hF

/-- Up to the largest finite magnitude, a normal magnitude is decoded from its encoding. -/
theorem decodeFp_encFin_normal {t : Nat} (ht : t < 2 ^ F.fracBits) {e : Int} (he : F.emin ≤ e)
    (hmax : ((2 ^ F.fracBits + t : Nat) : Rat) * pow2 (e - F.fracBits) ≤ maxFinite F) :
    decodeFp F (encFin F s ((2 ^ F.fracBits + t : Nat) * pow2 (e - F.fracBits))) =
      .fin s ((2 ^ F.fracBits + t : Nat) * pow2 (e - F.fracBits)) ∧
    fracField F (encFin F s ((2 ^ F.fracBits + t : Nat) * pow2 (e - F.fracBits))) = t := by
  have hbias : e ≤ F.bias :=
    Int.lt_add_one_iff.1 (lt_of_pow2_lt (((normal_bounds F ht e).1.trans hmax).trans_lt (maxFinite_lt F)))
  have hexp : (e + F.bias).toNat < 2 ^ F.expBits := by
    have := two_pow_expBits hF
    omega
  rw [encFin_normal F s ht he]
  exact ⟨decodeFp_packFp_normal hF s ht he hbias, fracField_packFp hF s hexp ht⟩

/-- A multiple of a spacing that is a value of the format is decoded from its encoding, whose fraction is even where
the multiple is. The last multiple of a binade is the first of the next. -/
theorem decodeFp_encFin_multiple {n : Nat} {k : Int} (hk : F.emin - F.fracBits ≤ k)
    (hhi : n ≤ 2 ^ (F.fracBits + 1)) (hlo : F.emin - F.fracBits < k → 2 ^ F.fracBits ≤ n)
    (hmax : n * pow2 k ≤ maxFinite F) :
    decodeFp F (encFin F s (n * pow2 k)) = .fin s (n * pow2 k) ∧
    (n % 2 = 0 → fracField F (encFin F s (n * pow2 k)) % 2 = 0) := by
  by_cases hden : n < 2 ^ F.fracBits
  · obtain rfl : k = F.emin - F.fracBits := by omega
    change decodeFp F (encFin F s (n * minSub F)) = .fin s (n * minSub F) ∧
      (n % 2 = 0 → fracField F (encFin F s (n * minSub F)) % 2 = 0)
    rw [encFin_denormal F s hden, fracField_packFp hF s (Nat.two_pow_pos _) hden]
    exact ⟨decodeFp_packFp_denormal hF s hden, id⟩
  rcases hhi.lt_or_eq with hlt | rfl
  · obtain ⟨t, rfl⟩ := Nat.exists_eq_add_of_le (not_lt.1 hden)
    have ht : t < 2 ^ F.fracBits := by
      rw [pow_succ] at hlt
      omega
    have heven : 2 ^ F.fracBits % 2 = 0 := Nat.mod_eq_zero_of_dvd (dvd_pow_self 2 (fracBits_pos hF).ne')
    obtain ⟨e, rfl⟩ : ∃ e : Int, k = e - F.fracBits := ⟨k + F.fracBits, by omega⟩
    obtain ⟨hdec, hfrac⟩ := decodeFp_encFin_normal hF s ht (by omega) hmax
    exact ⟨hdec, by omega⟩
  · have hcarry : ((2 ^ (F.fracBits + 1) : Nat) : Rat) * pow2 k =
        ((2 ^ F.fracBits + 0 : Nat) : Rat) * pow2 (k + F.fracBits + 1 - F.fracBits) := by
      rw [Nat.add_zero (2 ^ F.fracBits), two_pow_mul_pow2, two_pow_mul_pow2]
      congr 1
      omega
    rw [hcarry] at hmax ⊢
    obtain ⟨hdec, hfrac⟩ := decodeFp_encFin_normal hF s (Nat.two_pow_pos _) (by omega) hmax
    exact ⟨hdec, by omega⟩

end

/-! `RoundFP` in range (rule R90). -/

section
variable {F : Format} {m : Rat} (hm : 0 < m) (sg : Bool) (mode : RoundMode)
include hm

theorem ulpAt_pos : 0 < ulpAt F m := by
  rw [ulpAt_eq_pow2 F hm]
  exact pow2_pos _

/-- Rounding to a multiple of the spacing at `m` is rounding to a value of the format. -/
theorem roundTo_ulpAt_roundsIn : RoundsIn (Representable F) (roundInt (m / ulpAt F m) sg mode % 2 = 0) sg mode m
    (roundTo (ulpAt F m) m sg mode) := by
  have hu : 0 < ulpAt F m := ulpAt_pos hm
  have hscaled := (roundInt_roundsIn (div_pos hm hu).le sg mode).scale hu
  rw [div_mul_cancel₀ _ hu.ne'] at hscaled
  refine hscaled.extend fun x hx => ?_
  rcases representable_grid F hm hx with ⟨n, hn⟩ | ⟨n, hxn, hnm⟩
  · exact .inl ⟨n, ⟨n, (Int.cast_natCast n).symm⟩, hn⟩
  · exact .inr ⟨_, ⟨n, ⟨n, (Int.cast_natCast n).symm⟩, rfl⟩, hxn, hnm⟩

/-- Rounding in range stays in range: the largest finite magnitude is a multiple of every spacing below it. -/
theorem roundTo_ulpAt_le_maxFinite (hF : isFormat F) (hmax : m ≤ maxFinite F) :
    roundTo (ulpAt F m) m sg mode ≤ maxFinite F := by
  have hu : 0 < ulpAt F m := ulpAt_pos hm
  rcases representable_grid F hm (representable_maxFinite hF) with ⟨n, hn⟩ | ⟨n, hlt, hle⟩
  · have hq : m / ulpAt F m ≤ ((n : Int) : Rat) := by
      rw [div_le_iff₀ hu, Int.cast_natCast, ← hn]
      exact hmax
    rw [hn]
    exact mul_le_mul_of_nonneg_right (roundInt_le_of_le (div_pos hm hu).le sg mode hq) hu.le
  · exact absurd (hlt.trans_le hle) hmax.not_gt

/-- In range, what is rounded to is decoded from its encoding, whose fraction is even where the significand is. -/
theorem decodeFp_encFin_roundTo (hF : isFormat F) (hmax : m ≤ maxFinite F) :
    decodeFp F (encFin F sg (roundTo (ulpAt F m) m sg mode)) = .fin sg (roundTo (ulpAt F m) m sg mode) ∧
    (roundInt (m / ulpAt F m) sg mode % 2 = 0 →
      fracField F (encFin F sg (roundTo (ulpAt F m) m sg mode)) % 2 = 0) := by
  have hq : 0 ≤ m / ulpAt F m := (div_pos hm (ulpAt_pos hm)).le
  have hhi : roundInt (m / ulpAt F m) sg mode ≤ 2 ^ (F.fracBits + 1) := by
    exact_mod_cast roundInt_le_of_le hq sg mode (k := ((2 ^ (F.fracBits + 1) : Nat) : Int)) (div_ulpAt_lt F hm).le
  have hlo : F.emin - F.fracBits < gridExp F m → 2 ^ F.fracBits ≤ roundInt (m / ulpAt F m) sg mode := fun h => by
    exact_mod_cast le_roundInt_of_le hq sg mode (k := ((2 ^ F.fracBits : Nat) : Int)) (le_div_ulpAt F hm h)
  have hk : F.emin - F.fracBits ≤ gridExp F m := sub_le_sub_right (le_max_right _ _) _
  have hle := roundTo_ulpAt_le_maxFinite hm sg mode hF hmax
  unfold roundTo at hle ⊢
  rw [ulpAt_eq_pow2 F hm] at hle hhi hlo ⊢
  exact decodeFp_encFin_multiple hF sg hk hhi hlo hle

theorem roundFpExact_inRange {denorm : Bool} (hmin : leastKept F denorm ≤ m) (hmax : m ≤ maxFinite F) :
    roundFpExact sg m F mode denorm =
      (encFin F sg (roundTo (ulpAt F m) m sg mode), inexactIf (roundTo (ulpAt F m) m sg mode) m) := by
  simp only [roundFpExact, hm.ne', hmax.not_gt, hmin.not_gt, if_false]

end

/-- Settles O25: in range `RoundFP` rounds to a multiple of the spacing, which is rounding to a value of the format, and
the value is decoded from the pattern delivered. -/
theorem deliveryIsCorrectlyRounded : Obligations.DeliveryIsCorrectlyRounded := by
  intro F sg m mode denorm hF hm hmin hmax
  obtain ⟨hdec, heven⟩ := decodeFp_encFin_roundTo hm sg mode hF hmax
  have hround := (roundTo_ulpAt_roundsIn hm sg mode).mono_even heven
  rw [roundFp, roundFpExact_inRange hm sg mode hmin hmax]
  exact ⟨_, hdec, correctlyRounded_iff.2 hround, rfl⟩

end Sys2Proof
end

section
/-! The results of the converting moves (rules R104 to R108). The checks of a ready move pass, so the instruction is the
end of its operation on the value it delivers; that end is the state of the rules, or the trap, by `finish_ends`. -/

namespace Sys2Proof

/-! The patterns `cvtf` makes of a NaN (rules R93, R108). -/

theorem isFormat_formatOf (z : OpSize) : Machine.isFormat (formatOf z) := by
  cases z
  case b4 => exact .inr (.inl rfl)
  case b8 => exact .inr (.inr rfl)
  all_goals exact .inl rfl

section
variable {F : Format} (hF : Machine.isFormat F) (s : Bool)
include hF

theorem decodeFp_encNaN {t : Nat} (h0 : t ≠ 0) (ht : t < 2 ^ F.fracBits) : decodeFp F (encNaN F s t) = .nan s t := by
  have he : 2 ^ F.expBits - 1 < 2 ^ F.expBits := Nat.sub_lt (Nat.two_pow_pos _) one_pos
  simp only [decodeFp, encNaN, signField_packFp hF s he ht, expField_packFp hF s he ht, fracField_packFp hF s he ht,
    h0, if_true, if_false]

theorem decodeFp_qNaN : decodeFp F (qNaN F s) = .nan s (2 ^ (F.fracBits - 1)) :=
  decodeFp_encNaN hF s (Nat.two_pow_pos _).ne'
    (Nat.pow_lt_pow_right one_lt_two (Nat.sub_lt (fracBits_pos hF) one_pos))

/-- A NaN of free payload is a NaN of the sign asked for, whatever is drawn. -/
theorem decodeFp_drawNaN (draw : Nat) : ∃ t, decodeFp F (drawNaN F s draw) = .nan s t := by
  unfold drawNaN
  dsimp only
  split_ifs with h0
  · exact ⟨_, decodeFp_qNaN hF s⟩
  · exact ⟨_, decodeFp_encNaN hF s h0 (Nat.mod_lt _ (Nat.two_pow_pos _))⟩

end

/-! The value that an integer source delivers (rules R102, R104, R105). -/

theorem magOf_eq_abs (v : Rat) : magOf v = |v| := by
  unfold magOf
  split_ifs with h
  · exact (abs_of_neg h).symm
  · exact (abs_of_nonneg (not_lt.1 h)).symm

theorem signOf_intCast (n : Int) : signOf (n : Rat) = decide (n < 0) := by
  simp only [signOf, Int.cast_lt_zero]

theorem fixValue_eq_div (z : OpSize) (fb : Nat) (w : Word) : fixValue z fb w = (z.sint w : Rat) / 2 ^ fb := by
  rw [fixValue, pow2_eq_zpow, zpow_neg, zpow_natCast, div_eq_mul_inv]

/-- A fixed-point value has the sign of its integer. -/
theorem signOf_fixValue (z : OpSize) (fb : Nat) (w : Word) : signOf (fixValue z fb w) = decide (z.sint w < 0) := by
  rw [signOf, fixValue_eq_div, decide_eq_decide, div_lt_iff₀ (by positivity), zero_mul, Int.cast_lt_zero]

namespace Machine

/-! What a ready converting move gives (rule R80). -/

section
variable {s : State} {i : Instr} {d src : Operand} {w : Word} (h : MoveReady s i d src w)
include h

theorem MoveReady.admitted : moveVerdict s i = .admitted := by
  obtain ⟨_, _, hv, _, _⟩ := h
  exact hv

theorem MoveReady.readOp_eq : s.readOp src = .ok w := by
  obtain ⟨_, _, _, hr, _⟩ := h
  exact hr

theorem MoveReady.writable : Writable s d := by
  obtain ⟨_, _, _, _, hw⟩ := h
  exact hw

end

/-! The end of an instruction that delivers a result (rules R172 to R174). -/

/-- An instruction that has come to the end of its operation, with a result that can be committed. -/
theorem endsIn_of_finish {i : Instr} {s u t : State} {e : List FpExc} {commit : State → Except Stop State}
    (hi : exec i s = s.settle (s.finish e commit)) (hc : commit (s.record e) = .ok u) (ht : u.advance = t)
    (hip : t.ip = s.ip + 1) (hd : t.draws = s.draws + 1) : EndsIn s i e t := by
  obtain ⟨hmasked, htrap⟩ := finish_ends hc ht hip hd
  refine ⟨fun h => ?_, fun h => ?_⟩
  · rw [hi, hmasked h, settle_ok]
  · rw [hi, htrap h, settle_ok]

/-- With no exception there is no trap. -/
theorem EndsIn.next {s : State} {i : Instr} {t : State} (h : EndsIn s i [] t) : exec i s = .next t :=
  h.1 nofun

section
variable {s : State} {i : Instr} {f : Bool} {d src : Operand} {w : Word} {e : List FpExc}
  (hi : moveParts i = some (f, d, src)) (h : MoveReady s i d src w)
include hi h

/-- A ready converting move that delivers a floating-point pattern. -/
theorem endsIn_moveFpNext {b : Word} (he : exec i s = s.settle (s.finish e (commitFp f d b))) :
    EndsIn s i e (moveFpNext s f d b e) := by
  obtain ⟨u, hu, hadv⟩ := commitFp_next (f := f) (b := b) (e := e) (notFlags_of_move hi h.admitted) h.writable
  exact endsIn_of_finish he hu hadv rfl rfl

/-- A ready converting move that delivers an integer. -/
theorem endsIn_moveIntNext {r : Int} (he : exec i s = s.settle (s.finish e (commitInt f d r))) :
    EndsIn s i e (moveIntNext s f d r e) := by
  obtain ⟨u, hu, hadv⟩ := commitInt_next (f := f) (r := r) (e := e) (notFlags_of_move hi h.admitted) h.writable
  exact endsIn_of_finish he hu hadv rfl rfl

end

/-! Each converting move, where it is ready, is the end of its operation. -/

section
variable {s : State} {f : Bool} {d src : Operand} {w : Word} {mode : RoundMode}

theorem moveToFp_of_ready {i : Instr} {value : OpSize → Word → Rat} {r : Word × List FpExc}
    (h : MoveReady s i d src w) (hv : toFpConstraint s d src = .admitted) (hm : RoundMode.ofRnd s.rnd = some mode)
    (hr : r = roundTowards s mode d (value (opSize src) w)) :
    moveToFp value f d src s = s.finish r.2 (commitFp f d r.1) := by
  simp only [moveToFp, move_checks h hv, roundMode_ok hm, h.readOp_eq, hr]

theorem exec_movsif_of_ready {r : Word × List FpExc} (h : MoveReady s (.movsif f d src) d src w)
    (hm : RoundMode.ofRnd s.rnd = some mode) (hr : r = roundTowards s mode d ((opSize src).sint w)) :
    exec (.movsif f d src) s = s.settle (s.finish r.2 (commitFp f d r.1)) :=
  congrArg s.settle (moveToFp_of_ready h h.admitted hm hr)

theorem exec_movxf_of_ready {ss : Fin 4} {i : Bool} {r : Word × List FpExc}
    (h : MoveReady s (.movxf ss i f d src) d src w) (hm : RoundMode.ofRnd s.rnd = some mode)
    (hr : r = roundTowards s mode d (fixValue (opSize src) (fracBitsOf (opSize src) ss i) w)) :
    exec (.movxf ss i f d src) s = s.settle (s.finish r.2 (commitFp f d r.1)) :=
  congrArg s.settle (moveToFp_of_ready h h.admitted hm hr)

theorem exec_movfsi_of_ready {r : Int × List FpExc} (h : MoveReady s (.movfsi f d src) d src w)
    (hr : r = truncateToInt s.impl.signalling (formatOf (opSize src)) w (opSize d)) :
    exec (.movfsi f d src) s = s.settle (s.finish r.2 (commitInt f d r.1)) := by
  have hc : fpCommonChecks s (fromFpConstraint s d src) true (moveAccesses d src) = .ok () := move_checks h h.admitted
  simp only [exec, execMovfsi, hc, h.readOp_eq, hr]

theorem exec_movfx_of_ready {ss : Fin 4} {i : Bool} {r : Int × List FpExc}
    (h : MoveReady s (.movfx ss i f d src) d src w) (hm : RoundMode.ofRnd s.rnd = some mode)
    (hr : r = roundToFixed s.impl.signalling mode (formatOf (opSize src)) w (opSize d)
      (fracBitsOf (opSize d) ss i)) :
    exec (.movfx ss i f d src) s = s.settle (s.finish r.2 (commitInt f d r.1)) := by
  have hc : fpCommonChecks s (fromFpConstraint s d src) true (moveAccesses d src) = .ok () := move_checks h h.admitted
  simp only [exec, execMovfx, hc, roundMode_ok hm, h.readOp_eq, hr]

/-- A ready `cvtf` ends with the conversion of what its source holds (rule R108). -/
theorem endsIn_cvtf {r : Word × List FpExc} (h : MoveReady s (.cvtf f d src) d src w)
    (hm : RoundMode.ofRnd s.rnd = some mode)
    (hr : r = convertFormat s mode (formatOf (opSize src)) (formatOf (opSize d)) w) :
    EndsIn s (.cvtf f d src) r.2 (moveFpNext s f d r.1 r.2) := by
  refine endsIn_moveFpNext rfl h ?_
  have hc : fpCommonChecks s (cvtfConstraint s d src) true (moveAccesses d src) = .ok () := move_checks h h.admitted
  simp only [exec, execCvtf, hc, roundMode_ok hm, h.readOp_eq, hr]

end

/-- What `movsif` delivers, in the terms of rule R104. -/
theorem roundTowards_intCast (s : State) (mode : RoundMode) (d : Operand) (n : Int) :
    roundTowards s mode d n =
      roundFp s.impl.rangeCheck (decide (n < 0)) |(n : Rat)| (formatOf (opSize d)) mode s.denorm := by
  rw [roundTowards, signOf_intCast, magOf_eq_abs]

/-- What `movxf` delivers, in the terms of rule R105. -/
theorem roundTowards_fixValue (s : State) (mode : RoundMode) (d : Operand) (z : OpSize) (fb : Nat) (w : Word) :
    roundTowards s mode d (fixValue z fb w) =
      roundFp s.impl.rangeCheck (decide (z.sint w < 0)) |(z.sint w : Rat) / 2 ^ fb| (formatOf (opSize d)) mode
        s.denorm := by
  rw [roundTowards, signOf_fixValue, magOf_eq_abs, fixValue_eq_div]

/-! What `cvtf` delivers, by the class of its source's value (rule R108). -/

section
variable {s : State} {mode : RoundMode} {F Fd : Format} {b : Word} {sg : Bool}

theorem convertFormat_fin {m : Rat} (h : decodeFp F b = .fin sg m) :
    convertFormat s mode F Fd b = roundFp s.impl.rangeCheck sg m Fd mode s.denorm := by
  simp only [convertFormat, h]

theorem convertFormat_inf (h : decodeFp F b = .inf sg) : convertFormat s mode F Fd b = (encInf Fd sg, []) := by
  simp only [convertFormat, h]

theorem convertFormat_nan {t : Nat} (h : decodeFp F b = .nan sg t) :
    convertFormat s mode F Fd b = (drawNaN Fd (Config.nanSign s.draws) s.draws, []) := by
  simp only [convertFormat, h]

end

/-- Settles O38: a ready `movsif` or `movxf` ends with the delivery of its value. -/
theorem integerToFloat : Obligations.IntegerToFloat := by
  intro f d src s w mode ss i hm
  refine ⟨?_, ?_⟩
  · rintro h r rfl
    rw [← roundTowards_intCast]
    exact endsIn_moveFpNext rfl h (exec_movsif_of_ready h hm rfl)
  · rintro h r rfl
    rw [← roundTowards_fixValue]
    exact endsIn_moveFpNext rfl h (exec_movxf_of_ready h hm rfl)

/-- Settles O39: a ready `movfsi` ends with its integer, and no step of it asks for a rounding mode. -/
theorem floatToInteger : Obligations.FloatToInteger := by
  rintro f d src s w h r rfl
  exact endsIn_moveIntNext rfl h (exec_movfsi_of_ready h rfl)

/-- Settles O40: a ready `movfx` ends with the integer on the grid of the fixed-point format. -/
theorem floatToFixed : Obligations.FloatToFixed := by
  rintro ss i f d src s w mode hm h r rfl
  exact endsIn_moveIntNext rfl h (exec_movfx_of_ready h hm rfl)

/-- Settles O41, by the class of the source's value: an infinity and a NaN cause no exception, and the pattern drawn for
a NaN decodes to one. -/
theorem floatToFloat : Obligations.FloatToFloat := by
  intro f d src s w mode hm h
  refine ⟨?_, fun sg hdec => ?_, fun sg t hdec => ?_⟩
  · rintro sg m hdec r rfl
    exact endsIn_cvtf h hm (convertFormat_fin hdec).symm
  · exact (endsIn_cvtf h hm (convertFormat_inf hdec).symm).next
  · obtain ⟨t', ht'⟩ := decodeFp_drawNaN (isFormat_formatOf (opSize d)) (Config.nanSign s.draws) s.draws
    exact ⟨_, _, t', ht', (endsIn_cvtf h hm (convertFormat_nan hdec).symm).next⟩

end Machine

end Sys2Proof
end

section
/-! What a converting move leaves unchanged (rules R13, R21, R25). A converting move that has a next state recorded
exceptions, wrote its destination at most, and set `N` and `Z` at most; each of the three has its frame. -/

namespace Sys2Proof.Machine

/-! The frame of a write of an operand (rules R13, R41, R61). -/

/-- Bytes outside a store are unchanged (rule R41). -/
theorem readByte_storeBytes_other (o : ByteOrder) (m : Memory) {a n c : Nat} (v : Word) (h : c < a ∨ a + n ≤ c) :
    readByte (storeBytes o m a n v) c = readByte m c :=
  readByte_writeBytes_other _ m a c (by simpa using h)

/-- Unchanged memory meets the frame of every destination. -/
theorem memoryFrame_of_mem_eq {s t : State} (d : Operand) (h : t.mem = s.mem) : MemoryFrame s t d := by
  refine ⟨fun _ _ _ _ _ a _ => ?_, fun _ _ _ _ _ a => ?_, fun _ a => ?_⟩
  all_goals rw [h]

/-- A write of an operand stores nothing outside it. -/
theorem writeOp_memoryFrame {s t : State} {d : Operand} {v : Word} (h : s.writeOp d v = .ok t) :
    MemoryFrame s t d := by
  rcases writeOp_cases h with ⟨n, z, rfl, rfl⟩ | ⟨ea, z, pa, rfl, ha, _, rfl⟩
  · exact memoryFrame_of_mem_eq _ (writeReg_mem s n _)
  · refine ⟨?_, ?_, fun hne => absurd rfl (hne ea z)⟩
    · rintro _ _ pa' ⟨⟩ ha' a hout
      obtain rfl : pa = pa' := Except.ok.inj (ha.symm.trans ha')
      exact readByte_storeBytes_other _ _ _ hout
    · rintro _ _ stop ⟨⟩ hstop
      cases ha.symm.trans hstop

/-- What a write of the operand `d` leaves unchanged, memory apart. -/
structure RegisterFrame (s t : State) (d : Operand) : Prop where
  general : ∀ n, (∀ z, d ≠ .reg n z) → cellGet t.gpr n = cellGet s.gpr n
  fpRegs : ∀ k : Fin 8, (∀ z, d ≠ .reg (24 + k.val) z) → t.f[k] = s.f[k]
  fpcrw : (∀ z, d ≠ .reg 19 z) → t.fpcrw = s.fpcrw
  flags : (∀ z, d ≠ .reg 17 z) → t.flags = s.flags
  control : t.cr0 = s.cr0 ∧ t.cpuex2 = s.cpuex2 ∧ t.program = s.program ∧ t.impl = s.impl

theorem regClass_flags (impl : Impl) : regClass impl 17 = .flags := by
  simp [regClass]

theorem NotFlags.ne_reg {impl : Impl} {d : Operand} (h : NotFlags impl d) (z : OpSize) : d ≠ .reg 17 z :=
  fun hd => h 17 z hd (regClass_flags impl)

theorem writeReg_registerFrame (s : State) (n : Nat) (z : OpSize) (v : Word) :
    RegisterFrame s (s.writeReg n v) (.reg n z) where
  general _ hm := writeReg_gpr_of_ne s v fun e => hm z (e ▸ rfl)
  fpRegs _ hk := writeReg_f_of_ne s v fun e => hk z (e ▸ rfl)
  fpcrw h := writeReg_fpcrw_of_ne s v fun e => h z (e ▸ rfl)
  flags h := writeReg_flags_of_ne s v fun e => h z (e ▸ rfl)
  control := ⟨writeReg_cr0 s n v, writeReg_cpuex2 s n v, writeReg_program s n v, writeReg_impl s n v⟩

theorem writeOp_registerFrame {s t : State} {d : Operand} {v : Word} (h : s.writeOp d v = .ok t) :
    RegisterFrame s t d := by
  rcases writeOp_cases h with ⟨n, z, rfl, rfl⟩ | ⟨ea, z, pa, rfl, _, _, rfl⟩
  · exact writeReg_registerFrame s n z _
  · exact ⟨fun _ _ => rfl, fun _ _ => rfl, fun _ => rfl, fun _ => rfl, rfl, rfl, rfl, rfl⟩

/-! What a converting move did. -/

/-- Flags with `N` and `Z` set, unless the `f` bit is (rules R95, R106). -/
def Flags.withNZ (x : Flags) (f n z : Bool) : Flags := if f then x else { x with n := n, z := z }

theorem Flags.withNZ_kept (x : Flags) (f n z : Bool) :
    (x.withNZ f n z).c = x.c ∧ (x.withNZ f n z).v = x.v ∧ (x.withNZ f n z).p = x.p ∧
      (f = true → x.withNZ f n z = x) ∧ (x.withNZ f n z).xm = x.xm ∧ (x.withNZ f n z).rest = x.rest := by
  cases f <;> simp [Flags.withNZ]

/-- A commit of a converting move is a write of its destination that sets `N` and `Z` at most. -/
def MoveCommits (f : Bool) (d : Operand) (s t : State) : Prop :=
  ∃ v u n z, s.writeOp d v = .ok u ∧ t = { u with flags := u.flags.withNZ f n z }

theorem commitFp_moveCommits {f : Bool} {d : Operand} {b : Word} {s t : State} (h : commitFp f d b s = .ok t) :
    MoveCommits f d s t := by
  obtain ⟨u, hu, rfl⟩ := commitFp_cases h
  refine ⟨_, u, signField (formatOf (opSize d)) b, fpIsZero (formatOf (opSize d)) b, hu, ?_⟩
  cases f <;> rfl

theorem commitInt_moveCommits {f : Bool} {d : Operand} {r : Int} {s t : State} (h : commitInt f d r s = .ok t) :
    MoveCommits f d s t := by
  obtain ⟨u, hu, rfl⟩ := commitInt_cases h
  refine ⟨_, u, decide (r < 0), decide (r = 0), hu, ?_⟩
  cases f <;> rfl

/-- What the end of an operation whose commit is a converting move's can leave: a trap before the result is written, or
the result, with the next instruction to follow or a trap after it. -/
theorem finish_moveCommits {f : Bool} {d : Operand} {s t : State} {e : List FpExc} {commit : State → Except Stop State}
    (hc : ∀ {u}, commit (s.record e) = .ok u → MoveCommits f d (s.record e) u) (h : s.finish e commit = .ok t) :
    (∃ x, t = (s.record e).raise x) ∨
      ∃ u, MoveCommits f d (s.record e) u ∧ (t = u.advance ∨ ∃ x, t = u.raise x) := by
  rcases finish_cases h with ⟨_, u, hu, rfl⟩ | ⟨_, _, rfl⟩ | ⟨_, _, u, hu, rfl⟩
  · exact .inr ⟨u, hc hu, .inl rfl⟩
  · exact .inl ⟨_, rfl⟩
  · exact .inr ⟨u, hc hu, .inr ⟨_, rfl⟩⟩

/-- A converting move that has a next state recorded exceptions, of which there may be none, and then raised, or wrote
its destination, which is not `flags`. -/
theorem exec_move_cases {i : Instr} {f : Bool} {d src : Operand} {s t : State} (hi : moveParts i = some (f, d, src))
    (h : exec i s = .next t) :
    ∃ e, (∃ x, t = (s.record e).raise x) ∨
      (NotFlags s.impl d ∧ ∃ u, MoveCommits f d (s.record e) u ∧ (t = u.advance ∨ ∃ x, t = u.raise x)) := by
  rcases move_cases hi h with ⟨x, rfl⟩ | ⟨hv, ⟨b, e, hf⟩ | ⟨r, e, hf⟩⟩
  · exact ⟨[], .inl ⟨x, rfl⟩⟩
  · exact ⟨e, (finish_moveCommits commitFp_moveCommits hf).imp_right fun hu => ⟨notFlags_of_move hi hv, hu⟩⟩
  · exact ⟨e, (finish_moveCommits commitInt_moveCommits hf).imp_right fun hu => ⟨notFlags_of_move hi hv, hu⟩⟩

/-! The frame of a converting move. -/

/-- What a converting move with the bit `f` and the destination `d` leaves unchanged. -/
structure MoveFrame (s t : State) (f : Bool) (d : Operand) : Prop where
  general : ∀ n, (∀ z, d ≠ .reg n z) → cellGet t.gpr n = cellGet s.gpr n
  fpRegs : ∀ k : Fin 8, (∀ z, d ≠ .reg (24 + k.val) z) → t.f[k] = s.f[k]
  fpcrw : (∀ z, d ≠ .reg 19 z) → ∀ j, j < 8 ∨ 13 < j → t.fpcrw.getLsbD j = s.fpcrw.getLsbD j
  flags : ∃ n z, t.flags = s.flags.withNZ f n z
  control : t.cr0 = s.cr0 ∧ t.cpuex2 = s.cpuex2 ∧ t.program = s.program ∧ t.impl = s.impl
  mem : MemoryFrame s t d

section
variable {s u : State} {f : Bool} {d : Operand} {e : List FpExc}

/-- Recording exceptions sets `EXCEPT` bits and nothing else (rule R171). -/
theorem record_moveFrame (s : State) (e : List FpExc) (f : Bool) (d : Operand) : MoveFrame s (s.record e) f d where
  general _ _ := rfl
  fpRegs _ _ := rfl
  fpcrw _ j hj := getLsbD_assertExcs_outside s.fpcrw e j hj
  flags := ⟨s.flags.n, s.flags.z, by cases f <;> rfl⟩
  control := ⟨rfl, rfl, rfl, rfl⟩
  mem := memoryFrame_of_mem_eq d rfl

/-- A commit over the recorded exceptions has the frame of its write, and its flags. -/
theorem MoveCommits.moveFrame (hd : NotFlags s.impl d) (h : MoveCommits f d (s.record e) u) : MoveFrame s u f d := by
  obtain ⟨v, u, n, z, hu, rfl⟩ := h
  obtain ⟨hgeneral, hfp, hfpcrw, hflags, hcontrol⟩ := writeOp_registerFrame hu
  have hmem : MemoryFrame (s.record e) u d := writeOp_memoryFrame hu
  refine ⟨hgeneral, hfp, fun hne j hj => ?_, ⟨n, z, ?_⟩, hcontrol, hmem⟩
  · exact hfpcrw hne ▸ (record_moveFrame s e f d).fpcrw hne j hj
  · exact congrArg (·.withNZ f n z) (hflags hd.ne_reg)

/-- Raising and going on write nothing of what the frame speaks of. -/
theorem MoveFrame.raise (h : MoveFrame s u f d) (x : Trap) : MoveFrame s (u.raise x) f d :=
  ⟨h.general, h.fpRegs, h.fpcrw, h.flags, h.control, h.mem⟩

theorem MoveFrame.advance (h : MoveFrame s u f d) : MoveFrame s u.advance f d :=
  ⟨h.general, h.fpRegs, h.fpcrw, h.flags, h.control, h.mem⟩

end

theorem exec_moveFrame {i : Instr} {f : Bool} {d src : Operand} {s t : State} (hi : moveParts i = some (f, d, src))
    (h : exec i s = .next t) : MoveFrame s t f d := by
  obtain ⟨e, ⟨x, rfl⟩ | ⟨hd, u, hu, rfl | ⟨x, rfl⟩⟩⟩ := exec_move_cases hi h
  · exact (record_moveFrame s e f d).raise x
  · exact (hu.moveFrame hd).advance
  · exact (hu.moveFrame hd).raise x

/-- Settles O56: the frame of a converting move, its flags read off from what sets `N` and `Z` only. -/
theorem convertingMoveFrame : Obligations.ConvertingMoveFrame := by
  intro i f d src s t hi h
  obtain ⟨hgeneral, hfp, hfpcrw, ⟨n, z, hflags⟩, ⟨hcr0, hcpuex2, hprogram, himpl⟩, hmem⟩ := exec_moveFrame hi h
  have hkept := Flags.withNZ_kept s.flags f n z
  rw [← hflags] at hkept
  obtain ⟨hc, hv, hp, hf, hxm, hrest⟩ := hkept
  exact ⟨hgeneral, hfp, hfpcrw, hc, hv, hp, hf, ⟨hcr0, hcpuex2, hprogram, himpl, hxm, hrest⟩, hmem⟩

end Sys2Proof.Machine
end

section
/-! The operand forms of the arithmetic instructions (rules R62, R121): the constraint's test is the form of the rule,
and a form that is not admitted ends with UND. -/

namespace Sys2Proof.Machine

/-- Operands, constraint and accesses of an arithmetic instruction, by its parts; it is no converting move. -/
theorem arithParts_spec {i : Instr} {f : Bool} {d : Operand} {others : List Operand}
    (hi : arithParts i = some (f, d, others)) (s : State) :
    i.operands = d :: others ∧ operandVerdict s i = arithConstraint d others ∧
      accessesOf i = arithAccesses d others ∧ moveParts i = none := by
  cases i <;> cases hi <;> exact ⟨rfl, rfl, rfl, rfl⟩

/-- An arithmetic instruction whose checks end short ends with the same stop. -/
theorem exec_arith_error {i : Instr} {f : Bool} {d : Operand} {others : List Operand} {s : State} {stop : Stop}
    (hi : arithParts i = some (f, d, others))
    (h : fpCommonChecks s (arithConstraint d others) false (accessesOf i) = .error stop) :
    exec i s = s.settle (.error stop) := by
  obtain ⟨_, hv, _, hmove⟩ := arithParts_spec hi s
  refine exec_checks_error false ?_ ?_ (by rw [hmove]; rfl) (hv ▸ h)
  · rintro rfl; cases hi
  · rintro rfl; cases hi

/-- The tests of kind and size that the constraint makes of every operand, in the predicate of rule R121. -/
theorem all_fpOperand_iff {l : List Operand} (hwf : ∀ o ∈ l, o.wellFormed = true) :
    (l.all (fun o => !isOtherReg o) && l.all fpSize) = true ↔ ∀ o ∈ l, FpOperand o := by
  simp only [Bool.and_eq_true, List.all_eq_true, Bool.not_eq_true', ← forall_and]
  refine forall_congr' fun o => ?_
  exact forall_congr' fun ho => (fpOperand_iff (hwf o ho)).symm

theorem arithConstraint_ofForms {d : Operand} {others : List Operand}
    (hwf : ∀ o ∈ d :: others, o.wellFormed = true) :
    VerdictOfForms (arithConstraint d others) (ArithLegal d others) False := by
  refine verdictOf_ofForms ?_
  rw [Bool.and_assoc, Bool.and_eq_true, Bool.and_eq_true, all_fpOperand_iff hwf, Bool.or_eq_true, List.any_eq_true]
  have hsize : ∀ {o}, o ∈ d :: others → FpOperand o → fpSize o = true :=
    fun ho h => ((fpOperand_iff (hwf _ ho)).1 h).2
  constructor
  · rintro ⟨⟨hd, o, ho, hreg⟩, hall⟩
    have hsd := hsize (by simp) (hall d (by simp))
    exact ⟨hd.imp (fun h => fpReg_iff.2 ⟨h, hsd⟩) (fun h => fpMem_iff.2 ⟨h, hsd⟩),
      fun p hp => hall p (by simp [hp]), o, ho, fpReg_iff.2 ⟨hreg, hsize ho (hall o ho)⟩⟩
  · rintro ⟨hd, hall, o, ho, hreg⟩
    refine ⟨⟨hd.imp (fun h => (fpReg_iff.1 h).1) (fun h => (fpMem_iff.1 h).1), o, ho, (fpReg_iff.1 hreg).1⟩, ?_⟩
    exact List.forall_mem_cons.2 ⟨hd.imp_right .inl, hall⟩

/-- Settles O13: the verdict follows the forms of rule R121, and a form that is not admitted ends with UND. -/
theorem arithmeticForms : Obligations.ArithmeticForms := by
  intro i f d others s hi hwf hf
  obtain ⟨hops, _, _, _⟩ := arithParts_spec hi s
  have hall : ∀ o ∈ d :: others, o.wellFormed = true := by
    rw [← hops]
    exact List.all_eq_true.1 hwf
  obtain ⟨hlegal, _, hother⟩ := arithConstraint_ofForms hall
  refine ⟨hlegal, fun hn => ?_⟩
  exact exec_arith_error hi (hother hn id ▸ fpCommonChecks_und false hf (accessesOf_wellFormed hwf))

end Sys2Proof.Machine
end

section
/-! The flags of a result (rules R95, R96, R106, R107, R128). -/

namespace Sys2Proof.Machine

/-- `Z` says that the value is a zero (rule R95). -/
theorem fpIsZero_iff {F : Format} {b : Word} : fpIsZero F b = true ↔ ∃ sg, decodeFp F b = .fin sg 0 := by
  unfold fpIsZero
  cases decodeFp F b with
  | fin s m => simp
  | inf s => simp
  | nan s t => simp

/-- The sign of a value, of whatever class (rule R87). -/
def signOfValue : FpVal → Bool
  | .fin s _ => s
  | .inf s => s
  | .nan s _ => s

theorem signOfValue_decodeFp (F : Format) (b : Word) : signOfValue (decodeFp F b) = signField F b := by
  unfold decodeFp
  dsimp only
  split_ifs <;> rfl

/-- The default parity is that of the number of 1 bits of the pattern (rule R96, decision D15). -/
theorem oddOnes_eq_countP (w : Word) (n : Nat) :
    oddOnes w n = decide ((List.range n).countP (fun j => w.getLsbD j) % 2 = 1) := by
  induction n with
  | zero => rfl
  | succ n ih =>
    rw [oddOnes, ih, List.range_succ, List.countP_append, List.countP_singleton]
    cases w.getLsbD n with
    | false => simp
    | true =>
      rw [if_pos rfl, Bool.true_xor, ← decide_not, decide_eq_decide]
      omega

/-- The flags `N` and `Z` that a delivered pattern leaves are those of its value. -/
theorem flags_of_pattern {F : Format} (hF : isFormat F) {x : Flags} {b : Word} (hn : x.n = signField F b)
    (hz : x.z = fpIsZero F b) :
    (x.z = true ↔ ∃ sg, decodeFp F b = .fin sg 0) ∧ (∀ sg m, decodeFp F b = .fin sg m → x.n = sg) ∧
      (∀ sg, decodeFp F b = .inf sg → x.n = sg) ∧ (∀ sg p, decodeFp F b = .nan sg p → x.n = sg) ∧
      (∀ sg, b = encZero F sg → x.z = true ∧ x.n = sg) := by
  have hsign : ∀ {v}, decodeFp F b = v → x.n = signOfValue v := by
    rintro v rfl
    rw [hn, signOfValue_decodeFp]
  refine ⟨hz ▸ fpIsZero_iff, fun sg m h => hsign h, fun sg h => hsign h, fun sg p h => hsign h, ?_⟩
  rintro sg rfl
  have hdec := decodeFp_encZero hF sg
  exact ⟨hz ▸ fpIsZero_iff.2 ⟨sg, hdec⟩, hsign hdec⟩

theorem two_pow_bits (z : OpSize) : (2 : Int) ^ z.bits = 2 * 2 ^ (z.bits - 1) := by
  cases z <;> rfl

section
variable {z : OpSize} {r : Int} (hlo : z.minInt ≤ r) (hhi : r ≤ z.maxInt)
include hlo hhi

/-- The stored pattern of an integer in range is the integer, or `2 ^ W` above a negative one. -/
theorem toNat_ofInt : ((z.ofInt r).toNat : Int) = if r < 0 then r + 2 ^ z.bits else r := by
  have hdouble := two_pow_bits z
  have hbits : (2 : Int) ^ z.bits ≤ 2 ^ 64 := by cases z <;> decide
  unfold OpSize.minInt at hlo
  unfold OpSize.maxInt at hhi
  have hmod : r % 2 ^ z.bits = if r < 0 then r + 2 ^ z.bits else r := by
    split_ifs with hneg
    · rw [← Int.add_emod_right, Int.emod_eq_of_lt (by omega) (by omega)]
    · exact Int.emod_eq_of_lt (by omega) (by omega)
  have hrange : 0 ≤ r % 2 ^ z.bits ∧ r % 2 ^ z.bits < 2 ^ z.bits := by
    rw [hmod]
    split_ifs <;> omega
  rw [OpSize.ofInt, BitVec.toNat_ofNat, Nat.mod_eq_of_lt (by omega), Int.toNat_of_nonneg hrange.1, hmod]

theorem ofInt_eq_zero_iff : z.ofInt r = 0 ↔ r = 0 := by
  have hnum := toNat_ofInt hlo hhi
  have hdouble := two_pow_bits z
  unfold OpSize.minInt at hlo
  rw [← BitVec.toNat_inj, show (0 : Word).toNat = 0 from rfl]
  split_ifs at hnum <;> omega

/-- The top bit of the stored pattern is the sign of the integer. -/
theorem getLsbD_ofInt : (z.ofInt r).getLsbD (z.bits - 1) = decide (r < 0) := by
  have hnum := toNat_ofInt hlo hhi
  have hdouble := two_pow_bits z
  have hcast : ((2 ^ (z.bits - 1) : Nat) : Int) = 2 ^ (z.bits - 1) := by norm_cast
  unfold OpSize.minInt at hlo
  unfold OpSize.maxInt at hhi
  rw [BitVec.getLsbD, Nat.testBit_eq_decide_div_mod_eq, decide_eq_decide]
  split_ifs at hnum with hneg
  · have hquot : (z.ofInt r).toNat / 2 ^ (z.bits - 1) = 1 := Nat.div_eq_of_lt_le (by omega) (by omega)
    simp only [hquot, hneg]
  · have hquot : (z.ofInt r).toNat / 2 ^ (z.bits - 1) = 0 := Nat.div_eq_of_lt (by omega)
    simp [hquot, hneg]

end

/-- Settles O42: the flags of a pattern are read off its value, and those of an integer off its stored pattern. -/
theorem resultFlags : Obligations.ResultFlags := by
  refine ⟨?_, fun s d b e hp => ?_, fun s d r e hlo hhi => ?_⟩
  · rintro s t d b e (rfl | rfl)
    · exact flags_of_pattern (isFormat_formatOf (opSize d)) rfl rfl
    · exact flags_of_pattern (isFormat_formatOf (opSize d)) rfl rfl
  · rw [← oddOnes_eq_countP]
    simp [arithNext, parityOf, hp]
  · have hz : (moveIntNext s false d r e).flags.z = decide (r = 0) := rfl
    have hn : (moveIntNext s false d r e).flags.n = decide (r < 0) := rfl
    rw [hz, hn, decide_eq_true_iff, ofInt_eq_zero_iff hlo hhi]
    exact ⟨Iff.rfl, (getLsbD_ofInt hlo hhi).symm⟩

end Sys2Proof.Machine
end

section
/-! The arithmetic skeleton (rules R122, R125 to R129). A ready arithmetic instruction passes its checks, so it is the
end of its operation on the values read; without a NaN among them that end is what its `compute` says of the values. -/

namespace Sys2Proof

/-! Rounding modes and quiet NaNs (rules R16, R93, R94). -/

theorem ofRnd_of_lt {n : Nat} (h : n < 5) : ∃ mode, RoundMode.ofRnd n = some mode := by
  interval_cases n <;> exact ⟨_, rfl⟩

theorem ofRnd_down_iff {n : Nat} {mode : RoundMode} (h : RoundMode.ofRnd n = some mode) : mode = .down ↔ n = 1 := by
  unfold RoundMode.ofRnd at h
  split at h <;> cases h <;> simp

theorem isSignalling_qNaN {F : Format} (hF : Machine.isFormat F) (rule : SignalRule) (s : Bool) :
    isSignalling rule F (qNaN F s) = false := by
  simp only [isSignalling, decodeFp_qNaN hF, if_true]

/-- A NaN drawn as a quiet one is one, of the sign asked for, whatever is drawn. -/
theorem isQuietNaN_drawQuietNaN {F : Format} (hF : Machine.isFormat F) (rule : SignalRule) (s : Bool) (draw : Nat) :
    Machine.IsQuietNaN rule F s (drawQuietNaN rule F s draw) := by
  unfold drawQuietNaN
  dsimp only
  split_ifs with hsig
  · exact ⟨⟨_, decodeFp_qNaN hF s⟩, isSignalling_qNaN hF rule s⟩
  · exact ⟨decodeFp_drawNaN hF s draw, Bool.eq_false_of_not_eq_true hsig⟩

theorem signed_not (s : Bool) (m : Rat) : signed (!s) m = -signed s m := by
  cases s
  · rfl
  · exact (neg_neg m).symm

theorem signed_mul_signed (s1 s2 : Bool) (m1 m2 : Rat) :
    signed s1 m1 * signed s2 m2 = signed (xor s1 s2) (m1 * m2) := by
  cases s1 <;> cases s2 <;> simp [signed]

namespace Machine

/-- What an INVALID operation delivers is a quiet NaN of the sign drawn (rule R125). -/
theorem isQuietNaN_invalidNaN (s : State) {F : Format} (hF : isFormat F) :
    IsQuietNaN s.impl.signalling F (Config.nanSign s.draws) (invalidNaN s F) :=
  isQuietNaN_drawQuietNaN hF _ _ _

/-! The checks of a ready instruction. -/

theorem readsAll_of_readOps {s : State} {ops : List Operand} {bs : List (Format × Word)} (h : s.readOps ops = .ok bs) :
    ReadsAll s ops bs := by
  induction ops generalizing bs with
  | nil => cases h; exact .nil
  | cons op ops ih =>
    unfold State.readOps at h
    repeat' split at h
    all_goals cases h
    exact .cons (by assumption) (ih (by assumption))

/-- Operands that can be read, and a destination that can be written, pass the checks of their accesses. -/
theorem arithAccesses_pass {s : State} {d : Operand} {others : List Operand} {bs : List (Format × Word)}
    (hr : ReadsAll s (d :: others) bs) (hw : Writable s d) : ∀ a ∈ arithAccesses d others, Passes s a := by
  intro a ha
  rcases List.mem_cons.1 ha with rfl | ha
  · cases hr with
    | cons hd _ => exact passes_readWrite hd hw
  · obtain ⟨o, ho, rfl⟩ := List.mem_map.1 ha
    exact readsAll_passes hr o (by simp [ho])

section
variable {s : State} {i : Instr} {f : Bool} {d : Operand} {others : List Operand} {bs : List (Format × Word)}
  {mode : RoundMode} {rounds : Bool} {compute : RoundMode → List FpVal → ArithOut}

theorem arith_checks (hi : arithParts i = some (f, d, others)) (h : ArithReady s d others bs) :
    fpCommonChecks s (arithConstraint d others) false (arithAccesses d others) = .ok () := by
  obtain ⟨henabled, hv, hr, hw⟩ := h
  obtain ⟨hops, hverdict, hacc, hmove⟩ := arithParts_spec hi s
  have hall : AllAccess s (accessesOf i) := by
    rw [hacc]
    exact fun ea z ks hm => arithAccesses_pass (readsAll_of_readOps hr) hw _ hm
  have hpass := checks_pass_of_ready (hops ▸ henabled) (hverdict.trans hv) (by simp [hmove]) hall
  rwa [hverdict, hacc, hmove] at hpass

/-- A ready arithmetic instruction ends with the outcome of its operation on what its operands hold (rule R129). -/
theorem arith_completesWith (hi : arithParts i = some (f, d, others))
    (he : exec i s = s.settle (arith rounds compute f d others s)) (h : ArithReady s d others bs)
    (hm : s.arithMode rounds = .ok mode) :
    CompletesWith s i f d
      (arithOutcome s mode (formatOf (opSize d)) (intermediateOf s (d :: others)) (compute mode) bs) := by
  have hc := arith_checks hi h
  obtain ⟨_, hv, hr, hw⟩ := h
  obtain ⟨u, hu, hadv⟩ := commitArith_next (f := f)
    (b := (arithOutcome s mode (formatOf (opSize d)) (intermediateOf s (d :: others)) (compute mode) bs).1)
    (e := (arithOutcome s mode (formatOf (opSize d)) (intermediateOf s (d :: others)) (compute mode) bs).2)
    (arith_destination hv) hw
  refine endsIn_of_finish ?_ hu hadv rfl rfl
  rw [he]
  simp only [arith, hc, hm, hr, intermediateOf]

/-- Without a NaN among the values read, it ends with what its `compute` says of them. -/
theorem arith_completesWith_of_compute {out : ArithOut} (hi : arithParts i = some (f, d, others))
    (he : exec i s = s.settle (arith rounds compute f d others s)) (h : ArithReady s d others bs)
    (hm : s.arithMode rounds = .ok mode) (hn : (operandValues bs).any FpVal.isNaN = false)
    (hout : compute mode (operandValues bs) = out) :
    CompletesWith s i f d
      (arithResult s mode (formatOf (opSize d)) (intermediateOf s (d :: others)) out) := by
  have hend := arith_completesWith hi he h hm
  unfold arithOutcome at hend
  unfold operandValues at hn hout
  simpa only [hn, hout, Bool.false_eq_true, if_false] using hend

/-- Every arithmetic instruction is a run of the skeleton, by a mode of `fpcrw.RND` where it rounds by one. -/
theorem exec_eq_arith (hi : arithParts i = some (f, d, others)) (s : State) :
    ∃ compute, exec i s = s.settle (arith (roundsByRnd i) compute f d others s) := by
  cases i <;> cases hi <;> exact ⟨_, rfl⟩

theorem arithMode_defined (h : rounds = true → s.rnd < 5) : ∃ mode, s.arithMode rounds = .ok mode := by
  cases rounds with
  | false => exact ⟨_, rfl⟩
  | true =>
    obtain ⟨mode, hm⟩ := ofRnd_of_lt (h rfl)
    exact ⟨mode, arithMode_ok true hm⟩

end

/-- Settles O43: a ready arithmetic instruction ends with some outcome, and a masked one does not trap. -/
theorem arithmeticCompletes : Obligations.ArithmeticCompletes := by
  intro i f d others s bs hi h hrnd hmask
  obtain ⟨compute, he⟩ := exec_eq_arith hi s
  obtain ⟨mode, hm⟩ := arithMode_defined hrnd
  exact ⟨_, _, (arith_completesWith hi he h hm).1 fun x _ => hmask x⟩

/-! What an instruction ends with, by the outcome of its `compute`. -/

section
variable {s : State} {i : Instr} {f : Bool} {d : Operand} {ops : List Operand} {mode : RoundMode} {b : Word} {sg : Bool}
  {m : Rat}

/-- Without an exception it has a next state. -/
theorem CompletesWith.next (h : CompletesWith s i f d (b, [])) : exec i s = .next (arithNext s f d b []) :=
  EndsIn.next h

/-- A magnitude that may be zero is delivered, or is a zero of its sign (rule R92). -/
theorem completesWith_zeroOrExact
    (h : CompletesWith s i f d (arithResult s mode (formatOf (opSize d)) (intermediateOf s ops) (zeroOrExact sg m))) :
    (m ≠ 0 → CompletesWith s i f d (deliverSigned s mode d ops sg m)) ∧
      (m = 0 → exec i s = .next (arithNext s f d (encZero (formatOf (opSize d)) sg) [])) := by
  unfold zeroOrExact at h
  split_ifs at h with h0
  · exact ⟨fun hm => absurd h0 hm, fun _ => h.next⟩
  · exact ⟨fun _ => h, fun hm => absurd hm h0⟩

/-- An exact sum is delivered, or is a zero of the sign of rule R92. -/
theorem completesWith_sumOut {s1 s2 : Bool} {v : Rat} (hm : RoundMode.ofRnd s.rnd = some mode)
    (h : CompletesWith s i f d
      (arithResult s mode (formatOf (opSize d)) (intermediateOf s ops) (sumOut mode s1 s2 v))) :
    (v ≠ 0 → CompletesWith s i f d (deliverTo s mode d ops v)) ∧
      (v = 0 → exec i s = .next (arithNext s f d (encZero (formatOf (opSize d)) (zeroSumSign s s1 s2)) [])) := by
  unfold sumOut at h
  split_ifs at h with h0 hs
  · exact ⟨fun hv => absurd h0 hv, fun _ => by simpa [zeroSumSign, hs] using h.next⟩
  · exact ⟨fun hv => absurd h0 hv, fun _ => by simpa [zeroSumSign, hs, ofRnd_down_iff hm] using h.next⟩
  · rw [magOf_eq_abs] at h
    exact ⟨fun _ => h, fun hv => absurd hv h0⟩

/-- A division by zero is an infinity with DIVBYZERO, or INVALID, by `DIVZERO_EXC` (rule R126). -/
theorem completesWith_divZero
    (h : CompletesWith s i f d (arithResult s mode (formatOf (opSize d)) (intermediateOf s ops) (.divZero sg))) :
    (s.impl.divZero = .divByZero → CompletesWith s i f d (encInf (formatOf (opSize d)) sg, [.divByZero])) ∧
      (s.impl.divZero = .invalid → ∃ b sg', IsQuietNaN s.impl.signalling (formatOf (opSize d)) sg' b ∧
        CompletesWith s i f d (b, [.invalid])) := by
  refine ⟨fun hz => ?_, fun hz => ⟨_, _, isQuietNaN_invalidNaN s (isFormat_formatOf (opSize d)), ?_⟩⟩
  · simpa only [arithResult, hz] using h
  · simpa only [arithResult, hz] using h

end

end Machine

end Sys2Proof
end

section
/-! The results of the arithmetic instructions with one, two and three operands that round (rules R135 to R141): what
each `compute` says, by the classes of the values. -/

namespace Sys2Proof.Machine

/-! One operand. -/

/-- A ready one-operand instruction ends with what its `compute` says of a value that is no NaN. -/
theorem completesWith_onOne {s : State} {i : Instr} {f : Bool} {d : Operand} {bs : List (Format × Word)}
    {mode : RoundMode} {rounds : Bool} {a : FpVal} {out : ArithOut} (g : FpVal → ArithOut)
    (hi : arithParts i = some (f, d, [])) (he : exec i s = s.settle (arith rounds (fun _ => onOne g) f d [] s))
    (h : ArithReady s d [] bs) (hm : s.arithMode rounds = .ok mode) (hv : operandValues bs = [a])
    (ha : a.isNaN = false) (hout : g a = out) :
    CompletesWith s i f d (arithResult s mode (formatOf (opSize d)) (intermediateOf s [d]) out) := by
  refine arith_completesWith_of_compute hi he h hm ?_ ?_
  · simp [hv, ha]
  · simpa only [hv, onOne] using hout

theorem invOf_zero (sg : Bool) : invOf (.fin sg 0) = .divZero sg := by simp only [invOf, if_true]

/-- Settles O46: the inverse of a nonzero value is delivered, that of a zero is a division by zero. -/
theorem inverse : Obligations.Inverse := by
  intro f d s bs mode h hm
  have hend : ∀ {a out}, operandValues bs = [a] → a.isNaN = false → invOf a = out →
      CompletesWith s (.finv f d) f d (arithResult s mode (formatOf (opSize d)) (intermediateOf s [d]) out) :=
    completesWith_onOne invOf rfl rfl h (arithMode_ok true hm)
  refine ⟨fun sg m hv hne => ?_, fun sg hv => ?_, fun sg hv => ?_⟩
  · exact hend hv rfl (if_neg hne)
  · exact completesWith_divZero (hend hv rfl (invOf_zero sg))
  · exact (hend hv rfl rfl).next

/-! Two operands. -/

section
variable {s : State} {i : Instr} {f : Bool} {d src : Operand} {bs : List (Format × Word)} {mode : RoundMode}
  {a b : FpVal} {out : ArithOut}

/-- A ready two-operand instruction that rounds ends with what its `compute` says of two values that are no NaN. -/
theorem completesWith_onTwo (g : RoundMode → FpVal → FpVal → ArithOut) (hi : arithParts i = some (f, d, [src]))
    (he : exec i s = s.settle (arith true (fun mode => onTwo (g mode)) f d [src] s)) (h : ArithReady s d [src] bs)
    (hm : RoundMode.ofRnd s.rnd = some mode) (hv : operandValues bs = [a, b]) (ha : a.isNaN = false)
    (hb : b.isNaN = false) (hout : g mode a b = out) :
    CompletesWith s i f d (arithResult s mode (formatOf (opSize d)) (intermediateOf s [d, src]) out) := by
  refine arith_completesWith_of_compute hi he h (arithMode_ok true hm) ?_ ?_
  · simp [hv, ha, hb]
  · simpa only [hv, onTwo] using hout

variable (h : ArithReady s d [src] bs) (hm : RoundMode.ofRnd s.rnd = some mode) (hv : operandValues bs = [a, b])
  (ha : a.isNaN = false) (hb : b.isNaN = false)
include h hm hv ha hb

theorem fadd_completesWith (hout : addOf mode a b = out) :
    CompletesWith s (.fadd f d src) f d
      (arithResult s mode (formatOf (opSize d)) (intermediateOf s [d, src]) out) :=
  completesWith_onTwo addOf rfl rfl h hm hv ha hb hout

theorem fsub_completesWith (hout : addOf mode a (negate b) = out) :
    CompletesWith s (.fsub f d src) f d
      (arithResult s mode (formatOf (opSize d)) (intermediateOf s [d, src]) out) :=
  completesWith_onTwo subOf rfl rfl h hm hv ha hb hout

theorem fmul_completesWith (hout : mulOf a b = out) :
    CompletesWith s (.fmul f d src) f d
      (arithResult s mode (formatOf (opSize d)) (intermediateOf s [d, src]) out) :=
  completesWith_onTwo (fun _ => mulOf) rfl rfl h hm hv ha hb hout

theorem fdiv_completesWith (hout : divOf a b = out) :
    CompletesWith s (.fdiv f d src) f d
      (arithResult s mode (formatOf (opSize d)) (intermediateOf s [d, src]) out) :=
  completesWith_onTwo (fun _ => divOf) rfl rfl h hm hv ha hb hout

end

/-- Settles O47: a difference is the sum with the second value's sign inverted, and an infinity decides a sum unless it
meets the opposite one. -/
theorem sumAndDifference : Obligations.SumAndDifference := by
  intro f d src s bs mode h hm
  refine ⟨fun s1 m1 s2 m2 hv => ?_, fun s1 s2 m hv => ⟨?_, ?_⟩, fun s1 s2 m hv => ⟨?_, ?_⟩,
    fun s1 s2 hv => ⟨fun hs => ?_, fun hs => ?_⟩⟩
  · obtain ⟨hadd, hadd0⟩ := completesWith_sumOut hm (fadd_completesWith (f := f) h hm hv rfl rfl rfl)
    obtain ⟨hsub, hsub0⟩ := completesWith_sumOut hm (fsub_completesWith (f := f) h hm hv rfl rfl rfl)
    rw [signed_not, ← sub_eq_add_neg] at hsub hsub0
    exact ⟨hadd, hadd0, hsub, hsub0⟩
  · exact (fadd_completesWith h hm hv rfl rfl rfl).next
  · exact (fsub_completesWith h hm hv rfl rfl rfl).next
  · exact (fadd_completesWith h hm hv rfl rfl rfl).next
  · exact (fsub_completesWith h hm hv rfl rfl rfl).next
  · exact (fadd_completesWith h hm hv rfl rfl (if_pos hs)).next
  · exact (fsub_completesWith h hm hv rfl rfl (if_pos (Bool.eq_not.2 hs))).next

/-- No factor of an infinite product is a NaN. -/
theorem InfiniteProduct.not_nan {ps : Bool} {a b : FpVal} (h : InfiniteProduct ps a b) :
    a.isNaN = false ∧ b.isNaN = false := by
  cases a <;> cases b <;> first | exact ⟨rfl, rfl⟩ | exact h.elim

theorem mulOf_infiniteProduct {ps : Bool} {a b : FpVal} (h : InfiniteProduct ps a b) : mulOf a b = .exactInf ps := by
  cases a with
  | nan => cases b <;> exact h.elim
  | inf s1 =>
    cases b with
    | nan => exact h.elim
    | inf s2 => exact congrArg _ (Eq.symm h)
    | fin s2 m2 => exact (if_neg h.1).trans (congrArg _ h.2.symm)
  | fin s1 m1 =>
    cases b with
    | nan => exact h.elim
    | inf s2 => exact (if_neg h.1).trans (congrArg _ h.2.symm)
    | fin => exact h.elim

/-- Settles O48: a finite product is delivered, or is a zero of its sign. -/
theorem product : Obligations.Product := by
  intro f d src s bs mode h hm
  refine ⟨fun s1 m1 s2 m2 hv => ?_, fun a b ps hv hp => ?_⟩
  · exact completesWith_zeroOrExact (fmul_completesWith h hm hv rfl rfl rfl)
  · obtain ⟨ha, hb⟩ := hp.not_nan
    exact (fmul_completesWith h hm hv ha hb (mulOf_infiniteProduct hp)).next

/-- Settles O49: a quotient by a nonzero value is delivered, or is a zero of its sign; one by a zero is a division by
zero. -/
theorem quotient : Obligations.Quotient := by
  intro f d src s bs mode h hm
  refine ⟨fun s1 m1 s2 m2 hv => ?_, fun s1 s2 m hv => ?_, fun s1 s2 m hv => ?_⟩
  · have hquot := fun h2 : m2 ≠ 0 =>
      completesWith_zeroOrExact (fdiv_completesWith (f := f) h hm hv rfl rfl (if_neg h2))
    refine ⟨fun h1 h2 => (hquot h2).1 (div_ne_zero h1 h2), fun h1 h2 => (hquot h2).2 (by rw [h1, zero_div]),
      fun h1 h2 => ?_⟩
    exact completesWith_divZero (fdiv_completesWith h hm hv rfl rfl ((if_pos h2).trans (if_neg h1)))
  · exact (fdiv_completesWith h hm hv rfl rfl rfl).next
  · exact (fdiv_completesWith h hm hv rfl rfl rfl).next

/-! Three operands. -/

theorem fma_completesWith {s : State} {f : Bool} {d src1 src2 : Operand} {bs : List (Format × Word)} {mode : RoundMode}
    {a b c : FpVal} {out : ArithOut} (h : ArithReady s d [src1, src2] bs) (hm : RoundMode.ofRnd s.rnd = some mode)
    (hv : operandValues bs = [a, b, c]) (ha : a.isNaN = false) (hb : b.isNaN = false) (hc : c.isNaN = false)
    (hout : fmaOf mode a b c = out) :
    CompletesWith s (.fma f d src1 src2) f d
      (arithResult s mode (formatOf (opSize d)) (intermediateOf s [d, src1, src2]) out) := by
  refine arith_completesWith_of_compute (rounds := true) (compute := fun mode => onThree (fmaOf mode)) rfl rfl h
    (arithMode_ok true hm) ?_ ?_
  · simp [hv, ha, hb, hc]
  · simpa only [hv, onThree] using hout

section
variable (mode : RoundMode) (s1 s2 s3 : Bool) (m1 m2 : Rat)

/-- The product enters the sum of `fma` unrounded (rule R141). -/
theorem fmaOf_fin (m3 : Rat) :
    fmaOf mode (.fin s1 m1) (.fin s2 m2) (.fin s3 m3) =
      sumOut mode (xor s1 s2) s3 (signed s1 m1 * signed s2 m2 + signed s3 m3) := by
  rw [signed_mul_signed]
  by_cases h0 : m1 * m2 = 0
  · have hp : signed (xor s1 s2) 0 = 0 := by cases xor s1 s2 <;> simp [signed]
    simp only [fmaOf, mulOf, zeroOrExact, h0, if_true, hp, zero_add]
  · simp only [fmaOf, mulOf, zeroOrExact, h0, if_false]

theorem fmaOf_fin_inf : fmaOf mode (.fin s1 m1) (.fin s2 m2) (.inf s3) = .exactInf s3 := by
  by_cases h0 : m1 * m2 = 0
  · simp only [fmaOf, mulOf, zeroOrExact, h0, if_true]
  · simp only [fmaOf, mulOf, zeroOrExact, h0, if_false]

/-- An infinite product decides the sum unless it meets the opposite infinity. -/
theorem fmaOf_infiniteProduct {ps : Bool} {x y z : FpVal} (hp : InfiniteProduct ps x y) (hz : z.isNaN = false)
    (hne : z ≠ .inf (!ps)) : fmaOf mode x y z = .exactInf ps := by
  simp only [fmaOf, mulOf_infiniteProduct hp]
  cases z with
  | fin => rfl
  | nan => cases hz
  | inf s3 => exact if_pos (by simpa using hne)

end

/-- Settles O51: the exact sum of the product and the third value is delivered, rounded once. -/
theorem fusedMultiplyAdd : Obligations.FusedMultiplyAdd := by
  intro f d a b s bs mode h hm
  refine ⟨?_, fun s1 m1 s2 m2 s3 hv => ?_, fun x y z ps hv hp hz hne => ?_⟩
  · rintro s1 m1 s2 m2 s3 m3 v hv rfl
    exact completesWith_sumOut hm (fma_completesWith h hm hv rfl rfl rfl (fmaOf_fin mode s1 s2 s3 m1 m2 m3))
  · exact (fma_completesWith h hm hv rfl rfl rfl (fmaOf_fin_inf mode s1 s2 s3 m1 m2)).next
  · obtain ⟨hx, hy⟩ := hp.not_nan
    exact (fma_completesWith h hm hv hx hy hz (fmaOf_infiniteProduct mode hp hz hne)).next

end Sys2Proof.Machine
end

section
/-! What an arithmetic instruction leaves unchanged (rules R13, R21, R25, R128). Its destination is a floating-point
register or memory, so a commit is a write of that destination which sets `N`, `Z` and `P` at most. -/

namespace Sys2Proof.Machine

/-- What an arithmetic instruction with the bit `f` and the destination `d` leaves unchanged. -/
structure ArithFrame (s t : State) (f : Bool) (d : Operand) : Prop where
  general : t.gpr = s.gpr
  fpRegs : ∀ k : Fin 8, (∀ z, d ≠ .reg (24 + k.val) z) → t.f[k] = s.f[k]
  fpcrw : ∀ j, j < 8 ∨ 13 < j → t.fpcrw.getLsbD j = s.fpcrw.getLsbD j
  flags : t.flags.c = s.flags.c ∧ t.flags.v = s.flags.v ∧ (f = true → t.flags = s.flags)
  control : SameControl s t
  mem : MemoryFrame s t d

/-- A floating-point register or memory is no register of another number. -/
theorem ne_reg_of_fpReg_or_mem {d : Operand} (hd : isFpReg d = true ∨ isMem d = true) {n : Nat} (hn : n < 24)
    (z : OpSize) : d ≠ .reg n z := by
  rintro rfl
  have : 24 ≤ n ∧ n ≤ 31 := by simpa [isFpReg, isMem] using hd
  omega

/-- A write to a floating-point register or to memory leaves the general registers alone. -/
theorem writeOp_gpr {s t : State} {d : Operand} {v : Word} (hd : isFpReg d = true ∨ isMem d = true)
    (h : s.writeOp d v = .ok t) : t.gpr = s.gpr := by
  rcases writeOp_cases h with ⟨n, z, rfl, rfl⟩ | ⟨ea, z, pa, rfl, _, _, rfl⟩
  · have hn : 24 ≤ n ∧ n ≤ 31 := by simpa [isFpReg, isMem] using hd
    simp only [State.writeReg, regClass_f hn]
  · rfl

section
variable {s u : State} {f : Bool} {d : Operand} {e : List FpExc}

/-- Recording exceptions sets `EXCEPT` bits and nothing else (rule R171). -/
theorem record_arithFrame (s : State) (e : List FpExc) (f : Bool) (d : Operand) : ArithFrame s (s.record e) f d where
  general := rfl
  fpRegs _ _ := rfl
  fpcrw j hj := getLsbD_assertExcs_outside s.fpcrw e j hj
  flags := ⟨rfl, rfl, fun _ => rfl⟩
  control := ⟨rfl, rfl, rfl, rfl, rfl, rfl⟩
  mem := memoryFrame_of_mem_eq d rfl

/-- A commit over the recorded exceptions has the frame of its write, but for the flags it sets. -/
theorem commitArith_arithFrame {b : Word} (hd : isFpReg d = true ∨ isMem d = true)
    (h : commitArith f d b (s.record e) = .ok u) : ArithFrame s u f d := by
  obtain ⟨w, hw, rfl⟩ := commitArith_cases h
  obtain ⟨_, hfp, hfpcrw, hflags, hcr0, hcpuex2, hprogram, himpl⟩ := writeOp_registerFrame hw
  have hfpcrw := hfpcrw (ne_reg_of_fpReg_or_mem hd (by decide))
  have hflags : w.flags = s.flags := hflags (ne_reg_of_fpReg_or_mem hd (by decide))
  have hbits : ∀ j, j < 8 ∨ 13 < j → w.fpcrw.getLsbD j = s.fpcrw.getLsbD j :=
    fun j hj => hfpcrw ▸ (record_arithFrame s e f d).fpcrw j hj
  have hgpr : w.gpr = (s.record e).gpr := writeOp_gpr hd hw
  have hmem : MemoryFrame (s.record e) w d := writeOp_memoryFrame hw
  cases f with
  | true =>
    exact ⟨hgpr, hfp, hbits, by simp [hflags], ⟨hcr0, hcpuex2, hprogram, himpl, by simp [hflags]⟩, hmem⟩
  | false =>
    exact ⟨hgpr, hfp, hbits, by simp [State.setFlagsNZP, hflags],
      ⟨hcr0, hcpuex2, hprogram, himpl, by simp [State.setFlagsNZP, hflags]⟩, hmem⟩

/-- Raising and going on write nothing of what the frame speaks of. -/
theorem ArithFrame.raise (h : ArithFrame s u f d) (x : Trap) : ArithFrame s (u.raise x) f d :=
  ⟨h.general, h.fpRegs, h.fpcrw, h.flags, h.control, h.mem⟩

theorem ArithFrame.advance (h : ArithFrame s u f d) : ArithFrame s u.advance f d :=
  ⟨h.general, h.fpRegs, h.fpcrw, h.flags, h.control, h.mem⟩

end

/-- An arithmetic instruction that has a next state raised, or ended its operation in one of the three ways. -/
theorem exec_arithFrame {i : Instr} {f : Bool} {d : Operand} {others : List Operand} {s t : State}
    (hi : arithParts i = some (f, d, others)) (h : exec i s = .next t) : ArithFrame s t f d := by
  rcases arithmetic_cases hi h with ⟨x, rfl⟩ | ⟨hv, b, e, hf⟩
  · exact (record_arithFrame s [] f d).raise x
  have hd := arith_destination hv
  rcases finish_cases hf with ⟨_, u, hu, rfl⟩ | ⟨_, _, rfl⟩ | ⟨_, _, u, hu, rfl⟩
  · exact (commitArith_arithFrame hd hu).advance
  · exact (record_arithFrame s e f d).raise _
  · exact (commitArith_arithFrame hd hu).raise _

/-- Settles O55, by the frame of the recorded exceptions and of the commit over them. -/
theorem arithmeticFrame : Obligations.ArithmeticFrame := by
  intro i f d others s t hi h
  obtain ⟨hgeneral, hfp, hfpcrw, ⟨hc, hv, hf⟩, hcontrol, hmem⟩ := exec_arithFrame hi h
  exact ⟨hgeneral, hfp, hfpcrw, hc, hv, hf, hcontrol, hmem⟩

end Sys2Proof.Machine
end

section
/-! Exact delivery (rules R90, R122). A value of a format is a multiple of the spacing at itself; so it is one in every
format of at least that range and precision, and there any mode, by either reading of the range, rounds it to itself. An
intermediate format lies between two formats of the extension and need not be one of the three, so what is said here of
its patterns asks only that they fit a register. -/

namespace Sys2Proof

open Machine

/-! Formats that fit a register. -/

/-- A format with an exponent field of two bits at least, whose patterns fit a register. -/
def FitsWord (F : Format) : Prop := 2 ≤ F.expBits ∧ F.width ≤ 64

theorem width_sub_one (F : Format) : F.width - 1 = F.fracBits + F.expBits := by
  simp only [Format.width]
  omega

section
variable {F : Format} (hF : FitsWord F)
include hF

theorem FitsWord.two_pow_expBits : 2 ^ F.expBits = 2 * F.bias + 2 ∧ 0 < F.bias := by
  have hbits := hF.1
  have hhalf : 2 ≤ 2 ^ (F.expBits - 1) := Nat.le_self_pow (by omega) 2
  have hdouble : 2 ^ F.expBits = 2 * 2 ^ (F.expBits - 1) := by
    rw [← pow_succ', Nat.sub_add_cancel (by omega)]
  simp only [Format.bias]
  omega

section
variable (s : Bool) {e t : Nat} (he : e < 2 ^ F.expBits) (ht : t < 2 ^ F.fracBits)
include he ht

/-- A packed pattern as a number, which is below `2 ^ w`. -/
theorem FitsWord.toNat_packFp :
    (packFp F s e t).toNat = 2 ^ F.fracBits * (2 ^ F.expBits * s.toNat + e) + t ∧
      (packFp F s e t).toNat < 2 ^ F.width := by
  have hhigh : 2 ^ F.expBits * s.toNat + e + 1 ≤ 2 ^ F.expBits * 2 := by cases s <;> simp <;> omega
  have hlt : 2 ^ F.fracBits * (2 ^ F.expBits * s.toNat + e) + t < 2 ^ F.width :=
    calc 2 ^ F.fracBits * (2 ^ F.expBits * s.toNat + e) + t
        < 2 ^ F.fracBits * (2 ^ F.expBits * s.toNat + e + 1) := by rw [Nat.mul_succ]; omega
      _ ≤ 2 ^ F.fracBits * (2 ^ F.expBits * 2) := Nat.mul_le_mul_left _ hhigh
      _ = 2 ^ F.width := by simp only [Format.width, pow_add]; ring
  have hsum : s.toNat * 2 ^ (F.width - 1) + e * 2 ^ F.fracBits + t =
      2 ^ F.fracBits * (2 ^ F.expBits * s.toNat + e) + t := by
    rw [width_sub_one, pow_add]; ring
  have hnum : (packFp F s e t).toNat = 2 ^ F.fracBits * (2 ^ F.expBits * s.toNat + e) + t := by
    rw [packFp, BitVec.toNat_ofNat, hsum, Nat.mod_eq_of_lt (hlt.trans_le (Nat.pow_le_pow_right two_pos hF.2))]
  exact ⟨hnum, hnum ▸ hlt⟩

/-- The three fields of a packed pattern are what was packed. -/
theorem FitsWord.fields_packFp :
    signField F (packFp F s e t) = s ∧ expField F (packFp F s e t) = e ∧ fracField F (packFp F s e t) = t := by
  obtain ⟨hnum, _⟩ := hF.toNat_packFp s he ht
  have hhigh : (packFp F s e t).toNat / 2 ^ F.fracBits = 2 ^ F.expBits * s.toNat + e := by
    rw [hnum, Nat.mul_add_div (Nat.two_pow_pos _), Nat.div_eq_of_lt ht, Nat.add_zero]
  refine ⟨?_, ?_, ?_⟩
  · rw [signField, BitVec.getLsbD, Nat.testBit_eq_decide_div_mod_eq, width_sub_one, pow_add,
      ← Nat.div_div_eq_div_mul, hhigh, Nat.mul_add_div (Nat.two_pow_pos _), Nat.div_eq_of_lt he]
    cases s <;> rfl
  · rw [expField, hhigh, Nat.mul_add_mod, Nat.mod_eq_of_lt he]
  · rw [fracField, hnum, Nat.mul_add_mod, Nat.mod_eq_of_lt ht]

end
end

/-! Values as multiples of the spacing at themselves. -/

theorem pow2_zero : pow2 0 = 1 := by rw [pow2_eq_zpow, zpow_zero]

theorem natCast_two_pow (n : Nat) : ((2 ^ n : Nat) : Rat) = pow2 n := by
  rw [pow2_natCast, Nat.cast_pow, Nat.cast_ofNat]

/-- A magnitude that is a multiple of the spacing at itself, and not above the largest finite one. -/
def IsValue (F : Format) (m : Rat) : Prop := (∃ q : Nat, m = q * ulpAt F m) ∧ m ≤ maxFinite F

/-- A multiple of a power of two is one of every lower power. -/
theorem exists_mul_pow2_of_le {a b : Int} (h : b ≤ a) (q : Nat) : ∃ n : Nat, (q : Rat) * pow2 a = n * pow2 b := by
  obtain ⟨j, hj⟩ := Int.eq_ofNat_of_zero_le (sub_nonneg.2 h)
  refine ⟨q * 2 ^ j, ?_⟩
  rw [Nat.cast_mul, mul_assoc, two_pow_mul_pow2]
  congr 2
  omega

/-- A significand of `p + 1` bits times a power of two in range is not above the largest finite magnitude. -/
theorem significand_le_maxFinite (F : Format) {n : Nat} {k : Int} (hn : n < 2 ^ (F.fracBits + 1))
    (hk : k ≤ F.bias - F.fracBits) : (n : Rat) * pow2 k ≤ maxFinite F := by
  have hp : 0 < 2 ^ F.fracBits := Nat.two_pow_pos _
  rw [maxFinite_eq_normal]
  refine mul_le_mul (Nat.cast_le.2 ?_) (pow2_le hk) (pow2_pos k).le (Nat.cast_nonneg _)
  rw [pow_succ] at hn
  omega

theorem isValue_zero {F : Format} (hF : isFormat F) : IsValue F 0 := ⟨⟨0, by simp⟩, (maxFinite_pos hF).le⟩

/-- What a pattern of a format holds is a value of it. -/
theorem isValue_of_decodeFp {F : Format} (hF : isFormat F) {b : Word} {sg : Bool} {m : Rat}
    (h : decodeFp F b = .fin sg m) : 0 ≤ m ∧ IsValue F m := by
  have h0 : 0 ≤ m := by
    obtain ⟨n, k, _, _, rfl⟩ := representable_significand ⟨b, sg, h⟩
    exact mul_nonneg (Nat.cast_nonneg n) (pow2_pos k).le
  have hmax : m ≤ maxFinite F := by
    have ht : fracField F b < 2 ^ F.fracBits := Nat.mod_lt _ (Nat.two_pow_pos _)
    have he : expField F b < 2 ^ F.expBits := Nat.mod_lt _ (Nat.two_pow_pos _)
    have hexp := two_pow_expBits hF
    have hpos := bias_pos hF
    unfold decodeFp at h
    dsimp only at h
    split_ifs at h with hinf hnan hsub
    · cases h
      exact significand_le_maxFinite F (by rw [pow_succ]; omega) (by simp only [Format.emin]; omega)
    · cases h
      rw [normal_value]
      exact significand_le_maxFinite F (by rw [pow_succ]; omega) (by omega)
  refine ⟨h0, ?_, hmax⟩
  rcases h0.eq_or_lt with rfl | hm
  · exact ⟨0, by simp⟩
  · rcases representable_grid F hm ⟨b, sg, h⟩ with hq | ⟨n, hlt, hle⟩
    · exact hq
    · exact absurd (hlt.trans_le hle) (lt_irrefl m)

section
variable {F : Format} {m : Rat} (hm : 0 < m) (h : IsValue F m)
include hm h

/-- A value is one of every format of at least the range and the precision. -/
theorem IsValue.mono {G : Format} (hx : F.expBits ≤ G.expBits) (hp : F.fracBits ≤ G.fracBits) : IsValue G m := by
  obtain ⟨⟨q, hq⟩, hmax⟩ := h
  have hbias : F.bias ≤ G.bias :=
    Nat.sub_le_sub_right (Nat.pow_le_pow_right two_pos (Nat.sub_le_sub_right hx 1)) 1
  refine ⟨?_, hmax.trans ?_⟩
  · rw [ulpAt_eq_pow2 F hm] at hq
    rw [ulpAt_eq_pow2 G hm]
    obtain ⟨n, hn⟩ := exists_mul_pow2_of_le (show gridExp G m ≤ gridExp F m by
      simp only [gridExp, Format.emin]; omega) q
    exact ⟨n, hq.trans hn⟩
  · have hfrac : pow2 (-(G.fracBits : Int)) ≤ pow2 (-(F.fracBits : Int)) := pow2_le (by omega)
    have hone : pow2 (-(G.fracBits : Int)) ≤ pow2 0 := pow2_le (by omega)
    rw [pow2_zero] at hone
    exact mul_le_mul (sub_le_sub_left hfrac 2) (pow2_le (by omega)) (pow2_pos _).le (by linarith)

theorem IsValue.minSub_le : minSub F ≤ m := by
  obtain ⟨⟨q, hq⟩, _⟩ := h
  have hq1 : 1 ≤ q := Nat.one_le_iff_ne_zero.2 fun h0 => hm.ne' (by rw [hq, h0, Nat.cast_zero, zero_mul])
  calc minSub F ≤ ulpAt F m := by
        rw [ulpAt_eq_pow2 F hm, minSub]
        exact pow2_le (sub_le_sub_right (le_max_right _ _) _)
    _ ≤ q * ulpAt F m := le_mul_of_one_le_left (ulpAt_pos hm).le (Nat.one_le_cast.2 hq1)
    _ = m := hq.symm

/-- The pattern of a value, by its fields: a denormal one, or a normal one whose exponent is in range. -/
theorem IsValue.encFin_cases (s : Bool) :
    (∃ t : Nat, t < 2 ^ F.fracBits ∧ m = t * minSub F ∧ encFin F s m = packFp F s 0 t) ∨
    ∃ (e : Int) (t : Nat), F.emin ≤ e ∧ e ≤ F.bias ∧ t < 2 ^ F.fracBits ∧
      m = (2 ^ F.fracBits + t : Nat) * pow2 (e - F.fracBits) ∧ encFin F s m = packFp F s (e + F.bias).toNat t := by
  obtain ⟨⟨q, hq⟩, hmax⟩ := h
  have hdiv : m / ulpAt F m = q := (div_eq_iff (ulpAt_pos hm).ne').2 hq
  have hhi : q < 2 ^ (F.fracBits + 1) := Nat.cast_lt.1 (hdiv ▸ div_ulpAt_lt F hm)
  have hlo : F.emin - F.fracBits < gridExp F m → 2 ^ F.fracBits ≤ q := fun hk =>
    Nat.cast_le.1 (hdiv ▸ le_div_ulpAt F hm hk)
  have hk : F.emin - F.fracBits ≤ gridExp F m := sub_le_sub_right (le_max_right _ _) _
  rw [ulpAt_eq_pow2 F hm] at hq
  rcases lt_or_ge q (2 ^ F.fracBits) with hden | hnorm
  · have hgrid : gridExp F m = F.emin - F.fracBits := by omega
    rw [hgrid] at hq
    exact .inl ⟨q, hden, hq, hq ▸ encFin_denormal F s hden⟩
  · obtain ⟨t, rfl⟩ := Nat.exists_eq_add_of_le hnorm
    obtain ⟨e, he⟩ : ∃ e : Int, gridExp F m = e - F.fracBits := ⟨gridExp F m + F.fracBits, by omega⟩
    have ht : t < 2 ^ F.fracBits := by rw [pow_succ] at hhi; omega
    rw [he] at hq
    have hbias : e ≤ F.bias :=
      Int.lt_add_one_iff.1 (lt_of_pow2_lt (((normal_bounds F ht e).1.trans (hq ▸ hmax)).trans_lt (maxFinite_lt F)))
    exact .inr ⟨e, t, by omega, hbias, ht, hq, hq ▸ encFin_normal F s ht (by omega)⟩

/-- A value is decoded from its encoding, which is a pattern of the format's width. -/
theorem IsValue.decodeFp_encFin (hF : FitsWord F) (s : Bool) :
    decodeFp F (encFin F s m) = .fin s m ∧ (encFin F s m).toNat < 2 ^ F.width := by
  obtain ⟨hexp, hpos⟩ := hF.two_pow_expBits
  rcases h.encFin_cases hm s with ⟨t, ht, hval, henc⟩ | ⟨e, t, hlo, hhi, ht, hval, henc⟩
  · have h0 : 0 < 2 ^ F.expBits := by omega
    obtain ⟨hs, he, hf⟩ := hF.fields_packFp s h0 ht
    rw [henc]
    refine ⟨?_, (hF.toNat_packFp s h0 ht).2⟩
    simp only [decodeFp, hs, he, hf, show 0 ≠ 2 ^ F.expBits - 1 by omega, if_false, if_true, hval, minSub]
  · simp only [Format.emin] at hlo
    have hlt : (e + F.bias).toNat < 2 ^ F.expBits := by omega
    obtain ⟨hs, he, hf⟩ := hF.fields_packFp s hlt ht
    rw [henc]
    refine ⟨?_, (hF.toNat_packFp s hlt ht).2⟩
    simp only [decodeFp, hs, he, hf, show (e + F.bias).toNat ≠ 2 ^ F.expBits - 1 by omega,
      show (e + F.bias).toNat ≠ 0 by omega, show ((e + F.bias).toNat : Int) - F.bias = e by omega, if_false,
      normal_value, hval]

/-! Rounding a value (rules R90, R91). -/

omit hm h in
theorem roundTo_multiple {u : Rat} (hu : u ≠ 0) (q : Nat) (s : Bool) (mode : RoundMode) :
    roundTo u (q * u) s mode = q * u := by
  rw [roundTo, mul_div_cancel_right₀ _ hu, roundInt_natCast]

theorem IsValue.roundTo_ulpAt (s : Bool) (mode : RoundMode) : roundTo (ulpAt F m) m s mode = m := by
  obtain ⟨⟨q, hq⟩, _⟩ := h
  have hround := roundTo_multiple (ulpAt_pos (F := F) hm).ne' q s mode
  rwa [← hq] at hround

/-- Rounding to the precision of the format, as if its range had no lower end, keeps a value too. -/
theorem IsValue.roundTo_precision (s : Bool) (mode : RoundMode) :
    roundTo (pow2 (floorLog2 m - F.fracBits)) m s mode = m := by
  obtain ⟨⟨q, hq⟩, _⟩ := h
  rw [ulpAt_eq_pow2 F hm] at hq
  obtain ⟨n, hn⟩ := exists_mul_pow2_of_le
    (show floorLog2 m - F.fracBits ≤ gridExp F m from sub_le_sub_right (le_max_left _ _) _) q
  have hround := roundTo_multiple (pow2_ne_zero (floorLog2 m - F.fracBits)) n s mode
  rwa [← hn, ← hq] at hround

/-- A value that is kept is delivered exactly, by either reading of the range. -/
theorem IsValue.roundFp_eq (rc : RangeCheck) (s : Bool) (mode : RoundMode) {denorm : Bool}
    (hk : leastKept F denorm ≤ m) :
    roundFp rc s m F mode denorm = (encFin F s m, []) := by
  have hmax := h.2.not_gt
  cases rc with
  | exactValue => rw [roundFp, roundFpExact_inRange hm s mode hk h.2, h.roundTo_ulpAt hm, inexactIf, if_pos rfl]
  | roundedValue =>
    cases denorm with
    | true =>
      simp only [roundFp, roundFpRounded, hm.ne', h.roundTo_precision hm, h.roundTo_ulpAt hm, hmax, inexactIf, if_true,
        if_false]
    | false =>
      have hmin : ¬ m < minNorm F := not_lt.2 hk
      simp only [roundFp, roundFpRounded, hm.ne', h.roundTo_precision hm, hmax, hmin, inexactIf, if_true, if_false,
        Bool.false_eq_true]

/-- A denormal value is flushed while `DENORM` is clear, by either reading of the range. -/
theorem IsValue.roundFp_flushed (hF : isFormat F) (rc : RangeCheck) (s : Bool) (mode : RoundMode) (hk : m < minNorm F) :
    roundFp rc s m F mode false = (encZero F s, [.underflow, .inexact]) := by
  cases rc with
  | exactValue => exact roundFpExact_underflow hF s mode hm hk
  | roundedValue =>
    simp only [roundFp, roundFpRounded, hm.ne', h.roundTo_precision hm, h.2.not_gt, hk, if_true, if_false,
      Bool.false_eq_true]

/-- A value of the destination's format passes the intermediate format as it is (rule R122). -/
theorem IsValue.deliver_eq {I : Format} (hI : FitsWord I) (hx : F.expBits ≤ I.expBits)
    (hp : F.fracBits ≤ I.fracBits) (rc : RangeCheck) (s : Bool) (mode : RoundMode) (denorm : Bool) :
    deliver rc s m F I mode denorm = roundFp rc s m F mode denorm := by
  have hval := h.mono hm hx hp
  have hfirst : roundFp rc s m I mode true = (encFin I s m, []) := hval.roundFp_eq hm rc s mode (hval.minSub_le hm)
  unfold deliver
  split_ifs with hIF
  · rfl
  · simp [hfirst, (hval.decodeFp_encFin hm hI s).1, hm.ne']

end

/-! Rounding a value to an integer (rules R130 to R132). -/

/-- Integers up to `2 ^ p` are values. -/
theorem isValue_natCast {F : Format} (hF : isFormat F) {n : Nat} (hn : n ≤ 2 ^ F.fracBits) : IsValue F n := by
  have hbias : F.fracBits ≤ F.bias ∧ 0 < F.bias := by rcases hF with rfl | rfl | rfl <;> decide
  have hpow : (n : Rat) * pow2 0 = n := by rw [pow2_zero, mul_one]
  have hlt : n < 2 ^ (F.fracBits + 1) := hn.trans_lt (Nat.pow_lt_pow_right one_lt_two (Nat.lt_succ_self _))
  refine ⟨?_, hpow ▸ significand_le_maxFinite F hlt (by omega)⟩
  rcases Nat.eq_zero_or_pos n with rfl | hpos
  · exact ⟨0, by simp⟩
  have hm : (0 : Rat) < n := Nat.cast_pos.2 hpos
  have hlog : floorLog2 n < (F.fracBits : Int) + 1 := by
    refine lt_of_pow2_lt ((floorLog2_bounds hm).1.trans_lt ?_)
    rw [← Nat.cast_succ, ← natCast_two_pow]
    exact Nat.cast_lt.2 hlt
  obtain ⟨q, hq⟩ := exists_mul_pow2_of_le (show gridExp F n ≤ 0 by simp only [gridExp, Format.emin]; omega) n
  exact ⟨q, by rw [ulpAt_eq_pow2 F hm, ← hq, hpow]⟩

/-- A value rounded to an integer is a value: either it is an integer, or it is below `2 ^ p`. -/
theorem isValue_roundInt {F : Format} (hF : isFormat F) {m : Rat} (h0 : 0 ≤ m) (h : IsValue F m) (sg : Bool)
    (mode : RoundMode) : IsValue F (roundInt m sg mode : Rat) := by
  rcases h0.eq_or_lt with rfl | hm
  · rw [← Nat.cast_zero, roundInt_natCast, Nat.cast_zero]
    exact isValue_zero hF
  obtain ⟨q, hq⟩ := h.1
  rw [ulpAt_eq_pow2 F hm] at hq
  rcases le_or_gt 0 (gridExp F m) with hgrid | hgrid
  · obtain ⟨n, hn⟩ := exists_mul_pow2_of_le hgrid q
    have hint : m = n := by rw [hq, hn, pow2_zero, mul_one]
    rw [hint, roundInt_natCast, ← hint]
    exact h
  · refine isValue_natCast hF ?_
    have hle : m ≤ (((2 ^ F.fracBits : Nat) : Int) : Rat) := by
      have hlog : floorLog2 m + 1 ≤ F.fracBits := by unfold gridExp at hgrid; omega
      rw [Int.cast_natCast, natCast_two_pow]
      exact (floorLog2_bounds hm).2.le.trans (pow2_le hlog)
    exact_mod_cast roundInt_le_of_le hm.le sg mode hle

namespace Machine

/-! The intermediate format of an operation on one operand (rule R122). -/

theorem isFormat_xopssFormat (s : State) : isFormat s.xopssFormat := by
  unfold State.xopssFormat
  split
  · exact .inl rfl
  · exact .inr (.inl rfl)
  · exact .inr (.inr rfl)

theorem intermediateFormat_spec (impl : Impl) {F Fx : Format} (hF : isFormat F) (hx : isFormat Fx) :
    FitsWord (intermediateFormat impl F Fx) ∧ F.expBits ≤ (intermediateFormat impl F Fx).expBits ∧
      F.fracBits ≤ (intermediateFormat impl F Fx).fracBits := by
  have hbound : ∀ {G}, isFormat G → 2 ≤ G.expBits ∧ G.expBits ≤ 11 ∧ G.fracBits ≤ 52 := by
    rintro _ (rfl | rfl | rfl) <;> decide
  have := hbound hF
  have := hbound hx
  unfold intermediateFormat
  split <;> simp only [FitsWord, Format.width, formatMax, formatMin] <;> omega

theorem largestFormat_singleton (d : Operand) : largestFormat [d] = formatOf (opSize d) := by
  unfold largestFormat
  cases opSize d <;> rfl

theorem intermediateOf_singleton_spec (s : State) (d : Operand) :
    FitsWord (intermediateOf s [d]) ∧ (formatOf (opSize d)).expBits ≤ (intermediateOf s [d]).expBits ∧
      (formatOf (opSize d)).fracBits ≤ (intermediateOf s [d]).fracBits := by
  rw [intermediateOf, largestFormat_singleton]
  exact intermediateFormat_spec s.impl (isFormat_formatOf _) (isFormat_xopssFormat s)

end Machine

end Sys2Proof
end

section
/-! The instructions whose result is representable whatever the rounding mode (rules R130 to R134): what they compute is
a value of the destination's format, so it is delivered as it is. -/

namespace Sys2Proof.Machine

/-! What a ready one-operand instruction holds. -/

section
variable {s : State} {d : Operand} {bs : List (Format × Word)} {v : FpVal}

theorem decodeFp_of_operandValues (h : ArithReady s d [] bs) (hv : operandValues bs = [v]) :
    ∃ b, decodeFp (formatOf (opSize d)) b = v := by
  obtain ⟨_, _, hr, _⟩ := h
  cases readsAll_of_readOps hr with
  | cons hd hnil =>
    cases hnil
    exact ⟨_, List.head_eq_of_cons_eq hv⟩

/-- A finite operand is a value of the destination's format. -/
theorem isValue_of_operandValues {sg : Bool} {m : Rat} (h : ArithReady s d [] bs)
    (hv : operandValues bs = [.fin sg m]) : 0 ≤ m ∧ IsValue (formatOf (opSize d)) m := by
  obtain ⟨b, hb⟩ := decodeFp_of_operandValues h hv
  exact isValue_of_decodeFp (isFormat_formatOf _) hb

/-- The format of an admitted destination is as wide as the operand (rules R59, R86). -/
theorem width_of_arithReady (h : ArithReady s d [] bs) : (formatOf (opSize d)).width = 8 * (opSize d).bytes := by
  obtain ⟨_, hv, _, _⟩ := h
  have hsize : fpSize d = true := by
    unfold arithConstraint verdictOf at hv
    split at hv
    · rename_i hok
      exact List.all_eq_true.1 (Bool.and_eq_true_iff.1 hok).2 d List.mem_cons_self
    · cases hv
  unfold fpSize at hsize
  cases hz : opSize d with
  | b1 => rw [hz] at hsize; cases hsize
  | b2 | b4 | b8 => rfl

end

/-! The delivery of a value of the destination's format. -/

section
variable {s : State} {i : Instr} {f : Bool} {d : Operand} {sg : Bool} {m : Rat} {mode : RoundMode}
  (hval : IsValue (formatOf (opSize d)) m)
  (h : CompletesWith s i f d (arithResult s mode (formatOf (opSize d)) (intermediateOf s [d]) (zeroOrExact sg m)))
include hval h

/-- A value that is kept is delivered exactly, with no exception and its sign. -/
theorem exec_of_value (h0 : 0 ≤ m) (hk : m = 0 ∨ leastKept (formatOf (opSize d)) s.denorm ≤ m) :
    ∃ b, decodeFp (formatOf (opSize d)) b = .fin sg m ∧ b.toNat < 2 ^ (formatOf (opSize d)).width ∧
      exec i s = .next (arithNext s f d b []) := by
  have hF := isFormat_formatOf (opSize d)
  have hfits : FitsWord (formatOf (opSize d)) := isFormat_sizes hF
  obtain ⟨hpos, hzero⟩ := completesWith_zeroOrExact h
  rcases h0.eq_or_lt with rfl | hm
  · exact ⟨_, decodeFp_encZero hF sg, (hfits.toNat_packFp sg (Nat.two_pow_pos _) (Nat.two_pow_pos _)).2, hzero rfl⟩
  · obtain ⟨hI, hx, hp⟩ := intermediateOf_singleton_spec s d
    obtain ⟨hdec, hlt⟩ := hval.decodeFp_encFin hm hfits sg
    have hend := hpos hm.ne'
    rw [deliverSigned, hval.deliver_eq hm hI hx hp, hval.roundFp_eq hm _ _ _ (hk.resolve_left hm.ne')] at hend
    exact ⟨_, hdec, hlt, hend.next⟩

/-- A value that is not kept is a denormal while `DENORM` is clear, and is flushed to a zero of its sign. -/
theorem completesWith_of_flushed (hm : 0 < m) (hk : m < leastKept (formatOf (opSize d)) s.denorm) :
    CompletesWith s i f d (encZero (formatOf (opSize d)) sg, [.underflow, .inexact]) := by
  obtain ⟨hI, hx, hp⟩ := intermediateOf_singleton_spec s d
  have hend := (completesWith_zeroOrExact h).1 hm.ne'
  rw [deliverSigned, hval.deliver_eq hm hI hx hp] at hend
  cases hd : s.denorm with
  | true => exact absurd (hval.minSub_le hm) (by rw [hd] at hk; exact hk.not_ge)
  | false =>
    rw [hd] at hk hend
    rwa [hval.roundFp_flushed hm (isFormat_formatOf _) _ _ _ hk] at hend

end

/-! Rounding to an integral value (rules R130 to R132). -/

/-- `round`, `ceil` and `floor` are the skeleton with the integral rounding of their direction. -/
theorem integral_completesWith {i : Instr} {mode : RoundMode} {f : Bool} {d : Operand} {s : State}
    {bs : List (Format × Word)} {v : FpVal}
    (hi : (i, mode) ∈ [(Instr.round f d, RoundMode.halfUp), (Instr.ceil f d, RoundMode.up),
      (Instr.floor f d, RoundMode.down)])
    (h : ArithReady s d [] bs) (hv : operandValues bs = [v]) (hn : v.isNaN = false) :
    CompletesWith s i f d
      (arithResult s s.anyMode (formatOf (opSize d)) (intermediateOf s [d]) (integralOf mode v)) := by
  simp only [List.mem_cons, List.not_mem_nil, Prod.mk.injEq, or_false] at hi
  rcases hi with ⟨rfl, rfl⟩ | ⟨rfl, rfl⟩ | ⟨rfl, rfl⟩
  · exact completesWith_onOne (rounds := false) (integralOf .halfUp) rfl rfl h rfl hv hn rfl
  · exact completesWith_onOne (rounds := false) (integralOf .up) rfl rfl h rfl hv hn rfl
  · exact completesWith_onOne (rounds := false) (integralOf .down) rfl rfl h rfl hv hn rfl

/-- Integers are kept, whatever `DENORM` is: the least normal magnitude is not above 1. -/
theorem natCast_kept {F : Format} (hF : isFormat F) (denorm : Bool) (n : Nat) :
    (n : Rat) = 0 ∨ leastKept F denorm ≤ n := by
  rcases Nat.eq_zero_or_pos n with rfl | hn
  · exact .inl Nat.cast_zero
  · have hone : minNorm F ≤ 1 := by
      have hemin : F.emin ≤ 0 := by
        have := bias_pos hF
        simp only [Format.emin]
        omega
      exact (pow2_le hemin).trans_eq pow2_zero
    have hkept : leastKept F denorm ≤ minNorm F := by
      cases denorm
      · exact le_rfl
      · exact minSub_le_minNorm F
    exact .inr ((hkept.trans hone).trans (Nat.one_le_cast.2 hn))

/-- Settles O44: the integral value is a value of the operand's format, and every format keeps it. -/
theorem integralRounding : Obligations.IntegralRounding := by
  intro f d s bs i mode hi h
  refine ⟨fun sg m hv => ?_, fun sg hv => (integral_completesWith hi h hv rfl).next⟩
  obtain ⟨h0, hval⟩ := isValue_of_operandValues h hv
  have hF := isFormat_formatOf (opSize d)
  obtain ⟨b, hdec, _, hexec⟩ := exec_of_value (isValue_roundInt hF h0 hval sg mode)
    (integral_completesWith hi h hv rfl) (Nat.cast_nonneg _) (natCast_kept hF s.denorm _)
  exact ⟨b, hdec, hexec⟩

/-! Clearing and inverting the sign (rules R133, R134). -/

/-- `fabs` and `fneg` keep the magnitude and give it the sign `sg'`. -/
theorem absOrNeg_completesWith {i : Instr} {sg sg' f : Bool} {d : Operand} {s : State} {bs : List (Format × Word)}
    (hi : (i, sg') ∈ [(Instr.fabs f d, false), (Instr.fneg f d, !sg)]) (h : ArithReady s d [] bs) :
    (∀ m, operandValues bs = [.fin sg m] → CompletesWith s i f d
      (arithResult s s.anyMode (formatOf (opSize d)) (intermediateOf s [d]) (zeroOrExact sg' m))) ∧
    (operandValues bs = [.inf sg] → CompletesWith s i f d (encInf (formatOf (opSize d)) sg', [])) := by
  simp only [List.mem_cons, List.not_mem_nil, Prod.mk.injEq, or_false] at hi
  rcases hi with ⟨rfl, rfl⟩ | ⟨rfl, rfl⟩
  · exact ⟨fun m hv => completesWith_onOne (rounds := false) absOf rfl rfl h rfl hv rfl rfl,
      fun hv => completesWith_onOne (rounds := false) absOf rfl rfl h rfl hv rfl rfl⟩
  · exact ⟨fun m hv => completesWith_onOne (rounds := false) negOf rfl rfl h rfl hv rfl rfl,
      fun hv => completesWith_onOne (rounds := false) negOf rfl rfl h rfl hv rfl rfl⟩

/-- Settles O45: the magnitude is the operand's, so it is delivered as it is where it is kept, and flushed where it is
not. -/
theorem absoluteValueAndNegation : Obligations.AbsoluteValueAndNegation := by
  intro f d s bs i sg sg' hi h
  obtain ⟨hfin, hinf⟩ := absOrNeg_completesWith hi h
  refine ⟨fun m hv hk => ?_, fun m hv hm hk => ?_, fun hv => (hinf hv).next⟩
  · obtain ⟨h0, hval⟩ := isValue_of_operandValues h hv
    rw [← width_of_arithReady h]
    exact exec_of_value hval (hfin m hv) h0 hk
  · obtain ⟨_, hval⟩ := isValue_of_operandValues h hv
    exact completesWith_of_flushed hval (hfin m hv) hm hk

end Sys2Proof.Machine
end

section
/-! The comparisons (rules R150 to R156). The constraint's test is the form of rule R151, and a form that is not
admitted ends with UND. A comparison of admitted operands that can be read passes its checks, so it is the end of its
operation on the outcome of comparing the two values; that outcome is the numeric order of rule R152. -/

namespace Sys2Proof.Machine

/-! The operand forms (rule R151, conflict C5). -/

/-- Of the floating-point operands the constraint of `fcmp` tells registers and immediates from memory. -/
theorem FpOperand.fpReg_or_longImm_iff {o : Operand} (h : FpOperand o) :
    isFpReg o = true ∨ isLongImm o = true ↔ ¬ FpMem o := by
  rcases h with h | h | h
  · exact iff_of_true (.inl (fpReg_iff.1 h).1) h.not_fpMem
  · obtain ⟨ea, z, rfl, hz⟩ := h
    simp [isFpReg, isLongImm, FpMem, hz]
  · obtain ⟨v, z, rfl, _⟩ := h
    simp [isLongImm, FpMem]

theorem fcmpzConstraint_ofForms {a : Operand} (ha : a.wellFormed = true) :
    VerdictOfForms (fcmpzConstraint a) (FpOperand a) False := by
  refine verdictOf_ofForms ?_
  rw [fpOperand_iff ha, Bool.and_eq_true, Bool.not_eq_true']

theorem fcmpConstraint_ofForms {a b : Operand} (ha : a.wellFormed = true) (hb : b.wellFormed = true) :
    VerdictOfForms (fcmpConstraint a b) (FpOperand a ∧ FpOperand b ∧ ¬ (FpMem a ∧ FpMem b)) False := by
  refine verdictOf_ofForms ?_
  have htest : ((isFpReg a || isLongImm a || isFpReg b || isLongImm b) && !isOtherReg a && !isOtherReg b &&
      fpSize a && fpSize b) = true ↔
      FpOperand a ∧ FpOperand b ∧
        ((isFpReg a = true ∨ isLongImm a = true) ∨ isFpReg b = true ∨ isLongImm b = true) := by
    simp only [fpOperand_iff ha, fpOperand_iff hb, Bool.and_eq_true, Bool.or_eq_true, Bool.not_eq_true']
    tauto
  rw [htest]
  refine and_congr_right fun hoa => and_congr_right fun hob => ?_
  rw [hoa.fpReg_or_longImm_iff, hob.fpReg_or_longImm_iff, not_and_or]

/-- A form that the constraint turns away raises UND, in every instruction that is no converting move and no trigger
(rule R80 step 3). -/
theorem exec_und_of_verdict {i : Instr} {s : State} (hmove : moveParts i = none) (hr : i ≠ .fraiseexcept)
    (ht : i ≠ .ftriggerexcept) (hwf : i.wellFormed = true) (hf : s.fpen = true) (hv : operandVerdict s i = .und) :
    exec i s = .next (s.raise .und) :=
  exec_checks_error false hr ht (by rw [hmove]; rfl) (hv ▸ fpCommonChecks_und false hf (accessesOf_wellFormed hwf))

/-- Settles O15: the verdict follows the forms of rule R151, and a form that is not admitted ends with UND. -/
theorem comparisonForms : Obligations.ComparisonForms := by
  refine fun a b s hf => ⟨fun ha => ?_, fun ha hb => ?_⟩
  · obtain ⟨hlegal, _, hother⟩ := fcmpzConstraint_ofForms ha
    refine ⟨hlegal, fun hn => exec_und_of_verdict rfl nofun nofun ?_ hf (hother hn id)⟩
    simp [Instr.wellFormed, Instr.operands, ha]
  · obtain ⟨hlegal, _, hother⟩ := fcmpConstraint_ofForms ha hb
    refine ⟨hlegal, fun hn => exec_und_of_verdict rfl nofun nofun ?_ hf (hother hn id)⟩
    simp [Instr.wellFormed, Instr.operands, ha, hb]

/-! The outcome (rule R152). -/

theorem hasOutcome_compareRat (s1 s2 : Bool) (m1 m2 : Rat) :
    HasOutcome (.fin s1 m1) (.fin s2 m2) (compareRat (signed s1 m1) (signed s2 m2)) := by
  unfold compareRat
  split_ifs with hlt heq
  · exact ⟨rfl, rfl, .inr ⟨rfl, hlt⟩⟩
  · exact ⟨rfl, rfl, rfl, heq⟩
  · exact ⟨rfl, rfl, .inr ⟨rfl, lt_of_le_of_ne (not_lt.1 hlt) (Ne.symm heq)⟩⟩

/-- The comparison of two values has the outcome of their numeric order, or is unordered with a NaN. -/
theorem hasOutcome_compareFp (x y : FpVal) : HasOutcome x y (compareFp x y) := by
  cases x with
  | nan => exact .inl rfl
  | inf s1 =>
    cases y with
    | nan => exact .inr rfl
    | inf s2 => cases s1 <;> cases s2 <;> simp [compareFp, HasOutcome, FpVal.isNaN, rankOf]
    | fin => cases s1 <;> simp [compareFp, HasOutcome, FpVal.isNaN, rankOf]
  | fin s1 m1 =>
    cases y with
    | nan => exact .inr rfl
    | inf s2 => cases s2 <;> simp [compareFp, HasOutcome, FpVal.isNaN, rankOf]
    | fin s2 m2 => exact hasOutcome_compareRat s1 s2 m1 m2

/-! Completion (rules R80, R153 to R156, R172 to R174). -/

/-- The checks of an instruction that only reads its operands pass where they are admitted and can be read. -/
theorem checks_pass_of_readsAll {s : State} {i : Instr} {bs : List (Format × Word)} (he : Enabled s i.operands)
    (hv : operandVerdict s i = .admitted) (hmove : moveParts i = none)
    (hacc : accessesOf i = i.operands.map (fun o => (o, [.read]))) (hr : ReadsAll s i.operands bs) :
    fpCommonChecks s (operandVerdict s i) false (accessesOf i) = .ok () := by
  have hall : AllAccess s (accessesOf i) := by
    intro ea z ks hm
    rw [hacc] at hm
    obtain ⟨o, ho, heq⟩ := List.mem_map.1 hm
    cases heq
    exact readsAll_passes hr _ ho
  simpa only [hmove, Option.isSome_none] using checks_pass_of_ready he hv (by simp [hmove]) hall

/-- An instruction that has come to the end of its operation with the outcome of a comparison. -/
theorem endsIn_cmpNext {s : State} {i : Instr} {o : CmpOutcome} {e : List FpExc}
    (hi : exec i s = s.settle (s.finish e (commitCmp o))) :
    EndsIn s i e (cmpNext s (cmpFlags s.impl.fcmpMap o) e) :=
  endsIn_of_finish hi rfl rfl rfl rfl

theorem exec_fcmpz_of_ready {s : State} {a : Operand} {x : Word} (he : Enabled s [a])
    (hv : fcmpzConstraint a = .admitted) (hx : s.readOp a = .ok x) :
    exec (.fcmpz a) s =
      s.settle (s.finish (signalIf (isSignalling s.impl.signalling (formatOf (opSize a)) x))
        (commitCmp (compareFp (.fin false 0) (decodeFp (formatOf (opSize a)) x)))) := by
  have hc : fpCommonChecks s (fcmpzConstraint a) false [(a, [.read])] = .ok () :=
    checks_pass_of_readsAll (i := .fcmpz a) he hv rfl rfl (.cons hx .nil)
  simp only [exec, execFcmpz, hc, hx]

theorem exec_fcmp_of_ready {s : State} {a b : Operand} {x y : Word} (he : Enabled s [a, b])
    (hv : fcmpConstraint a b = .admitted) (hx : s.readOp a = .ok x) (hy : s.readOp b = .ok y) :
    exec (.fcmp a b) s =
      s.settle (s.finish
        (signalIf (isSignalling s.impl.signalling (formatOf (opSize a)) x ||
          isSignalling s.impl.signalling (formatOf (opSize b)) y))
        (commitCmp (compareFp (decodeFp (formatOf (opSize a)) x) (decodeFp (formatOf (opSize b)) y)))) := by
  have hc : fpCommonChecks s (fcmpConstraint a b) false [(a, [.read]), (b, [.read])] = .ok () :=
    checks_pass_of_readsAll (i := .fcmp a b) he hv rfl rfl (.cons hx (.cons hy .nil))
  simp only [exec, execFcmp, hc, hx, hy]

/-- Settles O54: a ready comparison ends with the outcome of comparing its values, and no step of it asks for a rounding
mode. -/
theorem comparisons : Obligations.Comparisons := by
  refine ⟨?_, ?_⟩
  · rintro a s x _ he hv hx rfl
    exact ⟨_, hasOutcome_compareFp _ _, endsIn_cmpNext (exec_fcmpz_of_ready he hv hx)⟩
  · rintro a b s x y _ he hv hx hy rfl
    exact ⟨_, hasOutcome_compareFp _ _, endsIn_cmpNext (exec_fcmp_of_ready he hv hx hy)⟩

end Sys2Proof.Machine
end

section
/-! Masking, raising and triggering of floating-point exceptions (rules R160 to R162, R170 to R173), and the check of the
converting moves for supervisor registers (rules R80, R178). -/

namespace Sys2Proof.Machine

/-! Masking (rule R170). -/

theorem masked_iff (s : State) (x : FpExc) :
    s.masked x = true ↔ s.fpcrw.getLsbD 24 = true ∨ s.fpcrw.getLsbD (16 + x.number) = true := by
  rw [State.masked, State.emaskAll, Bool.or_eq_true]

theorem masked_eq_false_iff (s : State) (x : FpExc) :
    s.masked x = false ↔ s.fpcrw.getLsbD 24 = false ∧ s.fpcrw.getLsbD (16 + x.number) = false := by
  rw [State.masked, State.emaskAll, Bool.or_eq_false_iff]

/-- Settles O32, at startup by the bits of the control word that rule R28 gives. -/
theorem masking : Obligations.Masking := by
  refine ⟨masked_iff, fun s x => Iff.rfl, by decide, fun x => ?_⟩
  cases x <;> decide

/-! The end of an operation (rules R171 to R173). -/

theorem anyUnmasked_iff (s : State) (e : List FpExc) :
    s.anyUnmasked e = true ↔ ∃ x, x ∈ e ∧ s.masked x = false := by
  simp [State.anyUnmasked]

/-- An operation with an unmasked exception ends in the floating-point trap, before its result is committed or after. -/
theorem finish_unmasked_cases {s t : State} {e : List FpExc} {commit : State → Except Stop State}
    (hu : s.anyUnmasked e = true) (h : s.finish e commit = .ok t) :
    t = (s.record e).raise s.fpTrap ∨ ∃ u, commit (s.record e) = .ok u ∧ t = u.raise s.fpTrap := by
  rcases finish_cases h with ⟨hm, _⟩ | ⟨_, _, ht⟩ | ⟨_, _, hc⟩
  · rw [hu] at hm
    cases hm
  · exact .inl ht
  · exact .inr hc

/-- Settles O34: the bits are those of the recorded control word, and the two ends of an operation are told apart by
whether some exception is unmasked. -/
theorem raisingFpExceptions : Obligations.RaisingFpExceptions := by
  refine ⟨rfl, fun s t e commit h => ⟨fun j => ?_, fun hm => ?_, fun hu => ?_⟩⟩
  · simp [getLsbD_assertExcs]
  · rcases finish_cases h with ⟨_, hc⟩ | ⟨hu, _⟩ | ⟨hu, _⟩
    · exact hc
    all_goals
      rw [anyUnmasked_eq_false hm] at hu
      cases hu
  · have hend := finish_unmasked_cases ((anyUnmasked_iff s e).2 hu) h
    refine ⟨?_, hend⟩
    rcases hend with rfl | ⟨u, _, rfl⟩
    · rfl
    · rfl

/-! The triggers (rules R160 to R162). -/

/-- The numbers 0 to 5 are those of the defined exceptions (rule R18). -/
theorem exists_number_eq {n : Nat} (h : n ≤ 5) : ∃ x : FpExc, x.number = n := by
  match n, h with
  | 0, _ => exact ⟨.invalid, rfl⟩
  | 1, _ => exact ⟨.divByZero, rfl⟩
  | 2, _ => exact ⟨.overflow, rfl⟩
  | 3, _ => exact ⟨.underflow, rfl⟩
  | 4, _ => exact ⟨.inexact, rfl⟩
  | 5, _ => exact ⟨.signal, rfl⟩

theorem mem_allExcs (x : FpExc) : x ∈ allExcs := by cases x <;> decide

theorem undefinedExcept_iff (s : State) :
    s.undefinedExcept = true ↔ s.fpcrw.getLsbD 14 = true ∨ s.fpcrw.getLsbD 15 = true := by
  rw [State.undefinedExcept, Bool.or_eq_true]

section
variable {masked : State → FpExc → Bool} {s : State}

/-- A trigger is UND where the extension is disabled or an undefined exception bit is set, whatever its masking. -/
theorem triggerExcept_und (h : s.fpen = false ∨ s.undefinedExcept = true) :
    triggerExcept masked s = .error (.raise .und) := by
  cases hf : s.fpen with
  | false => exact triggerExcept_disabled masked hf
  | true =>
    have hu : s.undefinedExcept = true := h.resolve_left (by simp [hf])
    simp [triggerExcept, hf, hu]

theorem triggerExcept_raises {x : FpExc} (hf : s.fpen = true) (hu : s.undefinedExcept = false)
    (ha : s.asserted x = true) (hm : masked s x = false) : triggerExcept masked s = .error (.raise s.fpTrap) := by
  have hany : allExcs.any (fun x => s.asserted x && !masked s x) = true :=
    List.any_eq_true.2 ⟨x, mem_allExcs x, by simp [ha, hm]⟩
  simp [triggerExcept, hf, hu, hany]

theorem triggerExcept_advances (hf : s.fpen = true) (hu : s.undefinedExcept = false)
    (h : ∀ x, s.asserted x = true → masked s x = true) : triggerExcept masked s = .ok s.advance := by
  have hany : allExcs.any (fun x => s.asserted x && !masked s x) = false := by
    rw [List.any_eq_false]
    intro x _
    simpa using h x
  simp [triggerExcept, hf, hu, hany]

end

/-- Settles O37: the two instructions are one trigger under two maskings, and the numbers up to 5 are the exceptions. -/
theorem triggersAsSpecified : Obligations.TriggersAsSpecified := by
  refine fun s => ⟨fun h => ?_, fun hf h14 h15 => ?_⟩
  · rw [← undefinedExcept_iff] at h
    exact ⟨congrArg s.settle (triggerExcept_und h), congrArg s.settle (triggerExcept_und h)⟩
  have hu : s.undefinedExcept = false := Bool.or_eq_false_iff.2 ⟨h14, h15⟩
  refine ⟨?_, fun h => ?_, ?_, fun h => ?_⟩
  · rintro ⟨h24, n, hn, ha, hm⟩
    obtain ⟨x, rfl⟩ := exists_number_eq hn
    exact congrArg s.settle (triggerExcept_raises hf hu ha ((masked_eq_false_iff s x).2 ⟨h24, hm⟩))
  · refine congrArg s.settle (triggerExcept_advances hf hu fun x ha => (masked_iff s x).2 ?_)
    exact h.imp_right fun hall => hall x.number (number_le x) ha
  · rintro ⟨n, hn, ha, hm⟩
    obtain ⟨x, rfl⟩ := exists_number_eq hn
    exact congrArg s.settle (triggerExcept_raises hf hu ha hm)
  · exact congrArg s.settle (triggerExcept_advances hf hu fun x ha => h x.number (number_le x) ha)

/-! A supervisor register in a converting move (rules R80 step 5, R178). -/

/-- The check of step 5 raises PROT where those before it pass. -/
theorem fpCommonChecks_supervisor {s : State} {l : List Access} (hf : s.fpen = true)
    (hl : l.all (fun a => a.1.wellFormed) = true) (hx : s.xopss ≠ 3) (hm : s.flags.xm = true)
    (hs : ∃ a ∈ l, isSuper s.impl a.1 = true) :
    fpCommonChecks s .admitted true l = .error (.raise .prot) := by
  have hany : l.any (fun a => isSuper s.impl a.1) = true := List.any_eq_true.2 hs
  simp [fpCommonChecks, hf, hl, hx, hm, hany]

/-- The accesses of a converting move, by its parts. -/
theorem accessesOf_of_moveParts {i : Instr} {f : Bool} {d src : Operand} (hi : moveParts i = some (f, d, src)) :
    accessesOf i = moveAccesses d src := by
  cases i <;> cases hi <;> rfl

/-- Settles O16: the earlier checks pass, and the fifth finds the supervisor register among the operands. -/
theorem supervisorRegisterRaisesProt : Obligations.SupervisorRegisterRaisesProt := by
  rintro i f d src s hi ⟨hf, hx, hwf⟩ hv hm hs
  refine exec_move_error (stop := .raise .prot) hi ?_
  rw [hv, accessesOf_of_moveParts hi]
  refine fpCommonChecks_supervisor hf ?_ hx hm ?_
  · simp [moveAccesses, hwf d, hwf src]
  · simpa [moveAccesses] using hs

end Sys2Proof.Machine
end

section
/-! What becomes of the control word (rule R171). An instruction of the extension whose destination is not register 19
records exceptions in `fpcrw` and writes nothing else there; a base instruction writes its destinations alone. -/

namespace Sys2Proof.Machine

/-! The instructions of the extension. -/

/-- A commit that leaves the control word as it finds it. -/
def KeepsFpcrw (commit : State → Except Stop State) : Prop := ∀ s t, commit s = .ok t → t.fpcrw = s.fpcrw

theorem unlessF_fpcrw {s t : State} (f : Bool) (h : t.fpcrw = s.fpcrw) : (unlessF f s t).fpcrw = s.fpcrw := by
  cases f
  · exact h
  · rfl

section
variable (f : Bool) {d : Operand} (hd : ∀ z, d ≠ .reg 19 z)
include hd

theorem commitFp_keepsFpcrw (b : Word) : KeepsFpcrw (commitFp f d b) := by
  intro s t h
  obtain ⟨u, hu, rfl⟩ := commitFp_cases h
  exact (unlessF_fpcrw f (setFlagsNZ_fpcrw u _ b)).trans ((writeOp_registerFrame hu).fpcrw hd)

theorem commitInt_keepsFpcrw (r : Int) : KeepsFpcrw (commitInt f d r) := by
  intro s t h
  obtain ⟨u, hu, rfl⟩ := commitInt_cases h
  exact (unlessF_fpcrw f (setFlagsInt_fpcrw u r)).trans ((writeOp_registerFrame hu).fpcrw hd)

theorem commitArith_keepsFpcrw (b : Word) : KeepsFpcrw (commitArith f d b) := by
  intro s t h
  obtain ⟨u, hu, rfl⟩ := commitArith_cases h
  exact (unlessF_fpcrw f (setFlagsNZP_fpcrw u _ b)).trans ((writeOp_registerFrame hu).fpcrw hd)

end

theorem commitCmp_keepsFpcrw (o : CmpOutcome) : KeepsFpcrw (commitCmp o) := by
  intro s t h
  cases h
  rfl

/-- The end of an operation leaves the recorded control word, also when it traps. -/
theorem finish_fpcrw {s t : State} {e : List FpExc} {commit : State → Except Stop State} (hc : KeepsFpcrw commit)
    (h : s.finish e commit = .ok t) : t.fpcrw = assertExcs s.fpcrw e := by
  rcases finish_cases h with ⟨_, u, hu, rfl⟩ | ⟨_, _, rfl⟩ | ⟨_, _, u, hu, rfl⟩
  · exact hc _ _ hu
  · rfl
  · exact hc _ _ hu

/-- An instruction whose destination is not register 19 changes the control word by recording exceptions only. -/
theorem exec_fpcrw {i : Instr} {s t : State} (hd : ∀ f d src z, moveParts i = some (f, d, src) → d ≠ .reg 19 z)
    (h : exec i s = .next t) : ∃ e, t.fpcrw = assertExcs s.fpcrw e := by
  have raised : (∃ x, t = s.raise x) → ∃ e, t.fpcrw = assertExcs s.fpcrw e := by
    rintro ⟨x, rfl⟩
    exact ⟨[], rfl⟩
  have compared : (∃ o e, s.finish e (commitCmp o) = .ok t) → ∃ e, t.fpcrw = assertExcs s.fpcrw e := by
    rintro ⟨o, e, hf⟩
    exact ⟨e, finish_fpcrw (commitCmp_keepsFpcrw o) hf⟩
  have triggered : t = s.advance → ∃ e, t.fpcrw = assertExcs s.fpcrw e := by
    rintro rfl
    exact ⟨[], rfl⟩
  rcases instr_families i with
    ⟨f, d, src, hi⟩ | ⟨f, d, others, hi⟩ | ⟨a, rfl⟩ | ⟨a, b, rfl⟩ | rfl | rfl
  · have hd : ∀ z, d ≠ .reg 19 z := fun z => hd f d src z hi
    rcases move_cases hi h with hx | ⟨_, ⟨b, e, hf⟩ | ⟨r, e, hf⟩⟩
    · exact raised hx
    · exact ⟨e, finish_fpcrw (commitFp_keepsFpcrw f hd b) hf⟩
    · exact ⟨e, finish_fpcrw (commitInt_keepsFpcrw f hd r) hf⟩
  · rcases arithmetic_cases hi h with hx | ⟨hv, b, e, hf⟩
    · exact raised hx
    · have hd := ne_reg_of_fpReg_or_mem (n := 19) (arith_destination hv) (by decide)
      exact ⟨e, finish_fpcrw (commitArith_keepsFpcrw f hd b) hf⟩
  · exact (fcmpz_cases h).elim raised compared
  · exact (fcmp_cases h).elim raised compared
  · exact (triggerExcept_cases h).elim raised triggered
  · exact (triggerExcept_cases h).elim raised triggered

/-! The base instructions (rule R71; log entries 34 and 45). -/

section
variable {x : Operand × Word} {ws : List Word}

theorem movEffect_mem {d src : Operand} (h : x ∈ movEffect d src ws) : x.1 = d := by
  unfold movEffect at h
  split at h
  · rw [List.mem_singleton.1 h]
  · cases h

theorem xchgEffect_mem {a b : Operand} (h : x ∈ xchgEffect a b ws) : x.1 = a ∨ x.1 = b := by
  unfold xchgEffect at h
  split at h
  · rw [List.mem_pair] at h
    exact h.imp (congrArg Prod.fst) (congrArg Prod.fst)
  · cases h

theorem cmpxchgEffect_mem {d e src : Operand} (h : x ∈ cmpxchgEffect d e src ws) : x.1 = d ∨ x.1 = e := by
  unfold cmpxchgEffect at h
  split at h
  · dsimp only at h
    split at h
    · exact .inl (congrArg Prod.fst (List.mem_singleton.1 h))
    · exact .inr (congrArg Prod.fst (List.mem_singleton.1 h))
  · cases h

end

theorem mem_of_mem_memoryFirst {x : Operand × Word} {writes : List (Operand × Word)} (h : x ∈ memoryFirst writes) :
    x ∈ writes := by
  rcases List.mem_append.1 h with h | h
  · exact List.mem_of_mem_filter h
  · exact List.mem_of_mem_filter h

/-- A run of the skeleton keeps the control word where its effect writes to no operand that is register 19. -/
theorem baseRun_fpcrw {m : BaseMnemonic} {accesses : List Access} {effect : List Word → List (Operand × Word)}
    {cond : List Word → CondFlags → CondFlags} {s t : State} (hw : ∀ ws, ∀ x ∈ effect ws, ∀ z, x.1 ≠ .reg 19 z)
    (h : s.settle (baseRun m accesses effect cond s) = .next t) : t.fpcrw = s.fpcrw := by
  rcases settle_next h with hr | ⟨x, _, rfl⟩
  · obtain ⟨ws, u, hu, ht⟩ := baseRun_cases hr
    have hkept : u.fpcrw = s.fpcrw := writeAll_fpcrw hu fun x hx => hw ws x (mem_of_mem_memoryFirst hx)
    rcases ht with rfl | ⟨k, rfl⟩
    · exact hkept
    · exact hkept
  · rfl

theorem execBase_fpcrw {m : BaseMnemonic} {operands : List Operand} {s t : State}
    (hd : ∀ z, Operand.reg 19 z ∉ baseDestinations m operands) (h : execBase m operands s = .next t) :
    t.fpcrw = s.fpcrw := by
  have ne_of_mem : ∀ {o}, o ∈ baseDestinations m operands → ∀ z, o ≠ .reg 19 z := fun ho z e => hd z (e ▸ ho)
  unfold execBase at h
  split at h
  · cases h
    rfl
  split at h
  · refine baseRun_fpcrw (fun ws x hx => ne_of_mem ?_) h
    simp [baseDestinations, movEffect_mem hx]
  · exact baseRun_fpcrw (fun _ _ hx => absurd hx List.not_mem_nil) h
  · exact baseRun_fpcrw (fun _ _ hx => absurd hx List.not_mem_nil) h
  · refine baseRun_fpcrw (fun ws x hx => ne_of_mem ?_) h
    simpa [baseDestinations] using xchgEffect_mem hx
  · refine baseRun_fpcrw (fun ws x hx => ne_of_mem ?_) h
    simpa [baseDestinations] using cmpxchgEffect_mem hx
  · cases h

/-! Sticky bits (rule R171). -/

theorem getLsbD_assertExcs_of_set {w : Word} (e : List FpExc) {j : Nat} (h : w.getLsbD j = true) :
    (assertExcs w e).getLsbD j = true := by
  rw [getLsbD_assertExcs, h, Bool.true_or]

theorem getLsbD_assertExcs_of_mem (w : Word) {e : List FpExc} {x : FpExc} (h : x ∈ e) :
    (assertExcs w e).getLsbD (8 + x.number) = true := by
  have hany : e.any (fun y => 8 + x.number == 8 + y.number) = true := List.any_eq_true.2 ⟨x, h, beq_self_eq_true _⟩
  rw [getLsbD_assertExcs, hany, Bool.or_true]

/-- Settles O33: recording exceptions clears no bit and sets that of each of them, and it is all that becomes of the
control word. -/
theorem exceptBitsAreSticky : Obligations.ExceptBitsAreSticky := by
  refine ⟨fun i s t j h hd _ _ hj => ?_, fun m ops s t h hd => execBase_fpcrw hd h, fun s t e x commit hc h hx => ?_⟩
  · obtain ⟨e, he⟩ := exec_fpcrw hd h
    rw [he]
    exact getLsbD_assertExcs_of_set e hj
  · rw [State.asserted, finish_fpcrw hc h]
    exact getLsbD_assertExcs_of_mem s.fpcrw hx

end Sys2Proof.Machine
end

section
/-! Steps and runs (rules R12, R26, R57, R64, R70, R72, R180, R205): which entry a step runs, what it does at an entry
that decodes and at one that the decoder rejects, and when there is no further step. -/

namespace Sys2Proof.Machine

/-! The entry that a step runs. -/

theorem step_of_decode_ok {s : State} {e : Encoded} {i : Instr} (ht : s.trapped = none)
    (hp : s.program[s.ip]? = some (.word e)) (he : decode e = .ok i) : step s = exec i s := by
  simp only [step, stepOnce, runEntry, ht, hp, he]

theorem step_of_trapped {s : State} {x : Trap} (h : s.trapped = some x) : step s = .fault (.runEnded x) := by
  simp only [step, stepOnce, h]

theorem step_of_exhausted {s : State} (ht : s.trapped = none) (h : s.program.length ≤ s.ip) :
    step s = .fault .done := by
  simp only [step, stepOnce, ht, List.getElem?_eq_none h]

/-- Settles O6. -/
theorem stepRunsDecodedInstruction : Obligations.StepRunsDecodedInstruction :=
  fun _ _ _ ht hp he => step_of_decode_ok ht hp he

/-- Settles O7: the two ends of a run are the first two tests of a step. -/
theorem endedRunsStay : Obligations.EndedRunsStay :=
  fun _ => ⟨fun _ => step_of_trapped, step_of_exhausted⟩

/-- Settles O3, by decoding the four words. -/
theorem wordsDecode : Obligations.WordsDecode := by
  refine ⟨?_, ?_, ?_, ?_⟩ <;> decide

/-! Placing an entry. -/

/-- The entry placed at `ip` stands there, whether the program reached so far or was filled up. -/
theorem placeEntry_getElem? (program : List Entry) (ip : Nat) (e : Entry) :
    (placeEntry program ip e)[ip]? = some e := by
  have hlen : (program.take ip ++ List.replicate (ip - program.length) e).length = ip := by
    rw [List.length_append, List.length_take, List.length_replicate]
    omega
  rw [placeEntry, List.getElem?_append_right hlen.le, hlen, Nat.sub_self]
  rfl

theorem withEntry_fetch (s : State) (e : Entry) : (s.withEntry e).program[(s.withEntry e).ip]? = some e :=
  placeEntry_getElem? s.program s.ip e

/-- Settles O8: the entry placed is the one fetched. -/
theorem placedInstructionRuns : Obligations.PlacedInstructionRuns :=
  fun s _ _ he =>
    ⟨step_of_decode_ok (withEntry_trapped s _) (withEntry_fetch s _) he, withEntry_ip s _, withEntry_mem s _⟩

/-! Entries that the decoder rejects (rules R53 to R57). -/

theorem opcodeRow_undefined {n : Nat} (hlo : 0x10c ≤ n) (hhi : n ≤ 0x10f) : opcodeRow n = none := by
  have hcases : n = 0x10c ∨ n = 0x10d ∨ n = 0x10e ∨ n = 0x10f := by omega
  rcases hcases with rfl | rfl | rfl | rfl <;> decide

theorem otherOpcode_undefined {n : Nat} (hlo : 0x10c ≤ n) (hhi : n ≤ 0x10f) : otherOpcode n = .undefinedOpcode n := by
  rw [otherOpcode, if_neg (by omega), if_pos ⟨hlo, hhi⟩]

theorem otherOpcode_outside {n : Nat} (hbase : ¬ (1 ≤ n ∧ n ≤ 7)) (hund : ¬ (0x10c ≤ n ∧ n ≤ 0x10f)) :
    otherOpcode n = .outsideExtension n := by
  rw [otherOpcode, if_neg hbase, if_neg hund]

/-- Reserved bits of `h` are those that the row's layout does not admit (rules R53, R55, R56). -/
theorem admits_eq_false {layout : HLayout} {h : Nat} (hr : (layout = .h00f ∧ 2 ≤ h) ∨ (layout = .h0 ∧ h ≠ 0)) :
    layout.admits h = false := by
  rcases hr with ⟨rfl, hh⟩ | ⟨rfl, hh⟩
  · exact decide_eq_false (by omega)
  · exact decide_eq_false hh

theorem decode_of_reserved_h {e : Encoded} {row : OpcodeRow} (hrow : opcodeRow (opcodeField e.first) = some row)
    (ha : row.layout.admits (hField e.first) = false) : decode e = .error .reservedH := by
  simp only [decode, hrow, ha, Bool.false_eq_true, if_false]

theorem decodeOperands_error {rs : List RawOperand} {err : DecodeError} (h : decodeOperands rs = .error err) :
    err = .operandSize := by
  induction rs with
  | nil => cases h
  | cons r rs ih =>
    unfold decodeOperands at h
    split at h
    · rename_i hr
      cases h
      unfold RawOperand.decode at hr
      repeat' split at hr
      all_goals cases hr
      all_goals rfl
    · split at h
      · rename_i hrs
        cases h
        exact ih hrs
      · cases h

/-- A rejected form of an opcode of the map is refused where the extension is enabled, and raises UND where it is not
(rules R57 c, R80 step 1). -/
theorem rejected_of_row {e : Encoded} {row : OpcodeRow} {err : DecodeError} (s : State) (operands : List RawOperand)
    (hrow : opcodeRow (opcodeField e.first) = some row) (h : decode e = .error err) :
    ∃ r, rejected s operands err = refusedForm s r := by
  simp only [decode, hrow] at h
  split at h
  · split at h
    · rename_i hos
      cases h
      exact decodeOperands_error hos ▸ ⟨.operandSize, rfl⟩
    · split at h
      · cases h
        exact ⟨.operandCount, rfl⟩
      · split at h
        · cases h
        · cases h
          exact ⟨.immediateForm, rfl⟩
  · cases h
    exact ⟨.reservedH, rfl⟩

theorem refusedForm_disabled {s : State} (r : Refusal) (h : s.fpen = false) :
    refusedForm s r = .next (s.raise .und) := by
  simp [refusedForm, h]

/-- While the extension is disabled, every entry of an opcode of the map raises UND (rule R57 c). -/
theorem step_of_row_disabled {s : State} {e : Encoded} {row : OpcodeRow} (ht : s.trapped = none)
    (hp : s.program[s.ip]? = some (.word e)) (hrow : opcodeRow (opcodeField e.first) = some row)
    (hf : s.fpen = false) : step s = .next (s.raise .und) := by
  cases hd : decode e with
  | ok i => rw [step_of_decode_ok ht hp hd, exec_disabled i hf]
  | error err =>
    obtain ⟨r, hr⟩ := rejected_of_row s e.operands hrow hd
    rw [step_of_decode_error ht hp hd, hr, refusedForm_disabled r hf]

/-- An operand is a reserved register: 19 while the extension is disabled, or one the implementation lists (rules R12,
R62). -/
def NamesReservedRegister (s : State) (operands : List RawOperand) : Prop :=
  ∃ n z, RawOperand.reg n z ∈ operands ∧ ((n = 19 ∧ s.fpen = false) ∨ (n ≠ 19 ∧ n ∈ s.impl.reservedRegs))

/-- A register that is no floating-point one is reserved if it is 19 and the extension is disabled, or listed. -/
theorem isReservedNumber_iff {s : State} {n : Nat} (hn : ¬ (24 ≤ n ∧ n ≤ 31)) :
    isReservedNumber s n = true ↔ (n = 19 ∧ s.fpen = false) ∨ (n ≠ 19 ∧ n ∈ s.impl.reservedRegs) := by
  by_cases h19 : n = 19
  · simp [isReservedNumber, isExtensionReg, h19]
  · have hext : isExtensionReg n = false := decide_eq_false fun h => h.elim h19 hn
    simp [isReservedNumber, hext, h19]

theorem any_namesReserved_iff {s : State} {operands : List RawOperand}
    (hfp : ¬ ∃ n z, RawOperand.reg n z ∈ operands ∧ 24 ≤ n ∧ n ≤ 31) :
    operands.any (namesReserved s) = true ↔ NamesReservedRegister s operands := by
  have hn : ∀ {n z}, RawOperand.reg n z ∈ operands → ¬ (24 ≤ n ∧ n ≤ 31) := fun ho h => hfp ⟨_, _, ho, h⟩
  rw [List.any_eq_true]
  constructor
  · rintro ⟨o, ho, hres⟩
    cases o with
    | reg n z => exact ⟨n, z, ho, (isReservedNumber_iff (hn ho)).1 hres⟩
    | mem | imm => cases hres
  · rintro ⟨n, z, ho, hres⟩
    exact ⟨_, ho, (isReservedNumber_iff (hn ho)).2 hres⟩

/-- What an opcode outside the map and not undefined does where no floating-point register is named: UND on a reserved
register, and no meaning otherwise. -/
theorem rejected_otherOpcode (s : State) {n : Nat} {operands : List RawOperand}
    (hund : ¬ (0x10c ≤ n ∧ n ≤ 0x10f)) (hfp : operands.any RawOperand.isFpReg = false) :
    rejected s operands (otherOpcode n) =
      if operands.any (namesReserved s) then .next (s.raise .und)
      else .refused (if 1 ≤ n ∧ n ≤ 7 then .baseSemantics else .outsideExtension n) := by
  by_cases hbase : 1 ≤ n ∧ n ≤ 7
  · simp [otherOpcode_base hbase.1 hbase.2, rejected, hfp, hbase]
  · simp only [otherOpcode_outside hbase hund, rejected, hfp, hbase, Bool.not_false, Bool.true_and, if_false]

theorem rejected_outside_of_fpReg (s : State) (n : Nat) {operands : List RawOperand}
    (hfp : operands.any RawOperand.isFpReg = true) :
    rejected s operands (.outsideExtension n) = .refused (.outsideExtension n) := by
  simp [rejected, hfp]

/-- Settles O4: the decoder names what it rejects, and the fetch gives each name its exception or refusal. -/
theorem undefinedOpcodesAndForms : Obligations.UndefinedOpcodesAndForms := by
  intro s e ht hp
  refine ⟨fun hlo hhi => ?_, fun row hrow => ⟨step_of_row_disabled ht hp hrow, fun hf hr => ?_⟩, fun hrow hund => ?_⟩
  · have hd := decode_of_opcodeRow_eq_none (opcodeRow_undefined hlo hhi)
    rw [step_of_decode_error ht hp hd, otherOpcode_undefined hlo hhi]
    rfl
  · rw [step_of_decode_error ht hp (decode_of_reserved_h hrow (admits_eq_false hr))]
    simp [rejected, refusedForm, hf]
  · rw [step_of_decode_error ht hp (decode_of_opcodeRow_eq_none hrow)]
    refine ⟨fun hfp => ?_, fun hfp hbase => ?_⟩
    · have hany : e.operands.any RawOperand.isFpReg = false :=
        Bool.eq_false_of_not_eq_true (mt any_isFpReg_iff.1 hfp)
      rw [rejected_otherOpcode s hund hany]
      exact ⟨fun hres => if_pos ((any_namesReserved_iff hfp).2 hres),
        fun hres => if_neg (mt (any_namesReserved_iff hfp).1 hres)⟩
    · rw [otherOpcode_outside hbase hund]
      exact rejected_outside_of_fpReg s _ (any_isFpReg_iff.2 hfp)

end Sys2Proof.Machine
end

section
/-! Startup, bit 17 of `flags`, and the precision of traps (rules R22, R23, R26, R28, R30, R174, R180). No write of an
operand reaches `cr0`, the position in the program or the outcome of the run, so a step that has a next state changes
them only where it goes on or raises. -/

namespace Sys2Proof.Machine

/-! Bit 17 of register 17 (rule R23). -/

/-- Bit 17 is set last, so that no position of a named bit hides it. -/
theorem flagsWord_bit17 (s : State) : s.flagsWord.getLsbD 17 = s.fpen := by
  unfold State.flagsWord
  rw [getLsbD_setBit, if_pos ⟨rfl, by decide⟩]

theorem readReg_flags_bit17 (s : State) : (s.readReg 17).getLsbD 17 = s.fpen := by
  have hread : s.readReg 17 = s.flagsWord := by simp only [State.readReg, regClass_flags]
  rw [hread, flagsWord_bit17]

/-- Settles O9: the fields of the control words of rules R24, R28 and R30, and bit 17 of `flags` by `cr0`. -/
theorem startupState : Obligations.StartupState := by
  refine ⟨by decide, by decide, by decide, by decide, by decide, fun x => ?_, by decide, by decide, ?_, by decide⟩
  · cases x <;> decide
  · rw [readReg_flags_bit17]
    decide

/-! What writes leave as it is. -/

/-- The fields that only raising, going on and the harness's setters change. -/
structure SameRun (s t : State) : Prop where
  cr0 : t.cr0 = s.cr0
  ip : t.ip = s.ip
  trapped : t.trapped = s.trapped

theorem writeOp_sameRun {s t : State} {d : Operand} {v : Word} (h : s.writeOp d v = .ok t) : SameRun s t := by
  rcases writeOp_cases h with ⟨n, z, _, rfl⟩ | ⟨ea, z, pa, _, _, _, rfl⟩
  · exact ⟨writeReg_cr0 s n _, writeReg_ip s n _, writeReg_trapped s n _⟩
  · exact ⟨rfl, rfl, rfl⟩

theorem unlessF_sameRun {s t u : State} (f : Bool) (ht : SameRun s t) (hu : SameRun s u) :
    SameRun s (unlessF f t u) := by
  cases f
  · exact hu
  · exact ht

theorem commit_sameRun {commit : State → Except Stop State} {s t : State} (hc : IsCommit commit)
    (h : commit s = .ok t) : SameRun s t := by
  cases hc with
  | fp f d b =>
    obtain ⟨u, hu, rfl⟩ := commitFp_cases h
    obtain ⟨hcr0, hip, htrapped⟩ := writeOp_sameRun hu
    exact unlessF_sameRun f ⟨hcr0, hip, htrapped⟩ ⟨hcr0, hip, htrapped⟩
  | int f d r =>
    obtain ⟨u, hu, rfl⟩ := commitInt_cases h
    obtain ⟨hcr0, hip, htrapped⟩ := writeOp_sameRun hu
    exact unlessF_sameRun f ⟨hcr0, hip, htrapped⟩ ⟨hcr0, hip, htrapped⟩
  | arith f d b =>
    obtain ⟨u, hu, rfl⟩ := commitArith_cases h
    obtain ⟨hcr0, hip, htrapped⟩ := writeOp_sameRun hu
    exact unlessF_sameRun f ⟨hcr0, hip, htrapped⟩ ⟨hcr0, hip, htrapped⟩
  | cmp o =>
    cases h
    exact ⟨rfl, rfl, rfl⟩

theorem writeAll_sameRun {s t : State} {writes : List (Operand × Word)} (h : s.writeAll writes = .ok t) :
    SameRun s t := by
  induction writes generalizing s with
  | nil => cases h; exact ⟨rfl, rfl, rfl⟩
  | cons x writes ih =>
    simp only [State.writeAll] at h
    split at h
    · cases h
    · rename_i u hu
      have hfirst := writeOp_sameRun hu
      have hrest := ih h
      exact ⟨hrest.cr0.trans hfirst.cr0, hrest.ip.trans hfirst.ip, hrest.trapped.trans hfirst.trapped⟩

/-! `cr0` through a step. -/

theorem exec_cr0 {i : Instr} {s t : State} (h : exec i s = .next t) : t.cr0 = s.cr0 := by
  rcases exec_cases h with ⟨x, rfl⟩ | rfl | ⟨e, commit, hc, hf⟩
  · rfl
  · rfl
  · rcases finish_cases hf with ⟨_, u, hu, rfl⟩ | ⟨_, _, rfl⟩ | ⟨_, _, u, hu, rfl⟩
    · exact (commit_sameRun hc hu).cr0
    · rfl
    · exact (commit_sameRun hc hu).cr0

theorem execBase_cr0 {m : BaseMnemonic} {operands : List Operand} {s t : State} (h : execBase m operands s = .next t) :
    t.cr0 = s.cr0 := by
  rcases execBase_cases h with ⟨x, rfl⟩ | ⟨writes, u, hu, rfl | ⟨k, rfl⟩⟩
  · rfl
  · exact (writeAll_sameRun hu).cr0
  · exact (writeAll_sameRun hu).cr0

theorem step_cr0 {s t : State} (h : step s = .next t) : t.cr0 = s.cr0 := by
  rcases step_cases h with rfl | ⟨i, hi⟩ | ⟨m, operands, hb⟩
  · rfl
  · exact exec_cr0 hi
  · exact execBase_cr0 hb

/-- Settles O22: bit 17 is read from `cr0`, which neither a write of register 17 nor a step changes. -/
theorem flagsBit17FollowsFpen : Obligations.FlagsBit17FollowsFpen := by
  refine ⟨readReg_flags_bit17, fun s v => ?_, fun s t h => ?_⟩
  · rw [readReg_flags_bit17, writeReg_fpen]
  · simp only [readReg_flags_bit17, State.fpen, step_cr0 h]

/-! Traps (rules R174, R180). -/

/-- Settles O36: an instruction raises over the state before it, goes on, or ends its operation, where the trap with
`FP_TRAP_WRITES_RESULT = false` comes before the result is committed. -/
theorem trapsArePrecise : Obligations.TrapsArePrecise := by
  intro i s t hs h
  rcases exec_cases h with ⟨x, rfl⟩ | rfl | ⟨e, commit, hc, hf⟩
  · exact ⟨nofun, fun y hy _ => .inl (by rw [Option.some.inj hy])⟩
  · exact ⟨fun _ => rfl, fun y hy => absurd (hs.symm.trans hy) nofun⟩
  rcases finish_cases hf with ⟨_, u, hu, rfl⟩ | ⟨hun, _, rfl⟩ | ⟨_, hw, u, hu, rfl⟩
  · obtain ⟨_, hip, htrapped⟩ := commit_sameRun hc hu
    refine ⟨fun _ => congrArg (· + 1) hip, fun y hy => ?_⟩
    exact absurd ((htrapped.trans hs).symm.trans hy) nofun
  · refine ⟨nofun, fun y hy _ => .inr ⟨e, (anyUnmasked_iff s e).1 hun, ?_, ?_⟩⟩
    · exact (Option.some.inj hy).symm
    · rw [Option.some.inj hy]
  · exact ⟨nofun, fun y _ hn => absurd (hw.symm.trans hn) nofun⟩

end Sys2Proof.Machine
end

section
/-! The checks that come last (rules R40 to R43, R48, R80): what an access comes to, the first access that fails, a
reserved rounding mode once the checks have passed, and a store into the program text. -/

namespace Sys2Proof.Machine

/-! The first failing access (rules R80 step 6, R181). -/

/-- Where the checks of an instruction pass up to its accesses, those decide. -/
theorem fpCommonChecks_eq_checkAccesses {i : Instr} {s : State} (he : Enabled s i.operands)
    (hv : operandVerdict s i = .admitted) (hp : (moveParts i).isSome = true → Permitted s i.operands) :
    fpCommonChecks s (operandVerdict s i) (moveParts i).isSome (accessesOf i) = checkAccesses s (accessesOf i) := by
  obtain ⟨hf, hx, hw⟩ := he
  have hwf : (accessesOf i).all (fun a => a.1.wellFormed) = true := accessesOf_wellFormed (List.all_eq_true.2 hw)
  have hsuper : ((moveParts i).isSome && s.flags.xm && (accessesOf i).any (fun a => isSuper s.impl a.1)) = false := by
    cases hm : (moveParts i).isSome with
    | false => rfl
    | true =>
      rcases hp hm with hxm | hnone
      · simp [hxm]
      · rw [Bool.and_eq_false_iff, List.any_eq_false]
        refine .inr fun a ha => by simp [hnone a.1 (accessesOf_fst i ▸ List.mem_map_of_mem ha)]
  rw [hv]
  simp only [fpCommonChecks, hf, hwf, hx, hsuper, Bool.not_true, Bool.false_eq_true, if_false]

/-- Settles O17: the accesses are checked in operand order, and the instruction ends with the stop of its checks. -/
theorem firstFailingAccessDecides : Obligations.FirstFailingAccessDecides := by
  intro i s pre post ea z kpre kpost k stop hacc he hv hp hpre hkpre hstop
  have hne : accessesOf i ≠ [] := by simp [hacc]
  refine exec_checks_error _ ?_ ?_ rfl ?_
  · rintro rfl; exact hne rfl
  · rintro rfl; exact hne rfl
  · rw [fpCommonChecks_eq_checkAccesses he hv hp, hacc]
    exact checkAccesses_fail hpre hkpre hstop

/-! Reserved rounding modes (rules R21, R89). -/

theorem roundMode_reserved {s : State} (h : 5 ≤ s.rnd) : s.roundMode = .error (.refuse .reservedRounding) := by
  have hnone : RoundMode.ofRnd s.rnd = none := by
    unfold RoundMode.ofRnd
    split <;> first | rfl | omega
  simp only [State.roundMode, hnone]

section
variable {s : State} {d src : Operand} {stop : Stop} (hm : s.roundMode = .error stop)
include hm

theorem moveToFp_of_roundMode_error (value : OpSize → Word → Rat) (f : Bool)
    (hc : fpCommonChecks s (toFpConstraint s d src) true (moveAccesses d src) = .ok ()) :
    moveToFp value f d src s = .error stop := by
  simp only [moveToFp, hc, hm]

/-- A converting move that rounds asks for the rounding mode once its checks have passed. -/
theorem exec_move_of_roundMode_error {i : Instr} {f : Bool} (hi : moveParts i = some (f, d, src))
    (hr : roundsByRnd i = true)
    (hc : fpCommonChecks s (operandVerdict s i) true (moveAccesses d src) = .ok ()) :
    exec i s = s.settle (.error stop) := by
  cases i <;> simp only [moveParts, Option.some.injEq, Prod.mk.injEq, reduceCtorEq] at hi
  all_goals obtain ⟨rfl, rfl, rfl⟩ := hi
  case movsif => exact congrArg s.settle (moveToFp_of_roundMode_error hm _ _ hc)
  case movxf => exact congrArg s.settle (moveToFp_of_roundMode_error hm _ _ hc)
  case movfsi => cases hr
  case movfx =>
    simp only [operandVerdict] at hc
    simp only [exec, execMovfx, hc, hm]
  case cvtf =>
    simp only [operandVerdict] at hc
    simp only [exec, execCvtf, hc, hm]

/-- An arithmetic instruction that rounds does so too. -/
theorem exec_arith_of_roundMode_error {i : Instr} {f : Bool} {others : List Operand}
    (hi : arithParts i = some (f, d, others)) (hr : roundsByRnd i = true)
    (hc : fpCommonChecks s (operandVerdict s i) false (accessesOf i) = .ok ()) : exec i s = s.settle (.error stop) := by
  obtain ⟨compute, he⟩ := exec_eq_arith hi s
  obtain ⟨_, hv, hacc, _⟩ := arithParts_spec hi s
  rw [hv, hacc] at hc
  rw [he, hr]
  simp only [arith, hc, State.arithMode, hm, if_true]

end

/-- Settles O60: the rounding mode is asked for next after the checks. -/
theorem reservedRoundingIsRefused : Obligations.ReservedRoundingIsRefused := by
  intro i s hr hrnd he hv hp ha
  have hc := checks_pass_of_ready he hv hp ha
  have hm := roundMode_reserved hrnd
  rcases instr_families i with
    ⟨f, d, src, hi⟩ | ⟨f, d, others, hi⟩ | ⟨a, rfl⟩ | ⟨a, b, rfl⟩ | rfl | rfl
  · rw [hi, accessesOf_of_moveParts hi] at hc
    exact exec_move_of_roundMode_error hm hi hr hc
  · obtain ⟨_, _, _, hmove⟩ := arithParts_spec hi s
    rw [hmove] at hc
    exact exec_arith_of_roundMode_error hm hi hr hc
  all_goals cases hr

/-! What an access comes to (rules R40, R42, R43). -/

section
variable {s : State} {ea : Word} {z : OpSize} {k : AccessKind}

/-- Alignment lets an access go on: a multiple of its size under any listed rule, any address, or what the platform's
own rule admits. -/
theorem alignmentOf_ok
    (h : (ea.toNat % z.bytes = 0 ∧ s.impl.alignment ≠ .platform) ∨ s.impl.alignment = .anyAddress ∨
      (s.impl.alignment = .platform ∧ Config.alignment ea.toNat z.bytes k = .ok)) :
    alignmentOf s.impl.alignment ea.toNat z.bytes k = .ok := by
  rcases h with ⟨hmul, hne⟩ | hany | ⟨hplat, hok⟩
  · cases ha : s.impl.alignment with
    | naturalOnly => exact if_pos hmul
    | anyAddress => rfl
    | traps x => exact if_pos hmul
    | platform => exact absurd ha hne
  · rw [hany]; rfl
  · rw [hplat]; exact hok

theorem access_of_refuse (h : alignmentOf s.impl.alignment ea.toNat z.bytes k = .refuse) :
    s.access ea z k = .error (.refuse .misaligned) := by
  simp only [State.access, h]

theorem access_of_trap {x : Trap} (h : alignmentOf s.impl.alignment ea.toNat z.bytes k = .trap x) :
    s.access ea z k = .error (.raise x) := by
  simp only [State.access, h]

variable (h : alignmentOf s.impl.alignment ea.toNat z.bytes k = .ok)
include h

/-- An aligned access is PROT where its raw translation is. -/
theorem access_of_prot (ht : translateRaw s.impl ea.toNat z.bytes k s.flags.xm = .prot) :
    s.access ea z k = .error (.raise .prot) := by
  simp only [State.access, translate, h, ht]

theorem access_of_pf (ht : translateRaw s.impl ea.toNat z.bytes k s.flags.xm = .pf) :
    s.access ea z k = .error (.raise .pf) := by
  simp only [State.access, translate, h, ht]

/-- An aligned access that translates goes on where its physical address is in range (rule R40). -/
theorem access_of_physical {pa : Nat} (ht : translateRaw s.impl ea.toNat z.bytes k s.flags.xm = .ok pa) :
    s.access ea z k = if pa + z.bytes ≤ 2 ^ s.impl.addrWidth then .ok pa else .error (.raise .pf) := by
  simp only [State.access, translate, h, ht]
  split_ifs <;> rfl

end

/-! Translation by stretches (rule R43; log entry 9). -/

section
variable {impl : Impl} {ptlEnd ea n : Nat} {l : List AddrRange} (k : AccessKind) (xm : Bool)
  (h : impl.translation = .ranges ptlEnd l)
include h

theorem translateRaw_beyond_ptl (hlt : ptlEnd < ea + n) : translateRaw impl ea n k xm = .prot := by
  simp only [translateRaw, h, hlt, if_true]

/-- Within the range of the PTL mode, an access is a page fault where no stretch that holds it permits it. -/
theorem translateRaw_unavailable (hle : ea + n ≤ ptlEnd)
    (hout : ∀ r, r ∈ l → permits r k xm = true → ea < r.base ∨ r.base + r.len < ea + n) :
    translateRaw impl ea n k xm = .pf := by
  simp only [translateRaw, h, hle.not_gt, if_false]
  split
  · rfl
  · rename_i r hfind
    have hin := List.find?_some hfind
    simp only [Bool.and_eq_true, decide_eq_true_eq] at hin
    refine if_neg fun hp => ?_
    have := hout r (List.mem_of_find?_eq_some hfind) hp
    omega

/-- The first stretch that holds an access decides it. -/
theorem translateRaw_stretch {before after : List AddrRange} {r : AddrRange} (hle : ea + n ≤ ptlEnd)
    (hl : l = before ++ r :: after) (hout : ∀ q, q ∈ before → ea < q.base ∨ q.base + q.len < ea + n)
    (hlo : r.base ≤ ea) (hhi : ea + n ≤ r.base + r.len) :
    translateRaw impl ea n k xm = if permits r k xm then .ok (r.phys + (ea - r.base)) else .pf := by
  have hbefore : before.find? (fun q => decide (q.base ≤ ea) && decide (ea + n ≤ q.base + q.len)) = none := by
    refine List.find?_eq_none.2 fun q hq => ?_
    have := hout q hq
    simp only [Bool.and_eq_true, decide_eq_true_eq]
    omega
  have hr : (decide (r.base ≤ ea) && decide (ea + n ≤ r.base + r.len)) = true := by simp [hlo, hhi]
  have hfind : l.find? (fun q => decide (q.base ≤ ea) && decide (ea + n ≤ q.base + q.len)) = some r := by
    rw [hl, List.find?_append, hbefore, Option.none_or]
    exact List.find?_cons_of_pos hr
  simp only [translateRaw, h, hle.not_gt, if_false, hfind]

end

/-- What an aligned access comes to with paging enabled. -/
theorem access_of_ranges {s : State} {ea : Word} {z : OpSize} {k : AccessKind} {ptlEnd : Nat} {l : List AddrRange}
    (ha : alignmentOf s.impl.alignment ea.toNat z.bytes k = .ok) (hr : s.impl.translation = .ranges ptlEnd l) :
    (ptlEnd < ea.toNat + z.bytes → s.access ea z k = .error (.raise .prot)) ∧
    (ea.toNat + z.bytes ≤ ptlEnd →
      ((∀ r, r ∈ l → permits r k s.flags.xm = true → ea.toNat < r.base ∨ r.base + r.len < ea.toNat + z.bytes) →
        s.access ea z k = .error (.raise .pf)) ∧
      (∀ before r after, l = before ++ r :: after →
        (∀ q, q ∈ before → ea.toNat < q.base ∨ q.base + q.len < ea.toNat + z.bytes) →
        r.base ≤ ea.toNat → ea.toNat + z.bytes ≤ r.base + r.len →
        s.access ea z k =
          if permits r k s.flags.xm = true ∧ r.phys + (ea.toNat - r.base) + z.bytes ≤ 2 ^ s.impl.addrWidth then
            .ok (r.phys + (ea.toNat - r.base))
          else .error (.raise .pf))) := by
  refine ⟨fun hlt => access_of_prot ha (translateRaw_beyond_ptl k _ hr hlt), fun hle => ⟨fun hout => ?_, ?_⟩⟩
  · exact access_of_pf ha (translateRaw_unavailable k _ hr hle hout)
  · intro before r after hl hout hlo hhi
    have ht := translateRaw_stretch k s.flags.xm hr hle hl hout hlo hhi
    by_cases hp : permits r k s.flags.xm = true
    · rw [if_pos hp] at ht
      simp only [access_of_physical ha ht, hp, true_and]
    · rw [if_neg hp] at ht
      rw [access_of_pf ha ht, if_neg fun hboth => hp hboth.1]

/-- What an aligned access comes to with the platform's own translation. -/
theorem access_of_platform {s : State} {ea : Word} {z : OpSize} {k : AccessKind}
    (ha : alignmentOf s.impl.alignment ea.toNat z.bytes k = .ok) (hp : s.impl.translation = .platform) :
    s.access ea z k =
      match Config.translate ea.toNat z.bytes k s.flags.xm with
      | .ok pa => if pa + z.bytes ≤ 2 ^ s.impl.addrWidth then .ok pa else .error (.raise .pf)
      | .pf => .error (.raise .pf)
      | .prot => .error (.raise .prot) := by
  have hraw : translateRaw s.impl ea.toNat z.bytes k s.flags.xm = Config.translate ea.toNat z.bytes k s.flags.xm := by
    simp only [translateRaw, hp]
  cases ht : Config.translate ea.toNat z.bytes k s.flags.xm with
  | ok pa => exact access_of_physical ha (hraw.trans ht)
  | pf => exact access_of_pf ha (hraw.trans ht)
  | prot => exact access_of_prot ha (hraw.trans ht)

/-! A store into the program text (rule R48). -/

theorem bytes_pos (z : OpSize) : 0 < z.bytes := by cases z <;> decide

/-- A store falls inside the text exactly when one of its bytes is a byte of it. -/
theorem inText_iff {impl : Impl} {pa n : Nat} (hn : 0 < n) : inText impl pa n = true ↔
    ∃ a, pa ≤ a ∧ a < pa + n ∧ impl.textBase ≤ a ∧ a < impl.textBase + impl.textLen := by
  rw [inText, decide_eq_true_iff]
  constructor
  · rintro ⟨hlen, hlo, hhi⟩
    exact ⟨max pa impl.textBase, by omega⟩
  · rintro ⟨a, h⟩
    omega

theorem writeOp_intoText {s : State} {ea : Word} {z : OpSize} {pa : Nat} (v : Word) (ha : s.access ea z .write = .ok pa)
    (ht : inText s.impl pa z.bytes = true) : s.writeOp (.mem ea z) v = .error (.refuse .storeIntoText) := by
  simp only [State.writeOp, State.memWrite, ha, ht, if_true]

theorem writeOp_outsideText {s : State} {ea : Word} {z : OpSize} {pa : Nat} (v : Word)
    (ha : s.access ea z .write = .ok pa) (ht : inText s.impl pa z.bytes = false) :
    s.writeOp (.mem ea z) v = .ok { s with mem := storeBytes s.impl.byteOrder s.mem pa z.bytes v } := by
  simp only [State.writeOp, State.memWrite, ha, ht, Bool.false_eq_true, if_false]

/-- The end of an operation whose exceptions are all masked and whose result cannot be committed. -/
theorem finish_commit_error {s : State} {e : List FpExc} {commit : State → Except Stop State} {stop : Stop}
    (he : AllMasked s e) (hc : commit (s.record e) = .error stop) : s.finish e commit = .error stop := by
  simp only [State.finish, anyUnmasked_eq_false he, hc, Bool.false_eq_true, if_false]

theorem commitArith_intoText {s : State} {ea : Word} {z : OpSize} {pa : Nat} (f : Bool) (b : Word) (e : List FpExc)
    (ha : s.access ea z .write = .ok pa) (ht : inText s.impl pa z.bytes = true) :
    commitArith f (.mem ea z) b (s.record e) = .error (.refuse .storeIntoText) := by
  have hw : (s.record e).writeOp (.mem ea z) b = .error (.refuse .storeIntoText) := writeOp_intoText b ha ht
  simp only [commitArith, hw]

/-- Operands that can be read, with a memory destination whose write access is permitted, pass the checks of their
accesses, also where the write itself would be refused. -/
theorem allAccess_of_memDestination {s : State} {i : Instr} {f : Bool} {ea : Word} {z : OpSize} {others : List Operand}
    {bs : List (Format × Word)} {pa : Nat} (hi : arithParts i = some (f, .mem ea z, others))
    (hr : s.readOps (.mem ea z :: others) = .ok bs) (ha : s.access ea z .write = .ok pa) :
    AllAccess s (accessesOf i) := by
  obtain ⟨_, _, hacc, _⟩ := arithParts_spec hi s
  have hpass := readsAll_passes (readsAll_of_readOps hr)
  rw [hacc]
  intro ea' z' ks hm k hk
  rcases List.mem_cons.1 hm with heq | hm
  · cases heq
    rcases List.mem_pair.1 hk with rfl | rfl
    · exact hpass (.mem ea z) List.mem_cons_self .read (List.mem_singleton_self _)
    · exact ⟨pa, ha⟩
  · obtain ⟨o, ho, heq⟩ := List.mem_map.1 hm
    cases heq
    exact hpass _ (List.mem_cons_of_mem _ ho) k hk

/-- A masked arithmetic instruction that would store into the text is refused as a whole. -/
theorem exec_arith_intoText {s : State} {i : Instr} {f : Bool} {ea : Word} {z : OpSize} {others : List Operand}
    {bs : List (Format × Word)} {pa : Nat} (hi : arithParts i = some (f, .mem ea z, others))
    (he : Enabled s (.mem ea z :: others)) (hv : arithConstraint (.mem ea z) others = .admitted)
    (hr : s.readOps (.mem ea z :: others) = .ok bs) (hrnd : roundsByRnd i = true → s.rnd < 5)
    (hmask : ∀ x, s.masked x = true) (ha : s.access ea z .write = .ok pa) (ht : inText s.impl pa z.bytes = true) :
    exec i s = .refused .storeIntoText := by
  obtain ⟨hops, hverdict, hacc, hmove⟩ := arithParts_spec hi s
  have hc := checks_pass_of_ready (hops ▸ he) (hverdict.trans hv) (by simp [hmove])
    (allAccess_of_memDestination hi hr ha)
  rw [hverdict, hacc, hmove] at hc
  obtain ⟨compute, hexec⟩ := exec_eq_arith hi s
  obtain ⟨mode, hm⟩ := arithMode_defined hrnd
  have harith : arith (roundsByRnd i) compute f (.mem ea z) others s = .error (.refuse .storeIntoText) := by
    simp only [Option.isSome_none] at hc
    simp only [arith, hc, hm, hr]
    exact finish_commit_error (fun x _ => hmask x) (commitArith_intoText f _ _ ha ht)
  rw [hexec, harith, settle_refuse]

/-- Settles O18: alignment first, then the translation of the parameter `Translate`, then the text. -/
theorem accessOutcomes : Obligations.AccessOutcomes := by
  refine ⟨fun s ea z k => ⟨fun h => ?_, fun hne hrule => ?_, fun x hne hrule => ?_, fun hrule => ⟨?_, fun x => ?_⟩⟩,
    fun s ea z v pa ha => ⟨fun ht => ?_, fun ht => ?_⟩, ?_⟩
  · have halign := alignmentOf_ok h
    refine ⟨fun hflat => access_of_physical halign ?_, fun ptlEnd l => access_of_ranges halign,
      access_of_platform halign⟩
    simp only [translateRaw, hflat]
  · exact access_of_refuse (by rw [hrule]; exact if_neg hne)
  · exact access_of_trap (by rw [hrule]; exact if_neg hne)
  · exact fun hans => access_of_refuse (by rw [hrule]; exact hans)
  · exact fun hans => access_of_trap (by rw [hrule]; exact hans)
  · exact writeOp_intoText v ha ((inText_iff (bytes_pos z)).2 ht)
  · refine writeOp_outsideText v ha (Bool.eq_false_of_not_eq_true fun hin => ?_)
    obtain ⟨a, hlo, hhi, hbase, hend⟩ := (inText_iff (bytes_pos z)).1 hin
    have := ht a hlo hhi
    omega
  · intro i f ea z others s bs pa a hi he hv hr hrnd hmask ha hlo hhi hbase hend
    exact exec_arith_intoText hi he hv hr hrnd hmask ha ((inText_iff (bytes_pos z)).2 ⟨a, hlo, hhi, hbase, hend⟩)

end Sys2Proof.Machine
end

section
/-! Bytes in memory (rule R41): the bytes written are read back in place, the bytes of a number spell its low bits, and
reversing them twice changes nothing. -/

namespace Sys2Proof.Machine

/-! Bytes written and read. -/

theorem readByte_writeBytes {bs : List Byte} : ∀ (m : Memory) (a : Nat) {j : Nat} (h : j < bs.length),
    readByte (writeBytes m a bs) (a + j) = bs[j] := by
  induction bs with
  | nil => exact fun _ _ _ h => absurd h (Nat.not_lt_zero _)
  | cons b bs ih =>
    intro m a j h
    cases j with
    | zero =>
      rw [Nat.add_zero, writeBytes, readByte_writeBytes_other bs _ _ _ (.inl (Nat.lt_succ_self a))]
      exact readByte_writeByte_same m a b
    | succ j =>
      rw [writeBytes, ← Nat.add_assoc, Nat.add_right_comm]
      exact ih _ _ (Nat.lt_of_succ_lt_succ h)

theorem readBytes_eq_map (m : Memory) (n : Nat) :
    ∀ a, readBytes m a n = (List.range n).map fun j => readByte m (a + j) := by
  induction n with
  | zero => exact fun _ => rfl
  | succ n ih =>
    intro a
    rw [readBytes, ih, List.range_succ_eq_map, List.map_cons, List.map_map]
    simp [Function.comp_def, Nat.add_assoc, Nat.add_comm 1]

/-- The bytes just written are those read back. -/
theorem readBytes_writeBytes (m : Memory) (a : Nat) (bs : List Byte) :
    readBytes (writeBytes m a bs) a bs.length = bs := by
  rw [readBytes_eq_map]
  refine List.ext_getElem (by simp) fun j _ hj => ?_
  rw [List.getElem_map, List.getElem_range, readByte_writeBytes m a hj]

/-! The bytes of a number. -/

theorem orderBytes_orderBytes (o : ByteOrder) (bs : List Byte) : orderBytes o (orderBytes o bs) = bs := by
  cases o
  · rfl
  · exact List.reverse_reverse bs

theorem bytesToNat_natToBytes (n : Nat) : ∀ v, bytesToNat (natToBytes v n) = v % 256 ^ n := by
  induction n with
  | zero => exact fun v => (Nat.mod_one v).symm
  | succ n ih =>
    intro v
    rw [natToBytes, bytesToNat, ih, BitVec.toNat_ofNat, pow_succ' 256, Nat.mod_mul]

theorem getElem_natToBytes (n : Nat) : ∀ (v : Nat) {k : Nat} (h : k < (natToBytes v n).length),
    (natToBytes v n)[k] = BitVec.ofNat 8 (v / 256 ^ k) := by
  induction n with
  | zero => exact fun _ _ h => absurd h (Nat.not_lt_zero _)
  | succ n ih =>
    intro v k h
    cases k with
    | zero => simp [natToBytes]
    | succ k =>
      simp only [natToBytes, List.getElem_cons_succ, ih, Nat.div_div_eq_div_mul, pow_succ']

/-- Byte `k` of a word, least significant first. -/
theorem ofNat_div_eq_extractLsb' (v : Word) (k : Nat) :
    BitVec.ofNat 8 (v.toNat / 256 ^ k) = v.extractLsb' (8 * k) 8 := by
  refine BitVec.eq_of_toNat_eq ?_
  rw [BitVec.toNat_ofNat, BitVec.extractLsb'_toNat, Nat.shiftRight_eq_div_pow, pow_mul]
  rfl

/-- Settles O19: what is stored is the low bytes in memory order, and reading puts them back in order. -/
theorem loadAfterStore : Obligations.LoadAfterStore := by
  intro o m a z v
  refine ⟨?_, fun b hb => readByte_storeBytes_other o m v hb⟩
  have hread := readBytes_writeBytes m a (orderBytes o (natToBytes v.toNat z.bytes))
  rw [length_orderBytes, length_natToBytes] at hread
  have hpow : 256 ^ z.bytes = 2 ^ z.bits := (pow_mul 2 8 z.bytes).symm
  rw [loadBytes, storeBytes, hread, orderBytes_orderBytes, bytesToNat_natToBytes, hpow]
  rfl

/-- Settles O20: byte `k` of the value is the one at place `k` of its bytes, or at place `k` from their end. -/
theorem storedBytePlacement : Obligations.StoredBytePlacement := by
  intro m a n k v hk _
  refine ⟨?_, ?_⟩
  · have hlt : k < (natToBytes v.toNat n).length := by rwa [length_natToBytes]
    rw [storeBytes, orderBytes, readByte_writeBytes m a hlt, getElem_natToBytes, ofNat_div_eq_extractLsb']
  · have hlt : n - 1 - k < (natToBytes v.toNat n).reverse.length := by
      rw [List.length_reverse, length_natToBytes]
      omega
    have hidx : (natToBytes v.toNat n).length - 1 - (n - 1 - k) = k := by
      rw [length_natToBytes]
      omega
    rw [storeBytes, orderBytes, readByte_writeBytes m a hlt, List.getElem_reverse]
    simp only [hidx, getElem_natToBytes, ofNat_div_eq_extractLsb']

end Sys2Proof.Machine
end

section
/-! Patterns of a format and integers (rules R87, R88, R93, R94, R102, R106, R107, R109): encoding undoes decoding, what
the produced NaNs are, and the integers the converting moves deliver and store. -/

namespace Sys2Proof

open Machine

/-! Encoding undoes decoding (rules R87, R88). -/

/-- The encoder on values of every class (rule R88). -/
def encodeFp (F : Format) : FpVal → Word
  | .inf s => encInf F s
  | .nan s t => encNaN F s t
  | .fin s m => if m = 0 then encZero F s else encFin F s m

section
variable {F : Format} {b : Word}

theorem expField_lt (F : Format) (b : Word) : expField F b < 2 ^ F.expBits := Nat.mod_lt _ (Nat.two_pow_pos _)

theorem fracField_lt (F : Format) (b : Word) : fracField F b < 2 ^ F.fracBits := Nat.mod_lt _ (Nat.two_pow_pos _)

/-- A pattern of the format's width has no bits beside its three fields. -/
theorem packFp_fields (hF : isFormat F) (hb : b.toNat < 2 ^ F.width) :
    packFp F (signField F b) (expField F b) (fracField F b) = b := by
  refine BitVec.eq_of_toNat_eq ?_
  have hhigh : b.toNat / 2 ^ F.fracBits / 2 ^ F.expBits < 2 := by
    rw [Nat.div_div_eq_div_mul, ← pow_add]
    refine Nat.div_lt_of_lt_mul ?_
    rwa [← pow_succ, show F.fracBits + F.expBits + 1 = F.width by simp only [Format.width]; omega]
  have hsign : (signField F b).toNat = b.toNat / 2 ^ F.fracBits / 2 ^ F.expBits := by
    rw [signField, width_sub_one, BitVec.getLsbD, Nat.testBit_eq_decide_div_mod_eq, pow_add,
      ← Nat.div_div_eq_div_mul, Nat.mod_eq_of_lt hhigh]
    rcases Nat.lt_succ_iff_lt_or_eq.1 hhigh with h | h
    · simp [Nat.lt_one_iff.1 h]
    · simp [h]
  rw [toNat_packFp hF _ (expField_lt F b) (fracField_lt F b), hsign, expField, fracField, Nat.div_add_mod,
    Nat.div_add_mod]

theorem encodeFp_denormal (F : Format) (s : Bool) {t : Nat} (ht : t < 2 ^ F.fracBits) :
    encodeFp F (.fin s (t * minSub F)) = packFp F s 0 t := by
  dsimp only [encodeFp]
  split_ifs with h0
  · have : t = 0 := Nat.cast_eq_zero.1 ((mul_eq_zero.1 h0).resolve_right (pow2_ne_zero _))
    rw [this, encZero]
  · exact encFin_denormal F s ht

theorem encodeFp_normal (F : Format) (s : Bool) {t : Nat} (ht : t < 2 ^ F.fracBits) {e : Int} (he : F.emin ≤ e) :
    encodeFp F (.fin s ((2 ^ F.fracBits + t : Nat) * pow2 (e - F.fracBits))) = packFp F s (e + F.bias).toNat t := by
  have hne : ((2 ^ F.fracBits + t : Nat) : Rat) * pow2 (e - F.fracBits) ≠ 0 :=
    ((pow2_pos e).trans_le (normal_bounds F ht e).1).ne'
  rw [encodeFp, if_neg hne, encFin_normal F s ht he]

theorem encodeFp_decodeFp (hF : isFormat F) (hb : b.toNat < 2 ^ F.width) : encodeFp F (decodeFp F b) = b := by
  have hfields := packFp_fields hF hb
  have ht := fracField_lt F b
  unfold decodeFp
  dsimp only
  split_ifs with hmax hzero hmin
  · rw [hmax, hzero] at hfields
    exact hfields
  · rw [hmax] at hfields
    exact hfields
  · rw [hmin] at hfields
    exact (encodeFp_denormal F _ ht).trans hfields
  · have hemin : F.emin ≤ (expField F b : Int) - F.bias := by
      simp only [Format.emin]
      omega
    rw [normal_value, encodeFp_normal F _ ht hemin, sub_add_cancel, Int.toNat_natCast]
    exact hfields

theorem decodeFp_nan_fraction {s : Bool} {t : Nat} (h : decodeFp F b = .nan s t) : 0 < t ∧ t < 2 ^ F.fracBits := by
  have ht := fracField_lt F b
  unfold decodeFp at h
  dsimp only at h
  split_ifs at h with hmax hzero
  cases h
  exact ⟨Nat.pos_of_ne_zero hzero, ht⟩

end

/-- Settles O24: the encoder gives back the pattern of a value of any class. -/
theorem encodingInvertsDecoding : Obligations.EncodingInvertsDecoding := by
  intro F b hF hb
  have henc := encodeFp_decodeFp hF hb
  refine ⟨fun sg m h => ⟨(isValue_of_decodeFp hF h).1, ?_⟩, fun sg h => ?_, fun sg t h => ⟨?_, decodeFp_nan_fraction h⟩⟩
  all_goals
    rw [h] at henc
    exact henc.symm

/-! Produced NaNs (rules R93, R94). -/

theorem isSignalling_of_not_nan {F : Format} {b : Word} (rule : SignalRule) (h : (decodeFp F b).isNaN = false) :
    isSignalling rule F b = false := by
  unfold isSignalling
  cases hv : decodeFp F b with
  | nan s t => rw [hv] at h; cases h
  | inf s => rfl
  | fin s m => rfl

/-- Settles O29: what is drawn is a NaN, and replaced by the canonical one where it would signal. -/
theorem producedNaNs : Obligations.ProducedNaNs :=
  fun rule _ _ draw sg _ hF => ⟨isQuietNaN_drawQuietNaN hF rule _ draw, decodeFp_drawNaN hF sg draw,
    ⟨_, decodeFp_qNaN hF sg⟩, isSignalling_qNaN hF rule sg, isSignalling_of_not_nan rule⟩

/-! Stored integers (rules R106, R109). -/

theorem natCast_two_pow_bits (z : OpSize) : ((2 ^ z.bits : Nat) : Int) = 2 ^ z.bits := by norm_cast

theorem two_pow_bits_eq (z : OpSize) : ((2 ^ z.bits : Nat) : Int) = 2 * 2 ^ (z.bits - 1) := by
  rw [natCast_two_pow_bits, two_pow_bits]

/-- The signed integer of a word is the balanced remainder of its number. -/
theorem sint_eq_bmod (z : OpSize) (w : Word) : z.sint w = (w.toNat : Int).bmod (2 ^ z.bits) := by
  have hcast : ((2 ^ (z.bits - 1) : Nat) : Int) = 2 ^ (z.bits - 1) := by norm_cast
  have hdouble := two_pow_bits_eq z
  rw [OpSize.sint, Int.bmod_def, ← Int.natCast_mod, ← natCast_two_pow_bits]
  split_ifs <;> omega

theorem toNat_ofInt_eq_emod (z : OpSize) (r : Int) : ((z.ofInt r).toNat : Int) = r % (2 ^ z.bits : Nat) := by
  have hpos : (0 : Int) < (2 ^ z.bits : Nat) := Int.natCast_pos.2 (Nat.two_pow_pos _)
  have hle : 2 ^ z.bits ≤ 2 ^ 64 := by cases z <;> decide
  have hlo := Int.emod_nonneg r hpos.ne'
  have hhi := Int.emod_lt_of_pos r hpos
  rw [OpSize.ofInt, ← natCast_two_pow_bits, BitVec.toNat_ofNat, Nat.mod_eq_of_lt (by omega), Int.toNat_of_nonneg hlo]

theorem sint_ofInt (z : OpSize) (r : Int) : z.sint (z.ofInt r) = r.bmod (2 ^ z.bits) := by
  rw [sint_eq_bmod, toNat_ofInt_eq_emod, Int.emod_bmod]

theorem sint_mem_range (z : OpSize) (w : Word) : z.minInt ≤ z.sint w ∧ z.sint w ≤ z.maxInt := by
  have hlo := Int.le_bmod (x := w.toNat) (Nat.two_pow_pos z.bits)
  have hhi := Int.bmod_lt (x := w.toNat) (Nat.two_pow_pos z.bits)
  have hdouble := two_pow_bits_eq z
  rw [sint_eq_bmod, OpSize.minInt, OpSize.maxInt]
  omega

theorem sint_ofInt_of_mem_range {z : OpSize} {r : Int} (hlo : z.minInt ≤ r) (hhi : r ≤ z.maxInt) :
    z.sint (z.ofInt r) = r := by
  have hdouble := two_pow_bits_eq z
  unfold OpSize.minInt at hlo
  unfold OpSize.maxInt at hhi
  rw [sint_ofInt]
  exact Int.bmod_eq_of_le (by omega) (by omega)

/-- Storing what was read stores the low bits. -/
theorem ofInt_sint (z : OpSize) (w : Word) : z.ofInt (z.sint w) = z.truncate w := by
  refine BitVec.eq_of_toNat_eq (Int.ofNat_inj.1 ?_)
  rw [toNat_ofInt_eq_emod, sint_eq_bmod, Int.bmod_emod, toNat_truncate, Int.natCast_mod]
  rfl

/-! Fixed-point formats (rule R102). -/

/-- A width is a multiple of each fraction of it that `ss` names. -/
theorem two_pow_dvd_bits (z : OpSize) (ss : Fin 4) : 2 ^ (3 - ss.val) ∣ z.bits :=
  (pow_dvd_pow 2 (Nat.sub_le 3 ss.val)).trans (Dvd.intro z.bytes rfl)

/-- Settles O30: a stored integer is read as the balanced remainder, and each fraction of a width divides it. -/
theorem storedIntegers : Obligations.StoredIntegers := by
  refine ⟨fun z r w => ⟨sint_ofInt_of_mem_range, ?_, (sint_mem_range z w).1, (sint_mem_range z w).2, ofInt_sint z w⟩,
    fun z ss => ⟨?_, ?_⟩⟩
  · have hlt := Int.emod_lt_of_pos r (Int.natCast_pos.2 (Nat.two_pow_pos z.bits))
    rw [← toNat_ofInt_eq_emod] at hlt
    exact Int.ofNat_lt.1 hlt
  · exact Nat.div_mul_cancel (two_pow_dvd_bits z ss)
  · exact Nat.sub_add_cancel (Nat.div_le_self _ _)

/-! Integers from floating-point values (rules R106, R107). -/

theorem representable_nonneg {F : Format} {x : Rat} (h : Representable F x) : 0 ≤ x := by
  obtain ⟨n, k, _, _, rfl⟩ := representable_significand h
  exact mul_nonneg (Nat.cast_nonneg n) (pow2_pos k).le

theorem signed_inj {s : Bool} {x y : Rat} : signed s x = signed s y ↔ x = y := by
  cases s
  · exact Iff.rfl
  · exact neg_inj

theorem cast_signedInt (s : Bool) (t : Nat) : ((signedInt s t : Int) : Rat) = signed s t := by
  cases s <;> simp [signedInt, signed]

theorem abs_cast_signedInt (s : Bool) (t : Nat) : |((signedInt s t : Int) : Rat)| = t := by
  cases s <;> simp [signedInt]

section
variable {rule : SignalRule} {F : Format} {b : Word} (z : OpSize) {sg : Bool}

theorem truncateToInt_of_nan {t : Nat} (h : decodeFp F b = .nan sg t) :
    truncateToInt rule F b z = (z.minInt, if isSignalling rule F b then [.signal] else []) := by
  simp only [truncateToInt, h, specialToInt]

theorem truncateToInt_of_inf (h : decodeFp F b = .inf sg) :
    truncateToInt rule F b z = (if sg then z.minInt else z.maxInt, [.overflow]) := by
  simp only [truncateToInt, h, specialToInt]

theorem truncateToInt_of_fin {m : Rat} (h : decodeFp F b = .fin sg m) :
    truncateToInt rule F b z = saturate z (signedInt sg m.floor.toNat) [] [.overflow] := by
  simp only [truncateToInt, h]

variable (mode : RoundMode) (fb : Nat)

theorem roundToFixed_of_nan {t : Nat} (h : decodeFp F b = .nan sg t) :
    roundToFixed rule mode F b z fb = (z.minInt, if isSignalling rule F b then [.signal] else []) := by
  simp only [roundToFixed, h, specialToInt]

theorem roundToFixed_of_inf (h : decodeFp F b = .inf sg) :
    roundToFixed rule mode F b z fb = (if sg then z.minInt else z.maxInt, [.overflow]) := by
  simp only [roundToFixed, h, specialToInt]

theorem roundToFixed_of_fin {m : Rat} (h : decodeFp F b = .fin sg m) :
    roundToFixed rule mode F b z fb =
      saturate z (signedInt sg (roundInt (m * 2 ^ fb) sg mode))
        (inexactIf (roundInt (m * 2 ^ fb) sg mode : Rat) (m * 2 ^ fb)) [.overflow, .inexact] := by
  simp only [roundToFixed, h, pow2_natCast]

/-- Rounding on the grid is inexact when it changes the signed value (rule R107). -/
theorem inexactIf_signed (t : Nat) (m : Rat) :
    inexactIf t (m * 2 ^ fb) = if ((signedInt sg t : Int) : Rat) = signed sg m * 2 ^ fb then [] else [.inexact] := by
  rw [inexactIf, cast_signedInt, ← signed_mul]
  simp only [signed_inj]

end

/-- The truncated magnitude with its sign is within one of the value, toward zero. -/
theorem signedInt_floor_spec {m : Rat} (h0 : 0 ≤ m) (sg : Bool) :
    |((signedInt sg m.floor.toNat : Int) : Rat)| ≤ m ∧ m < |((signedInt sg m.floor.toNat : Int) : Rat)| + 1 ∧
      (sg = true → signedInt sg m.floor.toNat ≤ 0) ∧ (sg = false → 0 ≤ signedInt sg m.floor.toNat) := by
  rw [abs_cast_signedInt]
  refine ⟨floor_toNat_le h0, lt_floor_toNat_add_one h0, ?_, ?_⟩
  · rintro rfl
    simp [signedInt]
  · rintro rfl
    simp [signedInt]

/-- Settles O31, by the class of the value. -/
theorem integerConversionValues : Obligations.IntegerConversionValues := by
  intro rule mode F b z fb
  refine ⟨fun sg t h => ⟨truncateToInt_of_nan z h, roundToFixed_of_nan z mode fb h⟩,
    fun sg h => ⟨truncateToInt_of_inf z h, roundToFixed_of_inf z mode fb h⟩, fun sg m h => ⟨?_, ?_⟩⟩
  · obtain ⟨hle, hlt, hneg, hpos⟩ := signedInt_floor_spec (representable_nonneg ⟨b, sg, h⟩) sg
    exact ⟨_, hle, hlt, hneg, hpos, truncateToInt_of_fin z h⟩
  · refine ⟨_, cast_signedInt sg _, ?_⟩
    rw [roundToFixed_of_fin z mode fb h, inexactIf_signed]
    rfl

end Sys2Proof
end

section
/-! The two readings of the range tests and the intermediate format (rules R90, R91, R122). Rounding to a spacing passes
no multiple of it: the largest finite magnitude is a multiple of every spacing below it, and the power of two below a
magnitude is one of the spacing of its precision. So both readings judge alike where the exact magnitude is in range or
not below the power of two above the largest. -/

namespace Sys2Proof

open Machine

/-! Rounding to a spacing. -/

section
variable {u m : Rat} (hu : 0 < u) (hm : 0 ≤ m) (s : Bool) (mode : RoundMode) {n : Nat}
include hu hm

theorem roundTo_le_multiple (h : m ≤ n * u) : roundTo u m s mode ≤ n * u := by
  have hq : m / u ≤ ((n : Int) : Rat) := (div_le_iff₀ hu).2 h
  exact mul_le_mul_of_nonneg_right (roundInt_le_of_le (div_nonneg hm hu.le) s mode hq) hu.le

theorem multiple_le_roundTo (h : n * u ≤ m) : n * u ≤ roundTo u m s mode := by
  have hq : ((n : Int) : Rat) ≤ m / u := (le_div_iff₀ hu).2 h
  exact mul_le_mul_of_nonneg_right (le_roundInt_of_le (div_nonneg hm hu.le) s mode hq) hu.le

end

theorem floorLog2_le_of_le {m v : Rat} (hm : 0 < m) (h : m ≤ v) : floorLog2 m ≤ floorLog2 v := by
  have := lt_of_pow2_lt (((floorLog2_bounds hm).1.trans h).trans_lt (floorLog2_bounds (hm.trans_le h)).2)
  omega

theorem le_floorLog2_of_pow2_le {m : Rat} {k : Int} (h : pow2 k ≤ m) : k ≤ floorLog2 m := by
  have := lt_of_pow2_lt (h.trans_lt (floorLog2_bounds ((pow2_pos k).trans_le h)).2)
  omega

/-- The exponent of the spacing of the precision is at most that of the format's spacing. -/
theorem precision_le_gridExp (F : Format) (m : Rat) : floorLog2 m - F.fracBits ≤ gridExp F m :=
  sub_le_sub_right (le_max_left _ _) _

theorem ulpAt_eq_precision {F : Format} {m : Rat} (h : minNorm F ≤ m) :
    ulpAt F m = pow2 (floorLog2 m - F.fracBits) :=
  if_pos h

section
variable {F : Format} {m : Rat} (hm : 0 < m) (s : Bool) (mode : RoundMode)
include hm

/-- A value is a multiple of every spacing at the magnitudes up to it, so none of these is rounded above it. -/
theorem IsValue.roundTo_le {v : Rat} (h : IsValue F v) (hmv : m ≤ v) {k : Int} (hk : k ≤ gridExp F m) :
    roundTo (pow2 k) m s mode ≤ v := by
  obtain ⟨⟨q, hq⟩, _⟩ := h
  have hgrid : gridExp F m ≤ gridExp F v := sub_le_sub_right (max_le_max_right _ (floorLog2_le_of_le hm hmv)) _
  rw [ulpAt_eq_pow2 F (hm.trans_le hmv)] at hq
  obtain ⟨n, hn⟩ := exists_mul_pow2_of_le (hk.trans hgrid) q
  rw [hq, hn] at hmv ⊢
  exact roundTo_le_multiple (pow2_pos k) hm.le s mode hmv

/-- Rounding to the precision of the format keeps the power of two below the magnitude below it. -/
theorem pow2_floorLog2_le_roundTo : pow2 (floorLog2 m) ≤ roundTo (pow2 (floorLog2 m - F.fracBits)) m s mode := by
  have hpow : ((2 ^ F.fracBits : Nat) : Rat) * pow2 (floorLog2 m - F.fracBits) = pow2 (floorLog2 m) := by
    rw [two_pow_mul_pow2, sub_add_cancel]
  rw [← hpow]
  exact multiple_le_roundTo (pow2_pos _) hm.le s mode (hpow ▸ (floorLog2_bounds hm).1)

/-- A magnitude that is not below the least denormal one is not rounded to zero. -/
theorem roundTo_ulpAt_pos (h : minSub F ≤ m) : 0 < roundTo (ulpAt F m) m s mode := by
  have hle : ulpAt F m ≤ m := by
    rw [ulpAt_eq_pow2 F hm]
    have := le_floorLog2_of_pow2_le h
    refine (pow2_le ?_).trans (floorLog2_bounds hm).1
    unfold gridExp
    omega
  have hone := multiple_le_roundTo (n := 1) (ulpAt_pos (F := F) hm) hm.le s mode (by rwa [Nat.cast_one, one_mul])
  rw [Nat.cast_one, one_mul] at hone
  exact (ulpAt_pos hm).trans_le hone

end

theorem isValue_maxFinite {F : Format} (hF : isFormat F) : IsValue F (maxFinite F) := by
  obtain ⟨b, sg, h⟩ := representable_maxFinite hF
  exact (isValue_of_decodeFp hF h).2

/-! The reading that judges the rounded magnitude (rule R91). -/

section
variable {F : Format} {m : Rat} (hm : 0 < m) (sg : Bool) (mode : RoundMode)
include hm

/-- In range it delivers what the other reading delivers. -/
theorem roundFpRounded_inRange (hF : isFormat F) {denorm : Bool} (hmin : leastKept F denorm ≤ m)
    (hmax : m ≤ maxFinite F) :
    roundFpRounded sg m F mode denorm =
      (encFin F sg (roundTo (ulpAt F m) m sg mode), inexactIf (roundTo (ulpAt F m) m sg mode) m) := by
  have hover : ¬ maxFinite F < roundTo (pow2 (floorLog2 m - F.fracBits)) m sg mode :=
    ((isValue_maxFinite hF).roundTo_le hm sg mode hmax (precision_le_gridExp F m)).not_gt
  cases denorm with
  | true =>
    have hpos := roundTo_ulpAt_pos hm sg mode hmin
    simp only [roundFpRounded, hm.ne', hover, hpos.ne', if_true, if_false]
  | false =>
    have hunder : ¬ roundTo (ulpAt F m) m sg mode < minNorm F := by
      rw [ulpAt_eq_precision hmin, not_lt]
      exact (pow2_le ((minNorm_le_iff F hm).1 hmin)).trans (pow2_floorLog2_le_roundTo hm sg mode)
    rw [← ulpAt_eq_precision hmin] at hover
    simp only [roundFpRounded, hm.ne', ← ulpAt_eq_precision hmin, hover, hunder, if_false, Bool.false_eq_true]

/-- From the power of two above the largest finite magnitude on, the rounded magnitude overflows too. -/
theorem roundFpRounded_overflow (denorm : Bool) (h : pow2 ((F.bias : Int) + 1) ≤ m) :
    roundFpRounded sg m F mode denorm = (encInf F sg, [.overflow, .inexact]) := by
  have hover : maxFinite F < roundTo (pow2 (floorLog2 m - F.fracBits)) m sg mode :=
    ((maxFinite_lt F).trans_le (pow2_le (le_floorLog2_of_pow2_le h))).trans_le (pow2_floorLog2_le_roundTo hm sg mode)
  simp only [roundFpRounded, hm.ne', hover, if_true, if_false]

end

theorem leastKept_pos (F : Format) (denorm : Bool) : 0 < leastKept F denorm := by
  cases denorm
  · exact pow2_pos _
  · exact pow2_pos _

/-- Settles O28: at zero neither reading rounds, in range both deliver the rounded magnitude, and above both
overflow. -/
theorem rangeReadingsAgree : Obligations.RangeReadingsAgree := by
  intro F sg m mode denorm hF h
  simp only [roundFp]
  rcases h with rfl | ⟨hmin, hmax⟩ | hbig
  · rw [roundFpExact_zero, roundFpRounded, if_pos rfl]
  · have hm : 0 < m := (leastKept_pos F denorm).trans_le hmin
    rw [roundFpExact_inRange hm sg mode hmin hmax, roundFpRounded_inRange hm sg mode hF hmin hmax]
  · have hm : 0 < m := (pow2_pos _).trans_le hbig
    rw [roundFpExact_overflow hF sg mode denorm ((maxFinite_lt F).trans_le hbig),
      roundFpRounded_overflow hm sg mode denorm hbig]

/-! Delivery through an intermediate format (rule R122). -/

section
variable {rc : RangeCheck} {sg : Bool} {m : Rat} {Fd I : Format} {mode : RoundMode} (denorm : Bool)

theorem deliver_same : deliver rc sg m Fd Fd mode denorm = roundFp rc sg m Fd mode denorm := by
  simp only [deliver, if_true]

variable (hI : I ≠ Fd)
include hI

theorem deliver_of_inf {sg1 : Bool} (h : decodeFp I (roundFp rc sg m I mode true).1 = .inf sg1) :
    deliver rc sg m Fd I mode denorm = (encInf Fd sg, [.overflow, .inexact]) := by
  simp only [deliver, hI, if_false, h]

theorem deliver_of_zero {sg1 : Bool} (h : decodeFp I (roundFp rc sg m I mode true).1 = .fin sg1 0) :
    deliver rc sg m Fd I mode denorm = (encZero Fd sg, [.underflow, .inexact]) := by
  simp only [deliver, hI, if_false, h, if_true]

/-- What the intermediate format keeps is rounded again, with INEXACT if either rounding is. -/
theorem deliver_of_fin {sg1 : Bool} {m1 : Rat} (h : decodeFp I (roundFp rc sg m I mode true).1 = .fin sg1 m1)
    (h1 : m1 ≠ 0) :
    (deliver rc sg m Fd I mode denorm).1 = (roundFp rc sg m1 Fd mode denorm).1 ∧
      ∀ x, x ∈ (deliver rc sg m Fd I mode denorm).2 ↔
        x ∈ (roundFp rc sg m1 Fd mode denorm).2 ∨ (x = .inexact ∧ x ∈ (roundFp rc sg m I mode true).2) := by
  simp only [deliver, hI, if_false, h, h1, true_and]
  intro x
  simp only [List.mem_append, List.mem_filter, Bool.and_eq_true, beq_iff_eq, Bool.not_eq_true',
    List.contains_eq_mem, decide_eq_false_iff_not]
  by_cases hx : x = .inexact
  · subst hx
    tauto
  · tauto

end

namespace Machine

/-! The intermediate format (rule R122). -/

/-- A wider operand has at least the range and the precision (rules R59, R86). -/
theorem formatOf_mono {p q : OpSize} (h : p.bytes ≤ q.bytes) :
    (formatOf p).expBits ≤ (formatOf q).expBits ∧ (formatOf p).fracBits ≤ (formatOf q).fracBits := by
  revert h
  cases p <;> cases q <;> decide

theorem formatMax_eq_left {F G : Format} (h : G.expBits ≤ F.expBits ∧ G.fracBits ≤ F.fracBits) :
    formatMax F G = F := by
  rw [formatMax, max_eq_left h.1, max_eq_left h.2]

theorem formatMax_eq_right {F G : Format} (h : F.expBits ≤ G.expBits ∧ F.fracBits ≤ G.fracBits) :
    formatMax F G = G := by
  rw [formatMax, max_eq_right h.1, max_eq_right h.2]

/-- The largest format is that of a widest operand. -/
theorem largestFormat_eq_widest {ops : List Operand} (h : ops ≠ []) :
    ∃ o, o ∈ ops ∧ largestFormat ops = formatOf (opSize o) ∧ ∀ p, p ∈ ops → (opSize p).bytes ≤ (opSize o).bytes := by
  induction ops with
  | nil => exact absurd rfl h
  | cons op ops ih =>
    by_cases hops : ops = []
    · subst hops
      exact ⟨op, List.mem_cons_self, largestFormat_singleton op, by simp⟩
    · obtain ⟨o, ho, hformat, hwidest⟩ := ih hops
      rw [largestFormat, hformat]
      rcases le_total (opSize o).bytes (opSize op).bytes with hle | hle
      · refine ⟨op, List.mem_cons_self, formatMax_eq_left (formatOf_mono hle), ?_⟩
        exact List.forall_mem_cons.2 ⟨le_rfl, fun p hp => (hwidest p hp).trans hle⟩
      · exact ⟨o, List.mem_cons_of_mem _ ho, formatMax_eq_right (formatOf_mono hle),
          List.forall_mem_cons.2 ⟨hle, hwidest⟩⟩

/-- The choice of the table is held between the two bounds of rule R122. -/
theorem intermediateFormat_bounds (impl : Impl) (F Fx : Format) :
    (F.expBits ≤ (intermediateFormat impl F Fx).expBits ∧ F.fracBits ≤ (intermediateFormat impl F Fx).fracBits) ∧
    ((intermediateFormat impl F Fx).expBits ≤ max F.expBits Fx.expBits ∧
      (intermediateFormat impl F Fx).fracBits ≤ max F.fracBits Fx.fracBits) := by
  unfold intermediateFormat
  split
  · exact ⟨⟨le_rfl, le_rfl⟩, le_max_left _ _, le_max_left _ _⟩
  · simp only [formatMax, formatMin]
    omega

theorem intermediateFormat_of_empty {impl : Impl} (F Fx : Format) (h : impl.intermediate = []) :
    intermediateFormat impl F Fx = F := by
  simp only [intermediateFormat, h, List.find?_nil]

/-- Settles O27: the delivery by what the intermediate format makes of the result, and the bounds of that format. -/
theorem deliveryByIntermediateFormat : Obligations.DeliveryByIntermediateFormat := by
  refine ⟨fun rc sg m Fd I mode denorm => ⟨deliver_same denorm, ?_⟩, fun s ops hops => ?_⟩
  · intro b1 e1 hI hfirst
    obtain ⟨rfl, rfl⟩ := Prod.mk.inj hfirst
    exact ⟨fun _ => deliver_of_inf denorm hI, fun _ => deliver_of_zero denorm hI, fun _ _ => deliver_of_fin denorm hI⟩
  · obtain ⟨hlower, hupper⟩ := intermediateFormat_bounds s.impl (largestFormat ops) s.xopssFormat
    refine ⟨largestFormat_eq_widest hops, hlower, hupper, intermediateFormat_of_empty _ _, ?_, ?_, ?_⟩
    all_goals
      intro hx
      simp only [State.xopssFormat, hx]

end Machine

end Sys2Proof
end

section
/-! The operands that decide an arithmetic instruction before its result is delivered, and the remainder (rules R93,
R125, R127, R140). What each instruction computes is said once of the values read, so that a NaN among them or an
invalid operation is told from the values alone. -/

namespace Sys2Proof.Machine

/-! What an instruction computes (rules R130 to R141). -/

/-- The `compute` of an arithmetic instruction on the values read; the others have none. -/
def computeOf (kind : FremKind) : Instr → RoundMode → List FpVal → ArithOut
  | .round _ _, _ => onOne (integralOf .halfUp)
  | .ceil _ _, _ => onOne (integralOf .up)
  | .floor _ _, _ => onOne (integralOf .down)
  | .fabs _ _, _ => onOne absOf
  | .fneg _ _, _ => onOne negOf
  | .finv _ _, _ => onOne invOf
  | .fadd _ _ _, mode => onTwo (addOf mode)
  | .fsub _ _ _, mode => onTwo (subOf mode)
  | .fmul _ _ _, _ => onTwo mulOf
  | .fdiv _ _ _, _ => onTwo divOf
  | .frem _ _ _, _ => onTwo (remOf kind)
  | .fma _ _ _ _, mode => onThree (fmaOf mode)
  | _, _ => fun _ => .invalid

theorem exec_eq_arith_computeOf {i : Instr} {f : Bool} {d : Operand} {others : List Operand}
    (hi : arithParts i = some (f, d, others)) (s : State) :
    exec i s = s.settle (arith (roundsByRnd i) (computeOf s.impl.fremKind i) f d others s) := by
  cases i <;> cases hi <;> rfl

/-! A NaN among the operands (rules R93, R127). -/

/-- A NaN operand decides the outcome, whatever the operation. -/
theorem arithOutcome_of_nan {s : State} {mode : RoundMode} {Fd I : Format} {compute : List FpVal → ArithOut}
    {bs : List (Format × Word)} (h : (operandValues bs).any FpVal.isNaN = true) :
    arithOutcome s mode Fd I compute bs =
      (nanResult s.impl.signalling Fd (operandValues bs) s.draws,
        if s.impl.arithSnanSignal && bs.any (fun x => isSignalling s.impl.signalling x.1 x.2) then [.signal]
        else []) := by
  unfold operandValues at h ⊢
  simp only [arithOutcome, h, if_true]

/-- Settles O52: the outcome is that of the NaN, and the NaN drawn is quiet and of the sign of the operands. -/
theorem arithmeticOnNaN : Obligations.ArithmeticOnNaN := by
  rintro i f d others s bs hi h hrnd ⟨v, hv, hnan⟩
  obtain ⟨compute, he⟩ := exec_eq_arith hi s
  obtain ⟨mode, hm⟩ := arithMode_defined hrnd
  have hend := arith_completesWith hi he h hm
  rw [arithOutcome_of_nan (List.any_eq_true.2 ⟨v, hv, hnan⟩)] at hend
  exact ⟨_, isQuietNaN_drawQuietNaN (isFormat_formatOf _) _ _ _, hend⟩

/-! Invalid operations (rule R125). -/

/-- A zero times an infinity is invalid, and no NaN is among the two. -/
theorem mulOf_zeroTimesInf {a b : FpVal} (h : ZeroTimesInf a b) :
    mulOf a b = .invalid ∧ a.isNaN = false ∧ b.isNaN = false := by
  cases a with
  | nan => cases b <;> exact h.elim
  | inf s1 =>
    cases b with
    | fin s2 m2 => exact ⟨if_pos h, rfl, rfl⟩
    | inf | nan => exact h.elim
  | fin s1 m1 =>
    cases b with
    | inf s2 => exact ⟨if_pos h, rfl, rfl⟩
    | fin | nan => exact h.elim

theorem fmaOf_of_invalid_product (mode : RoundMode) {a b : FpVal} (c : FpVal) (h : mulOf a b = .invalid) :
    fmaOf mode a b c = .invalid := by
  simp only [fmaOf, h]

theorem fmaOf_opposite_infinity (mode : RoundMode) {a b : FpVal} {sg : Bool} (h : InfiniteProduct (!sg) a b) :
    fmaOf mode a b (.inf sg) = .invalid := by
  simp [fmaOf, mulOf_infiniteProduct h]

theorem any_isNaN_triple {a b c : FpVal} (ha : a.isNaN = false) (hb : b.isNaN = false) (hc : c.isNaN = false) :
    [a, b, c].any FpVal.isNaN = false := by
  simp [ha, hb, hc]

/-- On the operands of rule R125 the operation is invalid, and none of them is a NaN. -/
theorem computeOf_of_invalidOperands (kind : FremKind) (mode : RoundMode) {i : Instr} {vals : List FpVal}
    (h : InvalidOperands i vals) : computeOf kind i mode vals = .invalid ∧ vals.any FpVal.isNaN = false := by
  unfold InvalidOperands at h
  split at h
  case h_1 => exact ⟨if_neg h, rfl⟩
  case h_2 s1 s2 => exact ⟨if_neg (by simpa using h), rfl⟩
  case h_3 a b =>
    obtain ⟨hmul, ha, hb⟩ := mulOf_zeroTimesInf h
    exact ⟨hmul, by simp [ha, hb]⟩
  case h_4 => exact ⟨(if_pos h.2).trans (if_pos h.1), rfl⟩
  case h_5 => exact ⟨rfl, rfl⟩
  case h_6 => exact ⟨rfl, rfl⟩
  case h_7 => exact ⟨rfl, rfl⟩
  case h_8 => exact ⟨if_pos h, rfl⟩
  case h_9 a b s3 m3 =>
    obtain ⟨hmul, ha, hb⟩ := mulOf_zeroTimesInf h
    exact ⟨fmaOf_of_invalid_product mode (.fin s3 m3) hmul, any_isNaN_triple ha hb rfl⟩
  case h_10 a b s3 =>
    rcases h with h | h
    · obtain ⟨hmul, ha, hb⟩ := mulOf_zeroTimesInf h
      exact ⟨fmaOf_of_invalid_product mode (.inf s3) hmul, any_isNaN_triple ha hb rfl⟩
    · obtain ⟨ha, hb⟩ := h.not_nan
      exact ⟨fmaOf_opposite_infinity mode h, any_isNaN_triple ha hb rfl⟩
  case h_11 => exact h.elim

/-- Settles O53: the operation is invalid on the values read, and delivers the quiet NaN drawn for it. -/
theorem invalidOperations : Obligations.InvalidOperations := by
  intro i f d others s bs hi h hrnd hinv
  obtain ⟨mode, hm⟩ := arithMode_defined (s := s) (rounds := roundsByRnd i) fun _ => hrnd
  obtain ⟨hout, hnan⟩ := computeOf_of_invalidOperands s.impl.fremKind mode hinv
  exact ⟨_, _, isQuietNaN_invalidNaN s (isFormat_formatOf _),
    arith_completesWith_of_compute hi (exec_eq_arith_computeOf hi s) h hm hnan hout⟩

/-! The remainder (rule R140). -/

/-- How `FREM_KIND` makes an integer of the quotient. -/
def remMode : FremKind → RoundMode
  | .truncating => .towardZero
  | .nearestEven => .halfEven

/-- The remainder of two magnitudes, which may be negative for the nearest-even kind. -/
def remainderOf (kind : FremKind) (m1 m2 : Rat) : Rat := m1 - m2 * (roundInt (m1 / m2) false (remMode kind) : Rat)

/-- In units of the divisor, the remainder is what rounding takes from the quotient. -/
theorem remainderOf_eq_mul (kind : FremKind) (m1 : Rat) {m2 : Rat} (h2 : 0 < m2) :
    remainderOf kind m1 m2 = m2 * (m1 / m2 - roundInt (m1 / m2) false (remMode kind)) := by
  rw [remainderOf, mul_sub, mul_div_cancel₀ _ h2.ne']

section
variable (kind : FremKind) {m1 m2 : Rat} (h1 : 0 ≤ m1) (h2 : 0 < m2)
include h1 h2

theorem remainderOf_lt : remainderOf kind m1 m2 < m2 := by
  have hnear := (abs_lt.1 (roundInt_near (div_nonneg h1 h2.le) false (remMode kind))).1
  rw [remainderOf_eq_mul kind m1 h2]
  exact mul_lt_of_lt_one_right h2 (by linarith)

theorem remainderOf_truncating_nonneg : 0 ≤ remainderOf .truncating m1 m2 := by
  rw [remainderOf_eq_mul .truncating m1 h2]
  exact mul_nonneg h2.le (sub_nonneg.2 (roundInt_towardZero_le (div_nonneg h1 h2.le) false))

/-- A remainder is no larger than the dividend. -/
theorem abs_remainderOf_le : |remainderOf kind m1 m2| ≤ m1 := by
  have hq : 0 ≤ m1 / m2 := div_nonneg h1 h2.le
  have hunits : |m1 / m2 - roundInt (m1 / m2) false (remMode kind)| ≤ m1 / m2 := by
    rcases Nat.eq_zero_or_pos (roundInt (m1 / m2) false (remMode kind)) with h0 | hpos
    · rw [h0, Nat.cast_zero, sub_zero, abs_of_nonneg hq]
    · have hone : (1 : Rat) ≤ roundInt (m1 / m2) false (remMode kind) := Nat.one_le_cast.2 hpos
      cases kind with
      | truncating =>
        have hle := roundInt_towardZero_le hq false
        rw [remMode] at hone ⊢
        rw [abs_of_nonneg (by linarith)]
        linarith
      | nearestEven =>
        have hhalf := (roundInt_halfEven_near hq false).1
        rw [remMode] at hone ⊢
        linarith [(abs_le.1 hhalf).1]
  calc |remainderOf kind m1 m2| = m2 * |m1 / m2 - roundInt (m1 / m2) false (remMode kind)| := by
        rw [remainderOf_eq_mul kind m1 h2, abs_mul, abs_of_pos h2]
    _ ≤ m2 * (m1 / m2) := mul_le_mul_of_nonneg_left hunits h2.le
    _ = m1 := mul_div_cancel₀ m1 h2.ne'

/-- The remainder of two finite values keeps the dividend's sign unless it is negative. -/
theorem remFinite_eq (s1 : Bool) :
    remFinite kind s1 m1 m2 =
      zeroOrExact (xor s1 (decide (remainderOf kind m1 m2 < 0))) |remainderOf kind m1 m2| := by
  have kept : 0 ≤ remainderOf kind m1 m2 →
      zeroOrExact s1 (remainderOf kind m1 m2) =
        zeroOrExact (xor s1 (decide (remainderOf kind m1 m2 < 0))) |remainderOf kind m1 m2| := fun h0 => by
    rw [abs_of_nonneg h0, decide_eq_false h0.not_gt, Bool.xor_false]
  cases kind with
  | truncating =>
    have hfloor : ((roundInt (m1 / m2) false .towardZero : Nat) : Rat) = ((m1 / m2).floor : Rat) := by
      have h0 : 0 ≤ (m1 / m2).floor := Rat.le_floor_iff.2 (by simpa using div_nonneg h1 h2.le)
      have hround : roundInt (m1 / m2) false .towardZero = (m1 / m2).floor.toNat := by simp [roundInt]
      rw [hround, ← Int.cast_natCast, Int.toNat_of_nonneg h0]
    rw [← kept (remainderOf_truncating_nonneg h1 h2), remFinite, remainderOf, remMode, hfloor]
  | nearestEven =>
    have hrem : m1 - m2 * (roundInt (m1 / m2) false .halfEven : Rat) = remainderOf .nearestEven m1 m2 := rfl
    rw [remFinite, hrem]
    split_ifs with hneg
    · rw [zeroOrExact, if_neg (abs_ne_zero.2 hneg.ne), abs_of_neg hneg, decide_eq_true hneg, Bool.xor_true]
    · exact kept (not_lt.1 hneg)

end

theorem operandValues_nonneg {bs : List (Format × Word)} {sg : Bool} {m : Rat}
    (h : FpVal.fin sg m ∈ operandValues bs) : 0 ≤ m := by
  obtain ⟨x, _, hx⟩ := List.mem_map.1 h
  exact representable_nonneg ⟨x.2, sg, hx⟩

/-- Settles O50: the remainder of finite values is below the divisor and is delivered or a zero, and an infinite divisor
leaves the dividend. -/
theorem remainder : Obligations.Remainder := by
  intro f d src s bs mode h hm
  have hend : ∀ {a b out}, operandValues bs = [a, b] → a.isNaN = false → b.isNaN = false →
      remOf s.impl.fremKind a b = out → CompletesWith s (.frem f d src) f d
        (arithResult s mode (formatOf (opSize d)) (intermediateOf s [d, src]) out) :=
    completesWith_onTwo (fun _ => remOf s.impl.fremKind) rfl rfl h hm
  refine ⟨fun s1 m1 s2 m2 r n hv hne hn hr => ?_, fun s1 m1 s2 hv => ?_⟩
  · have h1 : 0 ≤ m1 := operandValues_nonneg (bs := bs) (sg := s1) (by simp [hv])
    have h2 : 0 < m2 := (operandValues_nonneg (bs := bs) (sg := s2) (by simp [hv])).lt_of_ne' hne
    have hquot : n = roundInt (m1 / m2) false (remMode s.impl.fremKind) := by
      rw [hn]
      cases s.impl.fremKind <;> rfl
    obtain rfl : r = remainderOf s.impl.fremKind m1 m2 := by rw [hr, hquot, remainderOf]
    obtain ⟨hexact, hzero⟩ := completesWith_zeroOrExact
      (hend hv rfl rfl ((if_neg hne).trans (remFinite_eq s.impl.fremKind h1 h2 s1)))
    refine ⟨fun _ => remainderOf_lt _ h1 h2, fun hk => ?_, fun h0 => ?_, fun h0 => hexact (abs_ne_zero.2 h0)⟩
    · rw [hk]
      exact remainderOf_truncating_nonneg h1 h2
    · have hnext := hzero (abs_eq_zero.2 h0)
      rwa [h0, decide_eq_false (lt_irrefl 0), Bool.xor_false] at hnext
  · obtain ⟨hexact, hzero⟩ := completesWith_zeroOrExact (hend hv rfl rfl rfl)
    exact ⟨hzero, hexact⟩

end Sys2Proof.Machine
end

section
/-! What a comparison and the two triggers leave unchanged (rules R150, R155, R156, R160): a comparison records SIGNAL
at most and writes flags only, a trigger goes on or raises. -/

namespace Sys2Proof.Machine

theorem fcmpz_signal_cases {a : Operand} {s t : State} (h : exec (.fcmpz a) s = .next t) :
    (∃ x, t = s.raise x) ∨ ∃ signals o, s.finish (signalIf signals) (commitCmp o) = .ok t := by
  rcases settle_next h with h | ⟨x, _, rfl⟩
  · repeat' split at h
    all_goals first | cases h | exact .inr ⟨_, _, h⟩
  · exact .inl ⟨x, rfl⟩

theorem fcmp_signal_cases {a b : Operand} {s t : State} (h : exec (.fcmp a b) s = .next t) :
    (∃ x, t = s.raise x) ∨ ∃ signals o, s.finish (signalIf signals) (commitCmp o) = .ok t := by
  rcases settle_next h with h | ⟨x, _, rfl⟩
  · repeat' split at h
    all_goals first | cases h | exact .inr ⟨_, _, h⟩
  · exact .inl ⟨x, rfl⟩

/-- What a comparison leaves unchanged. -/
structure ComparisonFrame (s t : State) : Prop where
  general : t.gpr = s.gpr
  fpRegs : t.f = s.f
  fpcrw : ∀ j, j ≠ 13 → t.fpcrw.getLsbD j = s.fpcrw.getLsbD j
  flags : t.flags.v = s.flags.v
  control : SameControl s t
  mem : t.mem = s.mem

/-- The `EXCEPT` bit of SIGNAL is bit 13 (rule R18). -/
theorem getLsbD_assertExcs_signalIf (w : Word) (signals : Bool) {j : Nat} (hj : j ≠ 13) :
    (assertExcs w (signalIf signals)).getLsbD j = w.getLsbD j := by
  rw [getLsbD_assertExcs]
  cases signals
  · simp [signalIf]
  · simp [signalIf, FpExc.number, hj]

theorem finish_comparisonFrame {s t : State} {signals : Bool} {o : CmpOutcome}
    (h : s.finish (signalIf signals) (commitCmp o) = .ok t) : ComparisonFrame s t := by
  have hbits := fun j hj => getLsbD_assertExcs_signalIf s.fpcrw signals (j := j) hj
  rcases finish_cases h with ⟨_, u, hu, rfl⟩ | ⟨_, _, rfl⟩ | ⟨_, _, u, hu, rfl⟩
  · cases hu
    exact ⟨rfl, rfl, hbits, rfl, ⟨rfl, rfl, rfl, rfl, rfl, rfl⟩, rfl⟩
  · exact ⟨rfl, rfl, hbits, rfl, ⟨rfl, rfl, rfl, rfl, rfl, rfl⟩, rfl⟩
  · cases hu
    exact ⟨rfl, rfl, hbits, rfl, ⟨rfl, rfl, rfl, rfl, rfl, rfl⟩, rfl⟩

theorem comparisonFrame_of_cases {s t : State}
    (h : (∃ x, t = s.raise x) ∨ ∃ signals o, s.finish (signalIf signals) (commitCmp o) = .ok t) :
    ComparisonFrame s t := by
  rcases h with ⟨x, rfl⟩ | ⟨signals, o, h⟩
  · exact ⟨rfl, rfl, fun _ _ => rfl, rfl, ⟨rfl, rfl, rfl, rfl, rfl, rfl⟩, rfl⟩
  · exact finish_comparisonFrame h

/-- Settles O57: the frame of a comparison, and of the two ends of a trigger. -/
theorem comparisonAndTriggerFrame : Obligations.ComparisonAndTriggerFrame := by
  refine ⟨fun i s t hi h => ?_, fun i s t hi h => ?_⟩
  · have hframe : ComparisonFrame s t := by
      rcases hi with ⟨a, rfl⟩ | ⟨a, b, rfl⟩
      · exact comparisonFrame_of_cases (fcmpz_signal_cases h)
      · exact comparisonFrame_of_cases (fcmp_signal_cases h)
    obtain ⟨hgeneral, hfp, hfpcrw, hflags, hcontrol, hmem⟩ := hframe
    exact ⟨hgeneral, hfp, hfpcrw, hflags, hcontrol, fun a => by rw [hmem]⟩
  · have hends : (∃ x, t = s.raise x) ∨ t = s.advance := by
      rcases hi with rfl | rfl
      · exact triggerExcept_cases h
      · exact triggerExcept_cases h
    rcases hends with ⟨x, rfl⟩ | rfl
    · exact ⟨rfl, rfl, rfl, rfl, ⟨rfl, rfl, rfl, rfl, rfl, rfl⟩, fun _ => rfl⟩
    · exact ⟨rfl, rfl, rfl, rfl, ⟨rfl, rfl, rfl, rfl, rfl, rfl⟩, fun _ => rfl⟩

end Sys2Proof.Machine
end

section
/-! The base instructions on bits (rules R12, R13, R71, R74; log entries 34, 44 to 47 and 49). Each is a run of the
shared skeleton: it is told by the accesses it makes, the bits it reads, the writes it makes of them and the flags. -/

namespace Sys2Proof.Machine

/-! Words of an operand size (rules R14, R60). -/

theorem truncate_eq_self_iff {z : OpSize} {w : Word} : z.truncate w = w ↔ w.toNat < 2 ^ z.bits := by
  rw [← BitVec.toNat_inj, toNat_truncate, show 8 * z.bytes = z.bits from rfl, Nat.mod_eq_iff_lt (Nat.two_pow_pos _).ne']

theorem truncate_truncate (z : OpSize) (w : Word) : z.truncate (z.truncate w) = z.truncate w := by
  rw [truncate_eq_self_iff, toNat_truncate]
  exact Nat.mod_lt _ (Nat.two_pow_pos _)

theorem bytesToNat_lt (bs : List Byte) : bytesToNat bs < 256 ^ bs.length := by
  induction bs with
  | nil => exact one_pos
  | cons b bs ih =>
    have := b.isLt
    rw [bytesToNat, List.length_cons, pow_succ']
    omega

theorem length_readBytes (m : Memory) (a n : Nat) : (readBytes m a n).length = n := by
  rw [readBytes_eq_map, List.length_map, List.length_range]

theorem toNat_loadBytes_lt (o : ByteOrder) (m : Memory) (a : Nat) (z : OpSize) :
    (loadBytes o m a z.bytes).toNat < 2 ^ z.bits := by
  have hlt := bytesToNat_lt (orderBytes o (readBytes m a z.bytes))
  rw [length_orderBytes, length_readBytes, show 256 ^ z.bytes = 2 ^ z.bits from (pow_mul 2 8 z.bytes).symm] at hlt
  rw [loadBytes, BitVec.toNat_ofNat]
  exact (Nat.mod_le _ _).trans_lt hlt

/-- What is read from an operand has no bits above its size. -/
theorem toNat_readOp_lt {s : State} {o : Operand} {w : Word} (h : s.readOp o = .ok w) :
    w.toNat < 2 ^ (opSize o).bits := by
  cases o with
  | reg n z =>
    cases h
    exact truncate_eq_self_iff.1 (truncate_truncate z _)
  | imm v z long =>
    cases h
    exact truncate_eq_self_iff.1 (truncate_truncate z _)
  | mem ea z =>
    simp only [State.readOp, State.memRead] at h
    split at h
    · cases h
    · cases h
      exact toNat_loadBytes_lt _ _ _ _

/-- A value taken to a size that is no narrower fits it (log entry 46). -/
theorem toNat_widen_lt {p q : OpSize} {w : Word} (hw : w.toNat < 2 ^ p.bits) (hpq : p.bytes ≤ q.bytes) :
    (widen p q w).toNat < 2 ^ q.bits := by
  have hbits : p.bits ≤ q.bits := Nat.mul_le_mul_left 8 hpq
  unfold widen
  split
  · exact hw.trans_le (Nat.pow_le_pow_right two_pos hbits)
  · have hhigh := Nat.mod_lt (Config.baseExtension p.bytes q.bytes w).toNat (Nat.two_pow_pos (q.bits - p.bits))
    rw [Nat.mod_eq_of_lt hw, BitVec.toNat_ofNat]
    refine (Nat.mod_le _ _).trans_lt ?_
    calc _ < ((Config.baseExtension p.bytes q.bytes w).toNat % 2 ^ (q.bits - p.bits) + 1) * 2 ^ p.bits := by
          rw [Nat.add_mul, Nat.one_mul]
          omega
      _ ≤ 2 ^ (q.bits - p.bits) * 2 ^ p.bits := Nat.mul_le_mul_right _ hhigh
      _ = 2 ^ q.bits := by rw [← pow_add, Nat.sub_add_cancel hbits]

theorem bytes_wider (p q : OpSize) : (wider p q).bytes = max p.bytes q.bytes := by
  unfold wider
  split_ifs with h
  · exact (max_eq_right h).symm
  · exact (max_eq_left (not_le.1 h).le).symm

/-! The order of patterns (rule R71; log entry 44). -/

/-- The sign of a difference of signed integers is that of the wrapped difference unless that overflowed. -/
theorem wrapped_sign_ne_overflow_iff {z : OpSize} {d : Int} (hlo : z.minInt - z.maxInt ≤ d)
    (hhi : d ≤ z.maxInt - z.minInt) :
    (decide (z.sint (z.ofInt d) < 0) ≠ decide (d < z.minInt ∨ z.maxInt < d)) ↔ d < 0 := by
  have hdouble := two_pow_bits_eq z
  have hhalf : (0 : Int) < 2 ^ (z.bits - 1) := by positivity
  have hmod : d % (2 ^ z.bits : Nat) = if d < 0 then d + (2 ^ z.bits : Nat) else d := by
    unfold OpSize.minInt OpSize.maxInt at *
    split_ifs with h
    · rw [← Int.add_emod_right, Int.emod_eq_of_lt] <;> omega
    · rw [Int.emod_eq_of_lt] <;> omega
  rw [sint_ofInt, Int.bmod_def, hmod, ne_eq, decide_eq_decide]
  unfold OpSize.minInt OpSize.maxInt at *
  split_ifs <;> omega

theorem sint_inj {z : OpSize} {x y : Word} (hx : x.toNat < 2 ^ z.bits) (hy : y.toNat < 2 ^ z.bits)
    (h : z.sint x = z.sint y) : x = y := by
  rw [← truncate_eq_self_iff.2 hx, ← truncate_eq_self_iff.2 hy, ← ofInt_sint, ← ofInt_sint, h]

/-! The writes (log entry 47). -/

theorem memoryFirst_single (x : Operand × Word) : memoryFirst [x] = [x] := by
  cases h : isMem x.1 <;> simp [memoryFirst, h]

theorem memoryFirst_pair (a b : Operand) (v w : Word) :
    memoryFirst [(a, v), (b, w)] = if isMem b && !isMem a then [(b, w), (a, v)] else [(a, v), (b, w)] := by
  cases ha : isMem a <;> cases hb : isMem b <;> simp [memoryFirst, ha, hb]

/-- Memory is written before registers, so the first write leaves the second operand writable. -/
theorem writable_after_memory_first {s : State} {d e : Operand} (v : Word) (he : Writable s e)
    (horder : isMem d = true ∨ isMem e = false) : Writable (stored s d v) e := by
  rcases horder with hd | he'
  · exact writable_stored_mem v hd he
  · cases e with
    | reg n z => trivial
    | imm w z long => exact he.elim
    | mem ea z => cases he'

theorem writeAll_single {s : State} {d : Operand} (v : Word) (hd : Writable s d) :
    s.writeAll [(d, v)] = .ok (stored s d v) := by
  simp only [State.writeAll, writeOp_of_writable v hd]

theorem writeAll_pair {s : State} {d e : Operand} (v w : Word) (hd : Writable s d) (he : Writable (stored s d v) e) :
    s.writeAll [(d, v), (e, w)] = .ok (stored (stored s d v) e w) := by
  simp only [State.writeAll, writeOp_of_writable v hd, writeOp_of_writable w he]

/-- The state after an exchange: `b`, where it alone is memory, receives the bits of `a` before `a` those of `b`. -/
theorem writeAll_memoryFirst_pair {s : State} {a b : Operand} (v w : Word) (ha : Writable s a) (hb : Writable s b) :
    s.writeAll (memoryFirst [(a, v), (b, w)]) =
      .ok (if isMem b && !isMem a then stored (stored s b w) a v else stored (stored s a v) b w) := by
  rw [memoryFirst_pair]
  split_ifs with h
  · rw [Bool.and_eq_true] at h
    exact writeAll_pair w v hb (writable_after_memory_first w ha (.inl h.1))
  · refine writeAll_pair v w ha (writable_after_memory_first v hb ?_)
    simpa [or_comm, imp_iff_not_or] using h

/-! The skeleton by the number of its writes. -/

section
variable {m : BaseMnemonic} {accesses : List Access} {effect : List Word → List (Operand × Word)}
  {cond : List Word → CondFlags → CondFlags} {s : State} {ws : List Word}

theorem baseRun_of_no_write (hc : baseChecks s accesses = .ok ())
    (hr : s.readBits ((accesses.filter (fun a => a.2.contains .read)).map Prod.fst) = .ok ws) (he : effect ws = []) :
    ∃ t, baseRun m accesses effect cond s = .ok t ∧ BaseWrote s s false t ∧ ∃ free, t.flags.cond = cond ws free := by
  obtain ⟨t, ht, hwrote, hcond⟩ := baseRun_completes (m := m) (cond := cond) (effect := effect) (u := s) hc hr
    (by rw [he]; rfl) rfl rfl fun _ => rfl
  rw [he] at hwrote hcond
  exact ⟨t, ht, hwrote, hcond rfl⟩

theorem baseRun_of_one_write {d : Operand} {v : Word} (hc : baseChecks s accesses = .ok ())
    (hr : s.readBits ((accesses.filter (fun a => a.2.contains .read)).map Prod.fst) = .ok ws)
    (he : effect ws = [(d, v)]) (hw : Writable s d) :
    ∃ t, baseRun m accesses effect cond s = .ok t ∧ BaseWrote s (stored s d v) (isFlagsReg s.impl d) t := by
  obtain ⟨t, ht, hwrote, -⟩ := baseRun_completes (m := m) (cond := cond) (effect := effect) hc hr
    (by rw [he, memoryFirst_single]; exact writeAll_single v hw) (stored_ip s d v) (stored_draws s d v)
    fun hf => stored_flags_of_not_flags v (by simpa [he] using hf)
  rw [he, List.any_cons, List.any_nil, Bool.or_false] at hwrote
  exact ⟨t, ht, hwrote⟩

end

/-! The five instructions (rule R71). -/

section
variable {s : State}

/-- A base instruction that names no reserved register is its run (rule R12). -/
theorem execBase_mov {d src : Operand} (h : BaseReady s [d, src]) :
    execBase .mov [d, src] s = s.settle (baseMov d src s) := by
  rw [execBase, any_isReserved_eq_false h, if_neg Bool.false_ne_true]

theorem execBase_test {a b : Operand} (h : BaseReady s [a, b]) :
    execBase .test [a, b] s = s.settle (baseTest a b s) := by
  rw [execBase, any_isReserved_eq_false h, if_neg Bool.false_ne_true]

theorem execBase_cmp {a b : Operand} (h : BaseReady s [a, b]) :
    execBase .cmp [a, b] s = s.settle (baseCmp a b s) := by
  rw [execBase, any_isReserved_eq_false h, if_neg Bool.false_ne_true]

theorem execBase_xchg {a b : Operand} (h : BaseReady s [a, b]) :
    execBase .xchg [a, b] s = s.settle (baseXchg a b s) := by
  rw [execBase, any_isReserved_eq_false h, if_neg Bool.false_ne_true]

theorem execBase_cmpxchg {d e src : Operand} (h : BaseReady s [d, e, src]) :
    execBase .cmpxchg [d, e, src] s = s.settle (baseCmpxchg d e src s) := by
  rw [execBase, any_isReserved_eq_false h, if_neg Bool.false_ne_true]

theorem execBase_of_reserved (m : BaseMnemonic) {ops : List Operand} {o : Operand} (ho : o ∈ ops)
    (hr : isReserved s o = true) : execBase m ops s = .next (s.raise .und) := by
  unfold execBase
  exact if_pos (List.any_eq_true.2 ⟨o, ho, hr⟩)

/-- Two operands that are read pass their checks. -/
theorem baseChecks_two_reads {a b : Operand} {x y : Word} (h : BaseReady s [a, b]) (hx : s.readOp a = .ok x)
    (hy : s.readOp b = .ok y) : baseChecks s [(a, [.read]), (b, [.read])] = .ok () :=
  baseChecks_pass h (by simp) (by simpa using ⟨passes_read hx, passes_read hy⟩)

theorem readBits_two {a b : Operand} {x y : Word} (hx : s.readOp a = .ok x) (hy : s.readOp b = .ok y) :
    s.readBits [a, b] = .ok [x, y] := by
  simp only [State.readBits, hx, hy]

theorem mov_completes {d src : Operand} {w : Word} (h : BaseReady s [d, src]) (hd : baseDestination s.impl d = true)
    (hw : s.readOp src = .ok w) (hwr : Writable s d) :
    ∃ t, execBase .mov [d, src] s = .next t ∧
      BaseWrote s (stored s d (widen (opSize src) (opSize d) w)) (isFlagsReg s.impl d) t := by
  have hchecks : baseChecks s [(d, [.write]), (src, [.read])] = .ok () :=
    baseChecks_pass h (by simpa using hd) (by simpa using ⟨passes_write hwr, passes_read hw⟩)
  obtain ⟨t, ht, hwrote⟩ := baseRun_of_one_write (m := .mov) (cond := freeCond) (effect := movEffect d src) hchecks
    (ws := [w]) (by simp [State.readBits, hw]) rfl hwr
  exact ⟨t, by rw [execBase_mov h, baseMov, ht]; rfl, hwrote⟩

theorem test_completes {a b : Operand} {x y : Word} (h : BaseReady s [a, b]) (hx : s.readOp a = .ok x)
    (hy : s.readOp b = .ok y) : ∃ t, execBase .test [a, b] s = .next t ∧ BaseWrote s s false t := by
  obtain ⟨t, ht, hwrote, -⟩ := baseRun_of_no_write (m := .test) (cond := freeCond) (effect := fun _ => [])
    (baseChecks_two_reads h hx hy) (readBits_two hx hy) rfl
  exact ⟨t, by rw [execBase_test h, baseTest, ht]; rfl, hwrote⟩

/-- `cmp` sets the flags of a comparison at the wider size. -/
theorem cmp_completes {a b : Operand} {x y : Word} (h : BaseReady s [a, b]) (hx : s.readOp a = .ok x)
    (hy : s.readOp b = .ok y) :
    ∃ t, execBase .cmp [a, b] s = .next t ∧ BaseWrote s s false t ∧
      ∃ free, t.flags.cond = compareCond (wider (opSize a) (opSize b))
        (widen (opSize a) (wider (opSize a) (opSize b)) x) (widen (opSize b) (wider (opSize a) (opSize b)) y) free := by
  obtain ⟨t, ht, hwrote, hcond⟩ := baseRun_of_no_write (m := .cmp) (cond := cmpCond a b) (effect := fun _ => [])
    (baseChecks_two_reads h hx hy) (readBits_two hx hy) rfl
  exact ⟨t, by rw [execBase_cmp h, baseCmp, ht]; rfl, hwrote, hcond⟩

theorem xchg_completes {a b : Operand} {x y : Word} (h : BaseReady s [a, b]) (ha : baseDestination s.impl a = true)
    (hb : baseDestination s.impl b = true) (hx : s.readOp a = .ok x) (hy : s.readOp b = .ok y) (hwa : Writable s a)
    (hwb : Writable s b) :
    ∃ t, execBase .xchg [a, b] s = .next t ∧
      BaseWrote s (if isMem b && !isMem a
        then stored (stored s b (widen (opSize a) (opSize b) x)) a (widen (opSize b) (opSize a) y)
        else stored (stored s a (widen (opSize b) (opSize a) y)) b (widen (opSize a) (opSize b) x))
        (isFlagsReg s.impl a || isFlagsReg s.impl b) t := by
  have hchecks : baseChecks s [(a, [.read, .write]), (b, [.read, .write])] = .ok () :=
    baseChecks_pass h (by simpa using ⟨ha, hb⟩) (by simpa using ⟨passes_readWrite hx hwa, passes_readWrite hy hwb⟩)
  obtain ⟨t, ht, hwrote, -⟩ := baseRun_completes (m := .xchg) (cond := freeCond) (effect := xchgEffect a b) hchecks
    (readBits_two hx hy) (writeAll_memoryFirst_pair _ _ hwa hwb) (by split_ifs <;> simp) (by split_ifs <;> simp)
    (fun hf => by
      obtain ⟨hfa, hfb⟩ : isFlagsReg s.impl a = false ∧ isFlagsReg s.impl b = false := by simpa [xchgEffect] using hf
      split_ifs
      · rw [stored_flags_of_not_flags _ (by rwa [stored_impl]), stored_flags_of_not_flags _ hfb]
      · rw [stored_flags_of_not_flags _ (by rwa [stored_impl]), stored_flags_of_not_flags _ hfa])
  rw [xchgEffect, List.any_cons, List.any_cons, List.any_nil, Bool.or_false] at hwrote
  exact ⟨t, by rw [execBase_xchg h, baseXchg, ht]; rfl, hwrote⟩

/-- `cmpxchg` makes the one write that its comparison chooses. -/
theorem cmpxchg_completes {d e src o : Operand} {x y w v : Word} (h : BaseReady s [d, e, src])
    (hd : baseDestination s.impl d = true) (he : baseDestination s.impl e = true) (hx : s.readOp d = .ok x)
    (hy : s.readOp e = .ok y) (hw : s.readOp src = .ok w) (hwd : Writable s d) (hwe : Writable s e)
    (heffect : cmpxchgEffect d e src [x, y, w] = [(o, v)]) (hwo : Writable s o) :
    ∃ t, execBase .cmpxchg [d, e, src] s = .next t ∧ BaseWrote s (stored s o v) (isFlagsReg s.impl o) t := by
  have hchecks : baseChecks s [(d, [.read, .write]), (e, [.read, .write]), (src, [.read])] = .ok () :=
    baseChecks_pass h (by simpa using ⟨hd, he⟩)
      (by simpa using ⟨passes_readWrite hx hwd, passes_readWrite hy hwe, passes_read hw⟩)
  obtain ⟨t, ht, hwrote⟩ := baseRun_of_one_write (m := .cmpxchg) (cond := freeCond) hchecks
    (ws := [x, y, w]) (by simp [State.readBits, hx, hy, hw]) heffect hwo
  exact ⟨t, by rw [execBase_cmpxchg h, baseCmpxchg, ht]; rfl, hwrote⟩

end

theorem isReserved_of_disabled {s : State} {n : Nat} (z : OpSize) (hf : s.fpen = false)
    (hn : n = 19 ∨ (24 ≤ n ∧ n ≤ 31)) : isReserved s (.reg n z) = true := by
  have hext : isExtensionReg n = true := decide_eq_true hn
  rw [isReserved, isReservedNumber, if_pos hext, hf, Bool.not_false]

/-- Settles O58: a run of one write, a run without writes, and the register of the disabled extension. -/
theorem baseMovesAreBitwise : Obligations.BaseMovesAreBitwise := by
  refine ⟨fun d src s w h hd hw hwr => ?_, fun m a b s x y hm h hx hy => ?_, fun m ops s n z hf hn hmem =>
    execBase_of_reserved m hmem (isReserved_of_disabled z hf hn)⟩
  · obtain ⟨t, ht, hstate, hflags⟩ := mov_completes h hd hw hwr
    refine ⟨_, t, ht, widen_of_le w, fun _ => truncate_widen _ _ w, hstate, fun hf => ?_, fun hf => ?_⟩
    · rwa [hf] at hflags
    · rwa [hf] at hflags
  · have hrun : ∃ t, execBase m [a, b] s = .next t ∧ BaseWrote s s false t := by
      rcases hm with rfl | rfl
      · exact test_completes h hx hy
      · obtain ⟨t, ht, hwrote, -⟩ := cmp_completes h hx hy
        exact ⟨t, ht, hwrote⟩
    obtain ⟨t, ht, hstate, hflags⟩ := hrun
    exact ⟨t, ht, hstate, hflags⟩

/-- Settles O59: the order that the flags carry, an exchange's two writes and `cmpxchg`'s one. -/
theorem baseComparesAndExchanges : Obligations.BaseComparesAndExchanges := by
  refine ⟨fun p q w => ⟨bytes_wider p q, widen_of_le w, fun _ => truncate_widen p q w⟩, ?_, ?_, ?_⟩
  · rintro a b s x y x' y' z h hx hy hz hx' hy'
    have hwide := bytes_wider (opSize a) (opSize b)
    obtain ⟨t, ht, -, free, hcond⟩ := cmp_completes h hx hy
    rw [← hz] at hcond hwide
    rw [← hx', ← hy', compareCond] at hcond
    obtain ⟨-, hzflag, hvflag, hnflag, -⟩ := (CondFlags.mk.injEq ..).mp hcond
    have hxlt : x'.toNat < 2 ^ z.bits := hx' ▸ toNat_widen_lt (toNat_readOp_lt hx) (by omega)
    have hylt : y'.toNat < 2 ^ z.bits := hy' ▸ toNat_widen_lt (toNat_readOp_lt hy) (by omega)
    have hless : t.flags.n ≠ t.flags.v ↔ z.sint x' < z.sint y' := by
      obtain ⟨hxlo, hxhi⟩ := sint_mem_range z x'
      obtain ⟨hylo, hyhi⟩ := sint_mem_range z y'
      rw [hnflag, hvflag, wrapped_sign_ne_overflow_iff (by omega) (by omega)]
      exact sub_neg
    refine ⟨t, ht, by rw [hzflag, decide_eq_true_iff], hless, fun hne hnv => ?_⟩
    have hsint : z.sint x' ≠ z.sint y' := fun h => of_decide_eq_false (hzflag ▸ hne) (sint_inj hxlt hylt h)
    have hnot : ¬ z.sint x' < z.sint y' := fun h => hless.2 h hnv
    omega
  · rintro a b s x y _ _ h ha hb hx hy hwa hwb rfl rfl
    exact xchg_completes h ha hb hx hy hwa hwb
  · rintro d e src s x y w _ h hd he hx hy hw hwd hwe rfl
    by_cases heq : widen (opSize d) (wider (opSize d) (opSize e)) x = widen (opSize e) (wider (opSize d) (opSize e)) y
    · obtain ⟨t, ht, hwrote⟩ := cmpxchg_completes h hd he hx hy hw hwd hwe (if_pos heq) hwd
      exact ⟨t, ht, fun _ => hwrote, fun hne => absurd heq hne⟩
    · obtain ⟨t, ht, hwrote⟩ := cmpxchg_completes h hd he hx hy hw hwd hwe (if_neg heq) hwe
      exact ⟨t, ht, fun he => absurd he heq, fun _ => hwrote⟩

end Sys2Proof.Machine
end

section
/-! The exceptions that a delivery does not cause (rules R90, R91, R122, R175): a magnitude that is not above a value of
the format does not overflow, and one that is normal is not flushed. -/

namespace Sys2Proof

open Machine

/-! One rounding, by either reading of the range. -/

section
variable {F : Format} {rc : RangeCheck} {s : Bool} {m : Rat} {mode : RoundMode} {denorm : Bool}

theorem inexactIf_ne {r : Rat} {x : FpExc} (hx : x ≠ .inexact) : x ∉ inexactIf r m :=
  fun h => hx (inexactIf_excs h)

/-- Overflow is judged on the exact magnitude or on the one rounded to the format's precision (rule R91). -/
theorem overflow_of_mem_roundFp (h : .overflow ∈ (roundFp rc s m F mode denorm).2) :
    maxFinite F < m ∨ maxFinite F < roundTo (pow2 (floorLog2 m - F.fracBits)) m s mode := by
  have hinexact : ∀ r, FpExc.overflow ∉ inexactIf r m := fun r => inexactIf_ne (by decide)
  cases rc with
  | exactValue =>
    simp only [roundFp, roundFpExact] at h
    split_ifs at h with h0 hmax hmin
    · cases h
    · exact .inl hmax
    · simp at h
    · exact absurd h (hinexact _)
  | roundedValue =>
    simp only [roundFp, roundFpRounded] at h
    split_ifs at h with h0 hmax hd hzero hmin
    · cases h
    · exact .inr hmax
    · simp at h
    · exact absurd h (hinexact _)
    · simp at h
    · exact absurd h (hinexact _)

/-- What is not above a value of the format does not overflow. -/
theorem overflow_notMem_roundFp {v : Rat} (hm : 0 < m) (hv : IsValue F v) (hmv : m ≤ v) :
    .overflow ∉ (roundFp rc s m F mode denorm).2 := fun h =>
  (overflow_of_mem_roundFp h).elim (hmv.trans hv.2).not_gt
    ((hv.roundTo_le hm s mode hmv (precision_le_gridExp F m)).trans hv.2).not_gt

/-- A normal magnitude is not flushed. -/
theorem underflow_notMem_roundFp (hm : minNorm F ≤ m) : .underflow ∉ (roundFp rc s m F mode denorm).2 := by
  have hpos : 0 < m := (pow2_pos _).trans_le hm
  have hinexact : ∀ r, FpExc.underflow ∉ inexactIf r m := fun r => inexactIf_ne (by decide)
  cases rc with
  | exactValue =>
    have hkept : ¬ m < leastKept F denorm := by
      cases denorm
      · exact hm.not_gt
      · exact ((minSub_le_minNorm F).trans hm).not_gt
    simp only [roundFp, roundFpExact, hpos.ne', hkept, if_false]
    split_ifs
    · simp
    · exact hinexact _
  | roundedValue =>
    have hround : ¬ roundTo (pow2 (floorLog2 m - F.fracBits)) m s mode < minNorm F :=
      ((pow2_le ((minNorm_le_iff F hpos).1 hm)).trans (pow2_floorLog2_le_roundTo hpos s mode)).not_gt
    have hdenorm : roundTo (ulpAt F m) m s mode ≠ 0 :=
      (roundTo_ulpAt_pos hpos s mode ((minSub_le_minNorm F).trans hm)).ne'
    simp only [roundFp, roundFpRounded, hpos.ne', hround, hdenorm, if_false]
    split_ifs
    · simp
    · exact hinexact _
    · exact hinexact _

end

/-! Through an intermediate format. -/

theorem FitsWord.decodeFp_encZero {F : Format} (hF : FitsWord F) (s : Bool) : decodeFp F (encZero F s) = .fin s 0 := by
  obtain ⟨hs, he, hf⟩ := hF.fields_packFp s (Nat.two_pow_pos F.expBits) (Nat.two_pow_pos F.fracBits)
  obtain ⟨hexp, hpos⟩ := hF.two_pow_expBits
  have hne : 0 ≠ 2 ^ F.expBits - 1 := by omega
  simp only [decodeFp, encZero, hs, he, hf, hne, if_false, if_true, Nat.cast_zero, zero_mul]

section
variable {F : Format} {m : Rat}

/-- A significand of `p + 1` bits at a spacing of the format is a multiple of the spacing at itself. -/
theorem exists_multiple_of_significand {n : Nat} {k : Int} (hn : n < 2 ^ (F.fracBits + 1))
    (hk : F.emin - F.fracBits ≤ k) (hpos : 0 < (n : Rat) * pow2 k) :
    ∃ q : Nat, (n : Rat) * pow2 k = q * ulpAt F (n * pow2 k) := by
  have hlog : floorLog2 (n * pow2 k) < k + (F.fracBits + 1) := by
    refine lt_of_pow2_lt ((floorLog2_bounds hpos).1.trans_lt ?_)
    calc (n : Rat) * pow2 k < ((2 ^ (F.fracBits + 1) : Nat) : Rat) * pow2 k :=
          mul_lt_mul_of_pos_right (Nat.cast_lt.2 hn) (pow2_pos k)
      _ = pow2 (k + (F.fracBits + 1)) := by
          rw [two_pow_mul_pow2]
          congr 1
  rw [ulpAt_eq_pow2 F hpos]
  exact exists_mul_pow2_of_le (by unfold gridExp; omega) n

/-- A magnitude rounded to the spacing at itself is a value of the format, where it stays in range. -/
theorem isValue_roundTo_ulpAt (hm : 0 < m) (s : Bool) (mode : RoundMode)
    (hmax : roundTo (ulpAt F m) m s mode ≤ maxFinite F) (hpos : 0 < roundTo (ulpAt F m) m s mode) :
    IsValue F (roundTo (ulpAt F m) m s mode) := by
  have hq : 0 ≤ m / ulpAt F m := (div_pos hm (ulpAt_pos hm)).le
  have hhi : roundInt (m / ulpAt F m) s mode ≤ 2 ^ (F.fracBits + 1) := by
    exact_mod_cast roundInt_le_of_le hq s mode (k := ((2 ^ (F.fracBits + 1) : Nat) : Int)) (div_ulpAt_lt F hm).le
  have hk : F.emin - F.fracBits ≤ gridExp F m := sub_le_sub_right (le_max_right _ _) _
  refine ⟨?_, hmax⟩
  rw [roundTo] at hpos ⊢
  generalize roundInt (m / ulpAt F m) s mode = n at *
  rw [ulpAt_eq_pow2 F hm] at hpos ⊢
  rcases hhi.lt_or_eq with hlt | rfl
  · exact exists_multiple_of_significand hlt hk hpos
  · have hcarry : ((2 ^ (F.fracBits + 1) : Nat) : Rat) * pow2 (gridExp F m) =
        ((2 ^ F.fracBits : Nat) : Rat) * pow2 (gridExp F m + 1) := by
      rw [two_pow_mul_pow2, two_pow_mul_pow2]
      congr 1
      omega
    rw [hcarry] at hpos ⊢
    exact exists_multiple_of_significand (Nat.pow_lt_pow_right one_lt_two (Nat.lt_succ_self _)) (by omega) hpos

/-- With denormals kept, a magnitude that is not above a value is rounded to one that is not above it either. -/
theorem decodeFp_roundFp_of_le (hF : FitsWord F) (hm : 0 < m) {v : Rat} (hv : IsValue F v) (hmv : m ≤ v)
    (rc : RangeCheck) (s : Bool) (mode : RoundMode) :
    ∃ r, decodeFp F (roundFp rc s m F mode true).1 = .fin s r ∧ 0 ≤ r ∧ r ≤ v := by
  have hgrid : roundTo (ulpAt F m) m s mode ≤ v := by
    rw [ulpAt_eq_pow2 F hm]
    exact hv.roundTo_le hm s mode hmv le_rfl
  have hzero : ∃ r, decodeFp F (encZero F s) = .fin s r ∧ 0 ≤ r ∧ r ≤ v :=
    ⟨0, hF.decodeFp_encZero s, le_rfl, hm.le.trans hmv⟩
  have hrounded : roundTo (ulpAt F m) m s mode ≠ 0 →
      ∃ r, decodeFp F (encFin F s (roundTo (ulpAt F m) m s mode)) = .fin s r ∧ 0 ≤ r ∧ r ≤ v := fun hne => by
    have h0 : 0 ≤ roundTo (ulpAt F m) m s mode := mul_nonneg (Nat.cast_nonneg _) (ulpAt_pos hm).le
    have hval := isValue_roundTo_ulpAt hm s mode (hgrid.trans hv.2) (h0.lt_of_ne' hne)
    exact ⟨_, (hval.decodeFp_encFin (h0.lt_of_ne' hne) hF s).1, h0, hgrid⟩
  have hmax : ¬ maxFinite F < m := (hmv.trans hv.2).not_gt
  cases rc with
  | exactValue =>
    simp only [roundFp, roundFpExact, hm.ne', hmax, if_false]
    split_ifs with hmin
    · exact hzero
    · exact hrounded (roundTo_ulpAt_pos hm s mode (not_lt.1 hmin)).ne'
  | roundedValue =>
    have hprecision : ¬ maxFinite F < roundTo (pow2 (floorLog2 m - F.fracBits)) m s mode :=
      ((hv.roundTo_le hm s mode hmv (precision_le_gridExp F m)).trans hv.2).not_gt
    simp only [roundFp, roundFpRounded, hm.ne', hprecision, if_false, if_true]
    split_ifs with h0
    · exact hzero
    · exact hrounded h0

/-- What is not above a value of the destination's format does not overflow on its way there (rule R122). -/
theorem overflow_notMem_deliver {I : Format} (hI : FitsWord I) (hx : F.expBits ≤ I.expBits)
    (hp : F.fracBits ≤ I.fracBits) (hm : 0 < m) {v : Rat} (hv : IsValue F v) (hmv : m ≤ v) (rc : RangeCheck) (s : Bool)
    (mode : RoundMode) (denorm : Bool) : .overflow ∉ (deliver rc s m F I mode denorm).2 := by
  by_cases hIF : I = F
  · subst hIF
    rw [deliver_same]
    exact overflow_notMem_roundFp hm hv hmv
  · have hvI : IsValue I v := hv.mono (hm.trans_le hmv) hx hp
    obtain ⟨r, hdec, h0, hrv⟩ := decodeFp_roundFp_of_le hI hm hvI hmv rc s mode
    rcases h0.eq_or_lt with rfl | hr
    · rw [deliver_of_zero denorm hIF hdec]
      simp
    · rw [(deliver_of_fin denorm hIF hdec hr.ne').2]
      rintro (h | ⟨h, -⟩)
      · exact overflow_notMem_roundFp hr hv hrv h
      · cases h

end

end Sys2Proof
end

section
/-! The floating-point exceptions of each instruction (rule R175). The control word changes by the exceptions that an
instruction causes, so a bit of `EXCEPT` that is not among them is as it was; and what an instruction causes is read off
the result it delivers. -/

namespace Sys2Proof.Machine

/-! Recorded exceptions. -/

/-- The control word of a next state differs by exceptions, none of which is in a list. -/
def RecordsNone (never : List FpExc) (s t : State) : Prop :=
  ∃ e, t.fpcrw = assertExcs s.fpcrw e ∧ ∀ x ∈ e, x ∉ never

section
variable {never : List FpExc} {s t : State}

theorem recordsNone_of_fpcrw_eq (h : t.fpcrw = s.fpcrw) : RecordsNone never s t := ⟨[], h, by simp⟩

theorem recordsNone_of_finish {e : List FpExc} {commit : State → Except Stop State} (hc : KeepsFpcrw commit)
    (he : ∀ x ∈ e, x ∉ never) (h : s.finish e commit = .ok t) : RecordsNone never s t :=
  ⟨e, finish_fpcrw hc h, he⟩

theorem RecordsNone.asserted_eq (h : RecordsNone never s t) {x : FpExc} (hx : x ∈ never) :
    t.asserted x = s.asserted x := by
  obtain ⟨e, hfpcrw, he⟩ := h
  have hany : e.any (fun y => 8 + x.number == 8 + y.number) = false := by
    rw [List.any_eq_false]
    intro y hy hnum
    obtain rfl : x = y := number_inj (Nat.add_left_cancel (beq_iff_eq.1 hnum))
    exact he x hy hx
  rw [State.asserted, hfpcrw, getLsbD_assertExcs, hany, Bool.or_false, State.asserted]

end

/-! The converting moves (rules R104 to R108). -/

section
variable {z : OpSize} {v : Int} {inRange onSaturation : List FpExc} {x : FpExc}

theorem saturate_excs (h : x ∈ (saturate z v inRange onSaturation).2) : x ∈ inRange ∨ x ∈ onSaturation := by
  unfold saturate at h
  split_ifs at h
  · exact .inr h
  · exact .inr h
  · exact .inl h

variable {rule : SignalRule} {F : Format} {b : Word}

/-- `movfsi` causes OVERFLOW or SIGNAL at most (rule R106). -/
theorem truncateToInt_excs (h : x ∈ (truncateToInt rule F b z).2) : x = .overflow ∨ x = .signal := by
  cases hv : decodeFp F b with
  | fin sg m =>
    rw [truncateToInt_of_fin z hv] at h
    exact .inl (List.mem_singleton.1 ((saturate_excs h).resolve_left List.not_mem_nil))
  | inf sg =>
    rw [truncateToInt_of_inf z hv] at h
    exact .inl (List.mem_singleton.1 h)
  | nan sg t =>
    rw [truncateToInt_of_nan z hv] at h
    split at h <;> simp_all

/-- `movfx` causes OVERFLOW, INEXACT or SIGNAL at most (rule R107). -/
theorem roundToFixed_excs {mode : RoundMode} {fb : Nat} (h : x ∈ (roundToFixed rule mode F b z fb).2) :
    x = .overflow ∨ x = .inexact ∨ x = .signal := by
  cases hv : decodeFp F b with
  | fin sg m =>
    rw [roundToFixed_of_fin z mode fb hv] at h
    rcases saturate_excs h with h | h
    · exact .inr (.inl (inexactIf_excs h))
    · simpa [or_assoc] using (List.mem_pair.1 h).imp_right Or.inl
  | inf sg =>
    rw [roundToFixed_of_inf z mode fb hv] at h
    exact .inl (List.mem_singleton.1 h)
  | nan sg t =>
    rw [roundToFixed_of_nan z mode fb hv] at h
    split at h <;> simp_all

end

/-- `cvtf` causes what a delivery can cause (rule R108). -/
theorem convertFormat_excs {s : State} {mode : RoundMode} {F Fd : Format} {b : Word} {x : FpExc}
    (h : x ∈ (convertFormat s mode F Fd b).2) : DeliveryExc x := by
  cases hv : decodeFp F b with
  | fin sg m =>
    rw [convertFormat_fin hv] at h
    exact roundFp_excs h
  | inf sg =>
    rw [convertFormat_inf hv] at h
    cases h
  | nan sg t =>
    rw [convertFormat_nan hv] at h
    cases h

/-- An integer is zero or normal, so `movsif` does not flush it (rule R104). -/
theorem underflow_notMem_roundTowards_intCast (s : State) (mode : RoundMode) (d : Operand) (n : Int) :
    .underflow ∉ (roundTowards s mode d n).2 := by
  rw [roundTowards_intCast, ← Int.cast_abs, ← Int.natCast_natAbs, Int.cast_natCast]
  rcases natCast_kept (isFormat_formatOf (opSize d)) false n.natAbs with h0 | hkept
  · rw [h0]
    cases s.impl.rangeCheck <;> simp [roundFp, roundFpExact, roundFpRounded]
  · exact underflow_notMem_roundFp hkept

section
variable {s t : State} {f : Bool} {d src : Operand}

/-- An exception of the machine records none of the floating-point ones; else the end of the operation decides. -/
theorem recordsNone_of_settle {never : List FpExc} {r : Except Stop State} (h : s.settle r = .next t)
    (hr : r = .ok t → RecordsNone never s t) : RecordsNone never s t := by
  rcases settle_next h with h | ⟨x, _, rfl⟩
  · exact hr h
  · exact recordsNone_of_fpcrw_eq rfl

/-- No converting move causes an exception of its row. -/
theorem move_recordsNone {i : Instr} (hi : moveParts i = some (f, d, src)) (hd : ∀ z, d ≠ .reg 19 z)
    (h : exec i s = .next t) : RecordsNone (neverCauses s.impl i) s t := by
  cases i <;> cases hi
  case movsif =>
    refine recordsNone_of_settle h fun h => ?_
    obtain ⟨mode, w, _, _, _, hf⟩ := moveToFp_cases h
    refine recordsNone_of_finish (commitFp_keepsFpcrw f hd _) (fun x hx => ?_) hf
    have hne : x ≠ .underflow := fun hu => underflow_notMem_roundTowards_intCast s mode d _ (hu ▸ hx)
    rcases roundFp_excs hx with rfl | rfl | rfl
    · simp [neverCauses]
    · exact absurd rfl hne
    · simp [neverCauses]
  case movxf =>
    refine recordsNone_of_settle h fun h => ?_
    obtain ⟨mode, w, _, _, _, hf⟩ := moveToFp_cases h
    refine recordsNone_of_finish (commitFp_keepsFpcrw f hd _) (fun x hx => ?_) hf
    rcases roundFp_excs hx with rfl | rfl | rfl <;> simp [neverCauses]
  case movfsi =>
    refine recordsNone_of_settle h fun h => ?_
    repeat' split at h
    · cases h
    · cases h
    · refine recordsNone_of_finish (commitInt_keepsFpcrw f hd _) (fun x hx => ?_) h
      rcases truncateToInt_excs hx with rfl | rfl <;> simp [neverCauses]
  case movfx =>
    refine recordsNone_of_settle h fun h => ?_
    repeat' split at h
    · cases h
    · cases h
    · cases h
    · refine recordsNone_of_finish (commitInt_keepsFpcrw f hd _) (fun x hx => ?_) h
      rcases roundToFixed_excs hx with rfl | rfl | rfl <;> simp [neverCauses]
  case cvtf =>
    refine recordsNone_of_settle h fun h => ?_
    repeat' split at h
    · cases h
    · cases h
    · cases h
    · refine recordsNone_of_finish (commitFp_keepsFpcrw f hd _) (fun x hx => ?_) h
      rcases convertFormat_excs hx with rfl | rfl | rfl <;> simp [neverCauses]

end

/-! The arithmetic instructions (rules R125 to R141). -/

/-- The intermediate format holds every value of the destination's (rule R122). -/
theorem intermediateOf_spec (s : State) (d : Operand) (others : List Operand) :
    FitsWord (intermediateOf s (d :: others)) ∧
      (formatOf (opSize d)).expBits ≤ (intermediateOf s (d :: others)).expBits ∧
      (formatOf (opSize d)).fracBits ≤ (intermediateOf s (d :: others)).fracBits := by
  obtain ⟨o, _, ho, hwidest⟩ := largestFormat_eq_widest (List.cons_ne_nil d others)
  have hlargest : isFormat (largestFormat (d :: others)) := ho ▸ isFormat_formatOf _
  obtain ⟨hfits, hexp, hfrac⟩ := intermediateFormat_spec s.impl hlargest (isFormat_xopssFormat s)
  obtain ⟨hdexp, hdfrac⟩ := formatOf_mono (hwidest d List.mem_cons_self)
  rw [← ho] at hdexp hdfrac
  exact ⟨hfits, hdexp.trans hexp, hdfrac.trans hfrac⟩

section
variable {s : State} {mode : RoundMode} {Fd I : Format} {out : ArithOut} {x : FpExc}

/-- Where the exceptions of an operation without NaN operands come from (rules R125, R126, R129). -/
theorem arithResult_excs (h : x ∈ (arithResult s mode Fd I out).2) :
    (out = .invalid ∧ x = .invalid) ∨
    (∃ sg, out = .divZero sg ∧ x = if s.impl.divZero = .divByZero then .divByZero else .invalid) ∨
    ∃ sg m, out = .exact sg m ∧ x ∈ (deliver s.impl.rangeCheck sg m Fd I mode s.denorm).2 := by
  cases out with
  | invalid => exact .inl ⟨rfl, List.mem_singleton.1 h⟩
  | divZero sg =>
    refine .inr (.inl ⟨sg, rfl, ?_⟩)
    rw [arithResult] at h
    cases hz : s.impl.divZero with
    | divByZero =>
      rw [hz] at h
      exact List.mem_singleton.1 h
    | invalid =>
      rw [hz] at h
      exact List.mem_singleton.1 h
  | exactInf sg => cases h
  | exactZero sg => cases h
  | exact sg m => exact .inr (.inr ⟨sg, m, rfl, h⟩)

theorem divByZero_of_mem_arithResult (h : .divByZero ∈ (arithResult s mode Fd I out).2) :
    s.impl.divZero = .divByZero ∧ ∃ sg, out = .divZero sg := by
  rcases arithResult_excs h with ⟨_, hx⟩ | ⟨sg, hout, hx⟩ | ⟨sg, m, _, hx⟩
  · cases hx
  · exact ⟨by_contra fun hne => (by rw [if_neg hne] at hx; cases hx), sg, hout⟩
  · exact absurd (deliver_excs hx) (by simp [DeliveryExc])

theorem invalid_of_mem_arithResult (h : .invalid ∈ (arithResult s mode Fd I out).2) :
    out = .invalid ∨ (s.impl.divZero ≠ .divByZero ∧ ∃ sg, out = .divZero sg) := by
  rcases arithResult_excs h with ⟨hout, _⟩ | ⟨sg, hout, hx⟩ | ⟨sg, m, _, hx⟩
  · exact .inl hout
  · exact .inr ⟨fun heq => (by rw [if_pos heq] at hx; cases hx), sg, hout⟩
  · exact absurd (deliver_excs hx) (by simp [DeliveryExc])

/-- A value or a zero of the format that every format keeps is delivered without an exception. -/
theorem arithResult_of_kept {d : Operand} {others : List Operand} {sg : Bool} {m : Rat}
    (hm : 0 ≤ m) (hval : IsValue (formatOf (opSize d)) m) (hk : m = 0 ∨ leastKept (formatOf (opSize d)) s.denorm ≤ m) :
    (arithResult s mode (formatOf (opSize d)) (intermediateOf s (d :: others)) (zeroOrExact sg m)).2 = [] := by
  obtain ⟨hI, hx, hp⟩ := intermediateOf_spec s d others
  unfold zeroOrExact
  split_ifs with h0
  · rfl
  · have hpos := hm.lt_of_ne' h0
    rw [arithResult, hval.deliver_eq hpos hI hx hp, hval.roundFp_eq hpos _ _ _ (hk.resolve_left h0)]

/-- A magnitude, zero or not, causes what its delivery can cause. -/
theorem arithResult_zeroOrExact_excs {sg : Bool} {m : Rat} (h : x ∈ (arithResult s mode Fd I (zeroOrExact sg m)).2) :
    DeliveryExc x := by
  unfold zeroOrExact at h
  split_ifs at h
  · cases h
  · exact deliver_excs h

/-- A magnitude that is not above a value of the destination's format is delivered without OVERFLOW. -/
theorem overflow_notMem_arithResult {d : Operand} {others : List Operand} {sg : Bool} {m v : Rat} (hm : 0 ≤ m)
    (hv : IsValue (formatOf (opSize d)) v) (hmv : m ≤ v) :
    .overflow ∉ (arithResult s mode (formatOf (opSize d)) (intermediateOf s (d :: others)) (zeroOrExact sg m)).2 := by
  obtain ⟨hI, hx, hp⟩ := intermediateOf_spec s d others
  unfold zeroOrExact
  split_ifs with h0
  · exact List.not_mem_nil
  · exact overflow_notMem_deliver hI hx hp (hm.lt_of_ne' h0) hv hmv _ _ _ _

end

/-! Which operations divide by zero (rule R126). -/

section
variable {mode : RoundMode} {sg : Bool}

theorem zeroOrExact_ne_divZero {sg' : Bool} {m : Rat} : zeroOrExact sg' m ≠ .divZero sg := by
  unfold zeroOrExact
  split_ifs <;> exact ArithOut.noConfusion

theorem sumOut_ne_divZero {s1 s2 : Bool} {v : Rat} : sumOut mode s1 s2 v ≠ .divZero sg := by
  unfold sumOut
  split_ifs <;> exact ArithOut.noConfusion

theorem addOf_ne_divZero (a b : FpVal) : addOf mode a b ≠ .divZero sg := by
  unfold addOf
  split
  · split_ifs <;> exact ArithOut.noConfusion
  case h_4 => exact sumOut_ne_divZero
  all_goals exact ArithOut.noConfusion

theorem mulOf_ne_divZero (a b : FpVal) : mulOf a b ≠ .divZero sg := by
  unfold mulOf
  split
  case h_2 => split_ifs <;> exact ArithOut.noConfusion
  case h_3 => split_ifs <;> exact ArithOut.noConfusion
  case h_4 => exact zeroOrExact_ne_divZero
  all_goals exact ArithOut.noConfusion

theorem remOf_ne_divZero (kind : FremKind) (a b : FpVal) : remOf kind a b ≠ .divZero sg := by
  unfold remOf
  split
  case h_3 => exact zeroOrExact_ne_divZero
  case h_4 =>
    unfold remFinite
    split_ifs
    · exact ArithOut.noConfusion
    · cases kind
      · exact zeroOrExact_ne_divZero
      · dsimp only
        split_ifs
        · exact ArithOut.noConfusion
        · exact zeroOrExact_ne_divZero
  all_goals exact ArithOut.noConfusion

theorem fmaOf_ne_divZero (a b c : FpVal) : fmaOf mode a b c ≠ .divZero sg := by
  unfold fmaOf
  split
  case h_1 =>
    split
    case h_1 => split_ifs <;> exact ArithOut.noConfusion
    all_goals exact ArithOut.noConfusion
  case h_2 =>
    split
    case h_2 => exact sumOut_ne_divZero
    all_goals exact ArithOut.noConfusion
  case h_3 =>
    split
    case h_2 => exact sumOut_ne_divZero
    all_goals exact ArithOut.noConfusion
  all_goals exact ArithOut.noConfusion

theorem integralOf_ne_divZero (v : FpVal) : integralOf mode v ≠ .divZero sg := by
  cases v with
  | fin s m => exact zeroOrExact_ne_divZero
  | inf s | nan s t => exact ArithOut.noConfusion

theorem absOf_ne_divZero (v : FpVal) : absOf v ≠ .divZero sg := by
  cases v with
  | fin s m => exact zeroOrExact_ne_divZero
  | inf s | nan s t => exact ArithOut.noConfusion

theorem negOf_ne_divZero (v : FpVal) : negOf v ≠ .divZero sg := by
  cases v with
  | fin s m => exact zeroOrExact_ne_divZero
  | inf s | nan s t => exact ArithOut.noConfusion

variable {vals : List FpVal}

theorem onOne_ne_divZero {g : FpVal → ArithOut} (hg : ∀ a, g a ≠ .divZero sg) : onOne g vals ≠ .divZero sg := by
  unfold onOne
  split
  · exact hg _
  · exact ArithOut.noConfusion

theorem onTwo_ne_divZero {g : FpVal → FpVal → ArithOut} (hg : ∀ a b, g a b ≠ .divZero sg) :
    onTwo g vals ≠ .divZero sg := by
  unfold onTwo
  split
  · exact hg _ _
  · exact ArithOut.noConfusion

theorem onThree_ne_divZero {g : FpVal → FpVal → FpVal → ArithOut} (hg : ∀ a b c, g a b c ≠ .divZero sg) :
    onThree g vals ≠ .divZero sg := by
  unfold onThree
  split
  · exact hg _ _ _
  · exact ArithOut.noConfusion

/-- Only `finv` and `fdiv` divide by zero. -/
theorem computeOf_divZero {kind : FremKind} {i : Instr} (h : computeOf kind i mode vals = .divZero sg) :
    (∃ f d, i = .finv f d) ∨ ∃ f d src, i = .fdiv f d src := by
  cases i
  case round | ceil | floor => exact absurd h (onOne_ne_divZero integralOf_ne_divZero)
  case fabs => exact absurd h (onOne_ne_divZero absOf_ne_divZero)
  case fneg => exact absurd h (onOne_ne_divZero negOf_ne_divZero)
  case finv f d => exact .inl ⟨f, d, rfl⟩
  case fadd => exact absurd h (onTwo_ne_divZero addOf_ne_divZero)
  case fsub => exact absurd h (onTwo_ne_divZero fun a b => addOf_ne_divZero a (negate b))
  case fmul => exact absurd h (onTwo_ne_divZero mulOf_ne_divZero)
  case fdiv f d src => exact .inr ⟨f, d, src, rfl⟩
  case frem => exact absurd h (onTwo_ne_divZero (remOf_ne_divZero kind))
  case fma => exact absurd h (onThree_ne_divZero fmaOf_ne_divZero)
  all_goals cases h

end

/-! What each operation causes on operands that are no NaN. -/

section
variable {s : State} {mode : RoundMode} {d : Operand} {others : List Operand}

/-- The exceptions of an operation on values, delivered to a destination. -/
def valueExcs (s : State) (mode : RoundMode) (d : Operand) (others : List Operand) (out : ArithOut) : List FpExc :=
  (arithResult s mode (formatOf (opSize d)) (intermediateOf s (d :: others)) out).2

/-- DIVBYZERO is never caused by an instruction whose row says so (decision D24). -/
theorem divByZero_notMem_valueExcs {i : Instr} {kind : FremKind} {vals : List FpVal}
    (hn : .divByZero ∈ neverCauses s.impl i) :
    .divByZero ∉ valueExcs s mode d others (computeOf kind i mode vals) := fun h => by
  obtain ⟨hz, sg, hout⟩ := divByZero_of_mem_arithResult h
  rcases computeOf_divZero hout with ⟨f, d, rfl⟩ | ⟨f, d, src, rfl⟩
  · simp [neverCauses, hz] at hn
  · simp [neverCauses, hz] at hn

section
variable {b : Word} (hnan : (decodeFp (formatOf (opSize d)) b).isNaN = false)
include hnan

/-- Rounding to an integral value causes nothing (rules R130 to R132). -/
theorem valueExcs_integralOf (direction : RoundMode) :
    valueExcs s mode d others (integralOf direction (decodeFp (formatOf (opSize d)) b)) = [] := by
  have hF := isFormat_formatOf (opSize d)
  cases hv : decodeFp (formatOf (opSize d)) b with
  | inf sg => rfl
  | nan sg t =>
    rw [hv] at hnan
    cases hnan
  | fin sg m =>
    obtain ⟨h0, hval⟩ := isValue_of_decodeFp hF hv
    exact arithResult_of_kept (Nat.cast_nonneg _) (isValue_roundInt hF h0 hval sg direction) (natCast_kept hF _ _)

/-- The magnitude of the operand itself is delivered without OVERFLOW, and neither of the other two is caused (rules
R133, R134). -/
theorem notMem_valueExcs_of_magnitude (out : FpVal → ArithOut)
    (hinf : ∀ sg, ∃ sg', out (.inf sg) = .exactInf sg') (hfin : ∀ sg m, ∃ sg', out (.fin sg m) = zeroOrExact sg' m) :
    ∀ x ∈ [FpExc.invalid, .divByZero, .overflow],
      x ∉ valueExcs s mode d others (out (decodeFp (formatOf (opSize d)) b)) := by
  cases hv : decodeFp (formatOf (opSize d)) b with
  | inf sg =>
    obtain ⟨sg', hout⟩ := hinf sg
    rw [hout]
    exact fun x _ => List.not_mem_nil
  | nan sg t =>
    rw [hv] at hnan
    cases hnan
  | fin sg m =>
    obtain ⟨h0, hval⟩ := isValue_of_decodeFp (isFormat_formatOf _) hv
    obtain ⟨sg', hout⟩ := hfin sg m
    rw [hout]
    intro x hx hmem
    rcases arithResult_zeroOrExact_excs hmem with rfl | rfl | rfl
    · exact overflow_notMem_arithResult h0 hval le_rfl hmem
    · simp at hx
    · simp at hx

/-- `finv` is invalid on no operand but by `DIVZERO_EXC` (rules R126, R135). -/
theorem invalid_notMem_valueExcs_invOf (hz : s.impl.divZero = .divByZero) :
    .invalid ∉ valueExcs s mode d others (invOf (decodeFp (formatOf (opSize d)) b)) := fun h => by
  have hout := (invalid_of_mem_arithResult h).resolve_right fun hne => hne.1 hz
  cases hv : decodeFp (formatOf (opSize d)) b with
  | inf sg =>
    rw [hv] at hout
    cases hout
  | nan sg t =>
    rw [hv] at hnan
    cases hnan
  | fin sg m =>
    rw [hv, invOf] at hout
    split_ifs at hout

end

/-- A remainder is not above the dividend, so it does not overflow (rule R140). -/
theorem overflow_notMem_valueExcs_remOf (kind : FremKind) (b : Word) (F : Format) (c : Word) :
    .overflow ∉ valueExcs s mode d others (remOf kind (decodeFp (formatOf (opSize d)) b) (decodeFp F c)) := by
  have hinvalid : .overflow ∉ valueExcs s mode d others .invalid := by simp [valueExcs, arithResult]
  cases hv : decodeFp (formatOf (opSize d)) b with
  | inf sg => cases decodeFp F c <;> exact hinvalid
  | nan sg t => exact hinvalid
  | fin s1 m1 =>
    obtain ⟨h1, hval⟩ := isValue_of_decodeFp (isFormat_formatOf _) hv
    cases hw : decodeFp F c with
    | inf s2 => exact overflow_notMem_arithResult h1 hval le_rfl
    | nan s2 t => exact hinvalid
    | fin s2 m2 =>
      rw [remOf]
      split_ifs with h0
      · exact hinvalid
      · have h2 : 0 < m2 := (representable_nonneg ⟨c, s2, hw⟩).lt_of_ne' h0
        rw [remFinite_eq kind h1 h2]
        exact overflow_notMem_arithResult (abs_nonneg _) hval (abs_remainderOf_le kind h1 h2)

theorem readOps_cons {op : Operand} {ops : List Operand} {bs : List (Format × Word)}
    (h : s.readOps (op :: ops) = .ok bs) :
    ∃ b rest, bs = (formatOf (opSize op), b) :: rest ∧ ReadsAll s ops rest := by
  cases readsAll_of_readOps h with
  | cons hb hrest => exact ⟨_, _, rfl, hrest⟩

/-- No arithmetic instruction causes an exception of its row, beside DIVBYZERO, on operands that are no NaN. -/
theorem notMem_valueExcs_of_neverCauses {i : Instr} {f : Bool} {bs : List (Format × Word)} {x : FpExc}
    (hi : arithParts i = some (f, d, others)) (hr : s.readOps (d :: others) = .ok bs)
    (hnan : (operandValues bs).any FpVal.isNaN = false) (hx : x ∈ neverCauses s.impl i) (hdiv : x ≠ .divByZero) :
    x ∉ valueExcs s mode d others (computeOf s.impl.fremKind i mode (operandValues bs)) := by
  obtain ⟨b, rest, rfl, hrest⟩ := readOps_cons hr
  have hd : (decodeFp (formatOf (opSize d)) b).isNaN = false := by
    rw [operandValues, List.map_cons, List.any_cons, Bool.or_eq_false_iff] at hnan
    exact hnan.1
  cases i <;> cases hi
  case round | ceil | floor =>
    cases hrest
    exact (valueExcs_integralOf hd _).symm ▸ List.not_mem_nil
  case fabs =>
    cases hrest
    exact notMem_valueExcs_of_magnitude hd absOf (fun sg => ⟨_, rfl⟩) (fun sg m => ⟨_, rfl⟩) x hx
  case fneg =>
    cases hrest
    exact notMem_valueExcs_of_magnitude hd negOf (fun sg => ⟨_, rfl⟩) (fun sg m => ⟨_, rfl⟩) x hx
  case finv =>
    cases hrest
    rw [neverCauses] at hx
    split_ifs at hx with hz
    · rw [List.mem_singleton.1 hx]
      exact invalid_notMem_valueExcs_invOf hd hz
    · exact absurd (List.mem_singleton.1 hx) hdiv
  case frem =>
    rcases hrest with _ | ⟨hc, ⟨⟩⟩
    rw [List.mem_singleton.1 ((List.mem_cons.1 hx).resolve_left hdiv)]
    exact overflow_notMem_valueExcs_remOf s.impl.fremKind b _ _
  case fdiv =>
    rw [neverCauses] at hx
    split_ifs at hx
    · cases hx
    · exact absurd (List.mem_singleton.1 hx) hdiv
  case fadd | fsub | fmul | fma => exact absurd (List.mem_singleton.1 hx) hdiv

end

/-- SIGNAL, which a NaN may cause, is in no row of an arithmetic instruction. -/
theorem signal_notMem_neverCauses {impl : Impl} {i : Instr} {f : Bool} {d : Operand} {others : List Operand}
    (hi : arithParts i = some (f, d, others)) : .signal ∉ neverCauses impl i := by
  cases i <;> cases hi
  case finv | fdiv =>
    rw [neverCauses]
    split_ifs <;> decide
  all_goals
    rw [neverCauses]
    decide

theorem arithmetic_recordsNone {i : Instr} {f : Bool} {d : Operand} {others : List Operand} {s t : State}
    (hi : arithParts i = some (f, d, others)) (h : exec i s = .next t) : RecordsNone (neverCauses s.impl i) s t := by
  rw [exec_eq_arith_computeOf hi] at h
  refine recordsNone_of_settle h fun h => ?_
  obtain ⟨mode, bs, hchecks, _, hr, hf⟩ := arith_cases h
  have hd := ne_reg_of_fpReg_or_mem (n := 19) (arith_destination (fpCommonChecks_ok hchecks).2.2.1) (by decide)
  refine recordsNone_of_finish (commitArith_keepsFpcrw f hd _) (fun x hx hn => ?_) hf
  cases hnan : (operandValues bs).any FpVal.isNaN with
  | true =>
    rw [arithOutcome_of_nan hnan] at hx
    split_ifs at hx
    · exact signal_notMem_neverCauses hi (List.mem_singleton.1 hx ▸ hn)
    · cases hx
  | false =>
    have hout : arithOutcome s mode (formatOf (opSize d)) (intermediateOf s (d :: others))
        (computeOf s.impl.fremKind i mode) bs = arithResult s mode (formatOf (opSize d))
          (intermediateOf s (d :: others)) (computeOf s.impl.fremKind i mode (operandValues bs)) :=
      if_neg (Bool.eq_false_iff.1 hnan)
    rw [hout] at hx
    by_cases hdiv : x = .divByZero
    · subst hdiv
      exact divByZero_notMem_valueExcs hn hx
    · exact notMem_valueExcs_of_neverCauses hi hr hnan hn hdiv hx

/-! The comparisons and the triggers (rules R150, R160). -/

theorem comparison_recordsNone {never : List FpExc} {s t : State} (hn : .signal ∉ never)
    (h : (∃ x, t = s.raise x) ∨ ∃ signals o, s.finish (signalIf signals) (commitCmp o) = .ok t) :
    RecordsNone never s t := by
  rcases h with ⟨x, rfl⟩ | ⟨signals, o, hf⟩
  · exact recordsNone_of_fpcrw_eq rfl
  · refine recordsNone_of_finish (commitCmp_keepsFpcrw o) (fun x hx => ?_) hf
    cases signals
    · cases hx
    · rwa [List.mem_singleton.1 hx]

theorem trigger_recordsNone {never : List FpExc} {s t : State} (h : (∃ x, t = s.raise x) ∨ t = s.advance) :
    RecordsNone never s t := by
  rcases h with ⟨x, rfl⟩ | rfl
  · exact recordsNone_of_fpcrw_eq rfl
  · exact recordsNone_of_fpcrw_eq rfl

/-- Settles O35: what each family records leaves out its row of the table. -/
theorem exceptionTable : Obligations.ExceptionTable := by
  intro i s t x h hx hd
  refine RecordsNone.asserted_eq ?_ hx
  rcases instr_families i with
    ⟨f, d, src, hi⟩ | ⟨f, d, others, hi⟩ | ⟨a, rfl⟩ | ⟨a, b, rfl⟩ | rfl | rfl
  · exact move_recordsNone hi (fun z => hd f d src z hi) h
  · exact arithmetic_recordsNone hi h
  · exact comparison_recordsNone (by rw [neverCauses]; decide) (fcmpz_signal_cases h)
  · exact comparison_recordsNone (by rw [neverCauses]; decide) (fcmp_signal_cases h)
  · exact trigger_recordsNone (triggerExcept_cases h)
  · exact trigger_recordsNone (triggerExcept_cases h)

end Sys2Proof.Machine
end
